-- ==== Sys2Proof/Word.lean ====
section
/-! DEFINITION. The words of MBRTU (spec/00_scope.md R10): a byte is 8 bits, a u16 is 16 bits and a host register
is 32 bits; time is an exact rational number of seconds (spec/40_transport.md R110). -/

namespace Sys2Proof

/-- A byte (R10). -/
abbrev Byte := BitVec 8

/-- A u16 (R10): an argument, a register value, a CRC. -/
abbrev Half := BitVec 16

/-- A host register word (R10, R23). -/
abbrev Word := BitVec 32

/-- An instant or a duration in seconds, exact (R110). -/
abbrev Time := ℚ

end Sys2Proof
end

