-- ==== Sys2Proof/Config.lean ====
section
/-! DEFINITION. What an implementation of MBRTU fixes (spec/00_scope.md R8), the named parameters the spec leaves
open (R9), and the free values (spec/10_state.md R52). -/

namespace Sys2Proof

/-- `TIMING_MODEL` (R9, R119): exact time, or every wire outcome chosen by the line. -/
inductive TimingModel where
  | timed
  | untimed
  deriving DecidableEq, Repr

/-- The open parameters of R9, as one record. The model takes them as an argument: State carries the record, no step
changes it, and a statement about every state holds for every value of it (notes/assumptions/2.md).
`HOST_BUS` has no field: it decides only how a refused access is signalled, and the model stops there (R72). -/
structure Params where
  /-- `SUPPORTED_BAUD`: the baud rates OPEN accepts. -/
  supportedBaud : List Nat
  /-- `EOF_CHARS`: the silence that ends a received frame, in character times. -/
  eofChars : Time
  /-- `CMD_LATENCY`: how long an EXEC or a DECODE phase lasts, in seconds (R272). -/
  cmdLatency : Time
  /-- `TIMING_MODEL`. -/
  timing : TimingModel
  deriving DecidableEq, Repr

/-- The constraints R9 puts on the parameters. -/
def Params.legal (p : Params) : Bool :=
  p.supportedBaud.all (fun b => decide (0 < b)) && p.supportedBaud.contains 9600 &&
    decide (0 < p.eofChars) && decide (0 ≤ p.cmdLatency)

/-- The parameters `State.reset` carries: the smallest `SUPPORTED_BAUD` R9 allows, the default `EOF_CHARS` 7/2, and
DESIGN CHOICE values for the two parameters R9 gives no default (notes/assumptions/2.md, unsafe). -/
def Params.reference : Params :=
  { supportedBaud := [9600], eofChars := 7 / 2, cmdLatency := 1 / 1000000, timing := .timed }

namespace Config

/-- `MAX_COUNT` (R8). -/
abbrev maxCount : Nat := 125

/-- TXBUF size in cells (R8, R41). -/
abbrev txbufSize : Nat := 256

/-- RXBUF size in cells (R8, R42). -/
abbrev rxbufSize : Nat := 256

/-- RESULT size in cells (R8, R43). -/
abbrev resultSize : Nat := 125

/-- The draw of R52: what the `n`-th host read of a result register while BUSY = 1 returns, before it is cut to the
field's width. A free value: no body, so nothing can be proved of it (notes/assumptions/3.md). -/
opaque freeDraw : Nat → Word

end Config

end Sys2Proof
end

