-- ==== Sys2Proof/Syntax.lean ====
section
/-! DEFINITION. The instructions of MBRTU: one constructor per row of spec/opcode_table.json. The first twelve are the
command words a host writes to CMD (spec/30_encoding.md R92, R93); they have no operand fields, since every operand comes
from the argument registers (R91, R94). The last three are the wire frames (R95 to R97), whose operands are the frame's
fields. -/

namespace Sys2Proof

inductive Instr where
  /-- OPEN, 0x01 (R120). -/
  | openCmd
  /-- CLOSE, 0x02 (R121). -/
  | closeCmd
  /-- WRITE_BYTES, 0x03 (R122). -/
  | writeBytes
  /-- READ_BYTES, 0x04 (R123). -/
  | readBytes
  /-- ENCODE_RIR, 0x05 (R154). -/
  | encodeRir
  /-- DECODE_RESP, 0x06 (R155). -/
  | decodeResp
  /-- READ_INPUT_REGS, 0x07 (R190). -/
  | readInputRegs
  /-- DECODE_TEMP, 0x08 (R212). -/
  | decodeTemp
  /-- DECODE_HUM, 0x09 (R213). -/
  | decodeHum
  /-- CRC_INIT, 0x0A (R152). -/
  | crcInit
  /-- CRC_UPDATE, 0x0B (R153). -/
  | crcUpdate
  /-- BADCMD: every other command word (R93). -/
  | badCmd (w : Word)
  /-- The Read Input Registers request frame (R95), with the CRC it carries. -/
  | rtuReqReadInputRegs (slave : Byte) (start count crc : Half)
  /-- The normal response frame (R96), with the byte count and the CRC it carries. -/
  | rtuRspNormal (slave byteCount : Byte) (regs : List Half) (crc : Half)
  /-- The exception response frame (R97), with the CRC it carries. -/
  | rtuRspException (slave excCode : Byte) (crc : Half)
  deriving DecidableEq, Repr

end Sys2Proof
end

