-- ==== Sys2Proof/Decode.lean ====
section
/-! DEFINITION. Decoding, total on any command word and any byte sequence, and after it the encoder. MBRTU has two kinds of
encoding (spec/30_encoding.md R90): the command word (R91, R92) and the wire frames (R95 to R97). -/

namespace Sys2Proof

/-! Bit fields and byte order. -/

/-- The opcode field, bits 7:0 of a command word (R91). -/
def wordOpcode (w : Word) : Byte := w.extractLsb' 0 8

/-- The reserved field, bits 31:8 of a command word (R91). -/
def wordReserved (w : Word) : BitVec 24 := w.extractLsb' 8 24

/-- An illegal command word (R93): reserved bits set, or an opcode in {0x00, 0x0C to 0xFF}. -/
def isIllegalWord (w : Word) : Bool :=
  wordReserved w != 0 || wordOpcode w == 0x00 || decide (0x0C ≤ (wordOpcode w).toNat)

/-- The high byte of a u16. -/
def hiByte (h : Half) : Byte := h.extractLsb' 8 8

/-- The low byte of a u16. -/
def loByte (h : Half) : Byte := h.extractLsb' 0 8

/-- `hi || lo` (R10): the u16 of two bytes. -/
def joinBytes (hi lo : Byte) : Half := hi ++ lo

/-! Encodings and what the decoder rejects. -/

/-- A word of the machine, in one of its two encodings (R90). -/
inductive Code where
  /-- (A) a 32-bit value written to CMD. -/
  | cmd (w : Word)
  /-- (B) a byte sequence on the serial line, index 0 first. -/
  | frame (b : List Byte)
  deriving DecidableEq, Repr

/-- Why a byte sequence is no frame of R95 to R97. (A command word is never rejected: R93 gives every other word the
meaning BADCMD.) -/
inductive DecodeError where
  /-- Fewer bytes than the shortest frame, 5. -/
  | frameShort
  /-- Byte 1 is neither 0x04 nor 0x84 (R99). -/
  | functionUnknown
  /-- The length is not that of a frame with this byte 1 and byte count (R95 to R98). -/
  | lengthMismatch
  /-- A normal response of more than 125 registers, which no RXBUF holds (R8). -/
  | frameTooLong
  deriving DecidableEq, Repr

/-- The command map (R92). -/
def cmdRows : List (Byte × Instr) :=
  [(0x01, .openCmd), (0x02, .closeCmd), (0x03, .writeBytes), (0x04, .readBytes), (0x05, .encodeRir), (0x06, .decodeResp),
   (0x07, .readInputRegs), (0x08, .decodeTemp), (0x09, .decodeHum), (0x0A, .crcInit), (0x0B, .crcUpdate)]

/-- The command a word selects: a row of R92 when `v[31:8] = 0` and `v[7:0]` is the row's OPCODE, otherwise BADCMD
(R93). -/
def decodeCmd (w : Word) : Instr :=
  if wordReserved w = 0 then (cmdRows.lookup (wordOpcode w)).getD (.badCmd w) else .badCmd w

/-- The registers of a normal response, high byte first (R77, R96), and the CRC that follows them, low byte first. -/
def takeRegs : List Byte → Option (List Half × Half)
  | [lo, hi] => some ([], joinBytes hi lo)
  | h :: l :: rest =>
    match takeRegs rest with
    | some (regs, crc) => some (joinBytes h l :: regs, crc)
    | none => none
  | _ => none

/-- The frame a byte sequence is. A request has 8 bytes and a normal response an odd number (R95, R96), so that the length
tells the two kinds with byte 1 = 0x04 apart (notes/assumptions/4.md). -/
def decodeFrame (b : List Byte) : Except DecodeError Instr :=
  match b with
  | s :: f :: x :: rest =>
    if rest.length < 2 then .error .frameShort
    else if f = 0x84 then
      match rest with
      | [lo, hi] => .ok (.rtuRspException s x (joinBytes hi lo))
      | _ => .error .lengthMismatch
    else if f = 0x04 then
      match rest with
      | [sl, ch, cl, lo, hi] => .ok (.rtuReqReadInputRegs s (joinBytes x sl) (joinBytes ch cl) (joinBytes hi lo))
      | _ =>
        match takeRegs rest with
        | some (regs, crc) =>
          if x.toNat ≠ 2 * regs.length then .error .lengthMismatch
          else if regs.length > Config.resultSize then .error .frameTooLong
          else .ok (.rtuRspNormal s x regs crc)
        | none => .error .lengthMismatch
    else .error .functionUnknown
  | _ => .error .frameShort

/-- The decoder, on either encoding. -/
def decode : Code → Except DecodeError Instr
  | .cmd w => .ok (decodeCmd w)
  | .frame b => decodeFrame b

/-! The encoder. -/

/-- The command word of an opcode (R91): reserved bits 0. -/
def opcodeWord (op : Byte) : Word := op.setWidth 32

/-- A CRC on the wire: low byte first (R77). -/
def crcBytes (crc : Half) : List Byte := [loByte crc, hiByte crc]

/-- The first six bytes of a request (R95). -/
def requestBody (slave : Byte) (start count : Half) : List Byte :=
  [slave, 0x04, hiByte start, loByte start, hiByte count, loByte count]

/-- The request frame (R95). -/
def requestBytes (slave : Byte) (start count crc : Half) : List Byte := requestBody slave start count ++ crcBytes crc

/-- The registers of a response, high byte first (R77). -/
def regBytes : List Half → List Byte
  | [] => []
  | r :: regs => hiByte r :: loByte r :: regBytes regs

/-- The bytes of a normal response that its CRC covers (R96). -/
def normalBody (slave byteCount : Byte) (regs : List Half) : List Byte := slave :: 0x04 :: byteCount :: regBytes regs

/-- The normal response frame (R96). -/
def normalBytes (slave byteCount : Byte) (regs : List Half) (crc : Half) : List Byte :=
  normalBody slave byteCount regs ++ crcBytes crc

/-- The exception response frame (R97). -/
def exceptionBytes (slave excCode : Byte) (crc : Half) : List Byte := [slave, 0x84, excCode] ++ crcBytes crc

/-- The words of an instruction. -/
def encode : Instr → Code
  | .openCmd => .cmd (opcodeWord 0x01)
  | .closeCmd => .cmd (opcodeWord 0x02)
  | .writeBytes => .cmd (opcodeWord 0x03)
  | .readBytes => .cmd (opcodeWord 0x04)
  | .encodeRir => .cmd (opcodeWord 0x05)
  | .decodeResp => .cmd (opcodeWord 0x06)
  | .readInputRegs => .cmd (opcodeWord 0x07)
  | .decodeTemp => .cmd (opcodeWord 0x08)
  | .decodeHum => .cmd (opcodeWord 0x09)
  | .crcInit => .cmd (opcodeWord 0x0A)
  | .crcUpdate => .cmd (opcodeWord 0x0B)
  | .badCmd w => .cmd w
  | .rtuReqReadInputRegs slave start count crc => .frame (requestBytes slave start count crc)
  | .rtuRspNormal slave byteCount regs crc => .frame (normalBytes slave byteCount regs crc)
  | .rtuRspException slave excCode crc => .frame (exceptionBytes slave excCode crc)

/-! The opcode table's numbering. -/

/-- `n` bytes of a number from bit `8*k` up. -/
def bytesFrom (w k : Nat) : Nat → List Byte
  | 0 => []
  | n + 1 => BitVec.ofNat 8 (w / 2 ^ (8 * k)) :: bytesFrom w (k + 1) n

/-- The word whose bits the opcode table numbers `w`. A row of 17 to 32 bits is a command word. A wire-frame row gives bytes
0 and 1 as one 16-bit value, byte 0 in its bits 15:8 (the table's note). The table gives a frame's later bytes no bits:
they are zeros, and the frame is the shortest one they make, 5 bytes. A longer row counts its later bytes on from bit
16. -/
def tableCode (nbits w : Nat) : Code :=
  if nbits ≤ 16 then .frame (BitVec.ofNat 8 (w / 256) :: BitVec.ofNat 8 w :: [0, 0, 0])
  else if nbits ≤ 32 then .cmd (BitVec.ofNat 32 w)
  else .frame (BitVec.ofNat 8 (w / 256) :: BitVec.ofNat 8 w :: bytesFrom w 2 (nbits / 8 - 2))

/-- The instruction the decoder reads from a word numbered as spec/opcode_table.json numbers it. -/
def decodeTableWord (nbits w : Nat) : Option Instr :=
  match decode (tableCode nbits w) with
  | .ok i => some i
  | .error _ => none

end Sys2Proof
end

