-- ==== Sys2Proof/Machine/State.lean ====
section
/-! DEFINITION. The state of MBRTU, as plain data: the whole architectural state of spec/10_state.md R22, and the
environment it works with (R20, R21). Every field has exactly the width the spec gives it, so that a reserved bit has no
place to be stored and reads as 0 (R24). Fields of the model's own are marked so. -/

namespace Sys2Proof.Machine

/-- The sequencer phase, the block's program counter (R44). -/
inductive Phase where
  | idle
  | exec
  | txGap
  | tx
  | rxWait
  | rxFrame
  | decode
  deriving DecidableEq, Repr

/-- The registers of the host map (R23). -/
inductive Reg where
  | cmd | status | cfgBaud | cfgFrame | cfgRtoMs | cfgWtoMs
  | argSlave | argFunc | argStart | argCount | argLen | argRaw
  | crcAcc | rxLen | resultCount | diagCrc
  | scaleX100 | scaleInt | scaleFrac | scaleFlags | scaleF64Lo | scaleF64Hi | line
  | txbuf (i : Nat) | rxbuf (i : Nat) | result (i : Nat)
  | reserved
  deriving DecidableEq, Repr

/-- The fields of STATUS that are stored (R26). BUSY is `phase ≠ IDLE` (R44) and OPEN is the transport's `open` (R29):
each is stored once, and `statusWord` shows it. -/
structure Status where
  done : Bool
  reject : Bool
  cls : BitVec 2
  code : BitVec 4
  lastOp : Byte
  excCode : Byte
  deriving DecidableEq, Repr

/-- The scaler's output registers (R45). `kind` is 0 for Temperature and 1 for Humidity. -/
structure ScaleRegs where
  x100 : Word
  int : Word
  frac : BitVec 7
  neg : Bool
  kind : Bool
  f64Lo : Word
  f64Hi : Word
  deriving DecidableEq, Repr

/-- The host-visible registers other than STATUS, the buffers and LINE (R34 to R40, R45). -/
structure Regs where
  cfgBaud : Word
  /-- Bits 7:0 of CFG_FRAME: DATA_BITS 3:0, PARITY 5:4, STOP_BITS 7:6 (R35). -/
  cfgFrame : Byte
  cfgRtoMs : Half
  cfgWtoMs : Half
  argSlave : Byte
  argFunc : Byte
  argStart : Half
  argCount : Half
  argLen : Half
  argRaw : Half
  crcAcc : Half
  rxLen : BitVec 9
  resultCount : Byte
  /-- DIAG_CRC bits 15:0. -/
  diagCalc : Half
  /-- DIAG_CRC bits 31:16. -/
  diagRecv : Half
  scale : ScaleRegs
  deriving DecidableEq, Repr

/-- The arguments latched at acceptance (R46). -/
structure Latch where
  op : Word
  slave : Byte
  func : Byte
  start : Half
  count : Half
  len : Half
  raw : Half
  t0 : Time
  deriving DecidableEq, Repr

/-- The transport's hidden state (R49). -/
structure Transport where
  isOpen : Bool
  tLast : Time
  txK : Nat
  rxN : Nat
  deadline : Time
  deriving DecidableEq, Repr

/-- The buffers: (window offset, byte) pairs, offsets strictly rising. TXBUF[i] is the byte at 0x100 + 4*i, RXBUF[i] the
byte at 0x500 + 4*i, and RESULT[i] the two bytes at 0x900 + 4*i (bits 7:0) and 0x901 + 4*i (bits 15:8). An unlisted offset
holds no value: being listed is the cell's written bit (R50). -/
abbrev Memory := List Host.Cell

/-- A character the line delivers (R116): its start time, its byte, and the errors the UART finds in it. -/
structure LineChar where
  start : Time
  byte : Byte
  framingErr : Bool
  parityErr : Bool
  deriving DecidableEq, Repr

/-- `TIMING_MODEL = untimed`: the outcome of a TX phase, chosen by the line (R119). `cut` says that one more character was on
the line when the phase was broken off (R114, R262). -/
inductive TxChoice where
  | ok
  | timeout (k : Nat)
  | failed (k : Nat) (cut : Bool)
  deriving DecidableEq, Repr

/-- `TIMING_MODEL = untimed`: the outcome of an RX phase and the bytes stored, chosen by the line (R119). -/
inductive RxChoice where
  | complete (b : List Byte)
  | timeout (b : List Byte)
  | failed (b : List Byte)
  deriving DecidableEq, Repr

/-- A change of a one-bit input still to come: the earliest instant it may happen, and the level it brings. `yields` is how many
of the steps of the host and the sequencer that are due at the same instant go before it, where a rule leaves the order open
(R247). -/
structure InputChange where
  time : Time
  yields : Nat
  level : Bool
  deriving DecidableEq, Repr

/-- The line agent (R20, R21): the `line_present` input's level, its changes still to come, and the line's choices still to
come. -/
structure Line where
  present : Bool
  changes : List InputChange
  chars : List LineChar
  txChoices : List TxChoice
  rxChoices : List RxChoice
  deriving DecidableEq, Repr

/-- The width of a host access, in bytes (R72). -/
inductive Width where
  | b1 | b2 | b4 | b8
  deriving DecidableEq, Repr

/-- What the host does (R20, R70). -/
inductive EnvAction where
  /-- `MemRead(off, width)`. -/
  | read (off : BitVec 12) (width : Width)
  /-- `MemWrite(off, width, v)`. -/
  | write (off : BitVec 12) (width : Width) (v : Word)
  /-- The host's WAIT loop (R103): it reads STATUS until BUSY = 0. -/
  | wait
  deriving DecidableEq, Repr

/-- An action of the host still to come, and the earliest instant it may happen. `yields` settles the race of R247: it is how
many of the sequencer's steps that are due at the same instant go before it. -/
structure EnvEvent where
  time : Time
  yields : Nat
  act : EnvAction
  deriving DecidableEq, Repr

/-- A character MBRTU put on the wire (R78, R114), with the levels of its bits. `whole = false`: it was cut off at
`stop`. -/
structure TxChar where
  byte : Byte
  bits : List Bool
  start : Time
  stop : Time
  whole : Bool
  deriving DecidableEq, Repr

/-- A host read and the value the block returned. -/
structure BusRead where
  off : BitVec 12
  value : Word
  deriving DecidableEq, Repr

/-- What the environment has seen of the block, oldest first. The model's own record; no rule reads it. -/
structure Seen where
  wire : List TxChar
  reads : List BusRead
  deriving DecidableEq, Repr

structure State where
  status : Status
  regs : Regs
  mem : Memory
  phase : Phase
  latch : Latch
  /-- When the current phase was entered. The model's own: it places TX's first start bit (R114) and DECODE's end
  (R272). -/
  phaseAt : Time
  port : Transport
  now : Time
  /-- The level of the `rst` input (R260). -/
  rst : Bool
  /-- The changes of the `rst` input still to come (R260). -/
  resets : List InputChange
  line : Line
  /-- The host's accesses still to come, in the order the host issues them (R80). -/
  env : List EnvEvent
  params : Params
  /-- How many draws of `Config.freeDraw` have been taken. The model's own. -/
  draws : Nat
  seen : Seen
  deriving DecidableEq, Repr

/-- Why the machine stops. -/
inductive Fault where
  /-- A host read of, or a command's use of, a TXBUF, RXBUF or RESULT cell not written since reset (R50). Raised by host
  reads, WRITE_BYTES, READ_INPUT_REGS, DECODE_RESP, and a reset that cuts off a character of such a cell. Safe: the chip
  goes on with some byte, and the model gives none. -/
  | unwrittenCell (off : Nat)
  /-- A host access that is not an aligned 32-bit access (R72). Raised by the host port. Safe: the model gives a refused
  access no value and does not perform it. -/
  | refusedAccess (off : BitVec 12)
  deriving DecidableEq, Repr

/-- Why an instruction has no meaning. -/
inductive Refusal where
  /-- The instruction has no meaning in the model yet. Raised by exec's refused arms only. Safe. -/
  | notModelled (mnemonic : String)
  deriving DecidableEq, Repr

/-- STATUS after reset: 0x00000000 (R261). -/
def Status.reset : Status :=
  { done := false, reject := false, cls := 0, code := 0, lastOp := 0, excCode := 0 }

/-- The host-visible registers after reset (R261). -/
def Regs.reset : Regs :=
  { cfgBaud := 9600, cfgFrame := 0x48, cfgRtoMs := 500, cfgWtoMs := 500,
    argSlave := 0, argFunc := 0x04, argStart := 0, argCount := 0, argLen := 0, argRaw := 0,
    crcAcc := 0xFFFF, rxLen := 0, resultCount := 0, diagCalc := 0, diagRecv := 0,
    scale := { x100 := 0, int := 0, frac := 0, neg := false, kind := false, f64Lo := 0, f64Hi := 0 } }

/-- The latches after reset: unspecified by R261, zeros here (DESIGN CHOICE, notes/assumptions/1.md). -/
def Latch.reset : Latch :=
  { op := 0, slave := 0, func := 0, start := 0, count := 0, len := 0, raw := 0, t0 := 0 }

/-- The transport after reset: closed (R261). `t_last`, `tx_k`, `rx_n` and `deadline` are undefined by R261, zeros here
(DESIGN CHOICE, notes/assumptions/1.md). -/
def Transport.reset : Transport := { isOpen := false, tLast := 0, txK := 0, rxN := 0, deadline := 0 }

/-- The machine right after reset (R261), out of the `rst` input, with nothing for the environment to do. The level of
`line_present` is the environment's; here it is 1 (DESIGN CHOICE, notes/assumptions/1.md). -/
def State.reset : State :=
  { status := Status.reset, regs := Regs.reset, mem := [], phase := .idle, latch := Latch.reset, phaseAt := 0,
    port := Transport.reset, now := 0, rst := false, resets := [],
    line := { present := true, changes := [], chars := [], txChoices := [], rxChoices := [] },
    env := [], params := Params.reference, draws := 0, seen := { wire := [], reads := [] } }

end Sys2Proof.Machine
end

