-- ==== Sys2Proof/Machine/Operands.lean ====
section
/-! DEFINITION. Where the operands of a command come from: the fields of the registers, the latches of acceptance
(spec/10_state.md R46), and the quantities each command takes from them. -/

namespace Sys2Proof.Machine

/-! CFG_FRAME's fields (R35). -/

def dataBits (r : Regs) : BitVec 4 := r.cfgFrame.extractLsb' 0 4

def parity (r : Regs) : BitVec 2 := r.cfgFrame.extractLsb' 4 2

def stopBits (r : Regs) : BitVec 2 := r.cfgFrame.extractLsb' 6 2

/-- The configurations OPEN accepts (R120). -/
def configLegal (p : Params) (r : Regs) : Bool :=
  p.supportedBaud.contains r.cfgBaud.toNat && dataBits r == 8 && parity r != 3 && (stopBits r == 1 || stopBits r == 2) &&
    r.cfgRtoMs != 0 && r.cfgWtoMs != 0

/-- A timeout register's milliseconds, in seconds (R36, R114, R115). -/
def msTime (ms : Half) : Time := (ms.toNat : Time) / 1000

/-! The latches. -/

/-- L <- latch(ARG_*, v, now) (R46). -/
def latchArgs (v : Word) (s : State) : Latch :=
  { op := v, slave := s.regs.argSlave, func := s.regs.argFunc, start := s.regs.argStart, count := s.regs.argCount,
    len := s.regs.argLen, raw := s.regs.argRaw, t0 := s.now }

/-- The byte CRC_UPDATE takes: L.RAW[7:0] (R153, D44). -/
def crcOperand (l : Latch) : Byte := loByte l.raw

/-- LEN > 256: BADARG for WRITE_BYTES, READ_BYTES and DECODE_RESP (R122, R123, R155). -/
def lenTooBig (l : Latch) : Bool := decide (256 < l.len.toNat)

/-- The arguments READ_INPUT_REGS refuses (R191). -/
def rirBadArg (l : Latch) : Bool :=
  decide (l.slave.toNat < 1) || decide (247 < l.slave.toNat) || decide (l.count.toNat < 1) ||
    decide (Config.maxCount < l.count.toNat)

/-- The command in progress is READ_INPUT_REGS. -/
def isRir (l : Latch) : Bool := l.op == opcodeWord 0x07

/-- How many bytes the TX phase sends: 8 for READ_INPUT_REGS, LEN for WRITE_BYTES (R122, R190). -/
def txTotal (l : Latch) : Nat := if isRir l then 8 else l.len.toNat

/-- The maximum length M of the RX phase: 5 + 2*COUNT for READ_INPUT_REGS, LEN for READ_BYTES (R123, R190, R192). -/
def rxMax (l : Latch) : Nat := if isRir l then 5 + 2 * l.count.toNat else l.len.toNat

/-- `as_i16(u)` (R11). -/
def asI16 (u : Half) : Int := u.toInt

/-- The address of TXBUF[i] in the buffers (R41). -/
def txAddr (i : Nat) : Nat := 0x100 + 4 * i

/-- The address of RXBUF[i] (R42). -/
def rxAddr (i : Nat) : Nat := 0x500 + 4 * i

/-- The address of RESULT[i], bits 7:0; bits 15:8 stand one above (R43). -/
def resAddr (i : Nat) : Nat := 0x900 + 4 * i

end Sys2Proof.Machine
end

