-- ==== Sys2Proof/Machine/Crc.lean ====
section
/-! DEFINITION. The CRC-16/Modbus generator (spec/41_codec.md R150, R151) and the frame decoder's function (R155 to
R157). -/

namespace Sys2Proof.Machine

/-- One of crcStep's eight rounds (R151). -/
def crcBit (c : Half) : Half := if c.getLsbD 0 then (c >>> 1) ^^^ 0xA001 else c >>> 1

/-- `n` rounds. -/
def crcRounds : Nat → Half → Half
  | 0, c => c
  | n + 1, c => crcRounds n (crcBit c)

/-- `crcStep` (R151). -/
def crcStep (c : Half) (b : Byte) : Half := crcRounds 8 (c ^^^ b.setWidth 16)

/-- The generator fed with bytes from the value `c`. -/
def crcFrom (c : Half) (bs : List Byte) : Half := bs.foldl crcStep c

/-- `crc16` (R151): the initial value is 0xFFFF (R150). -/
def crc16 (bs : List Byte) : Half := crcFrom 0xFFFF bs

end Sys2Proof.Machine
end

