-- ==== Sys2Proof/Machine/Flags.lean ====
section
/-! DEFINITION. MBRTU has no condition codes (spec/10_state.md R51): its flags are the fields of STATUS. This file gives the
result classes and codes a completion writes (R31, R33, spec/60_exceptions.md R231) and the word a read of STATUS returns
(R26). -/

namespace Sys2Proof.Machine

/-- TransportError (R31, class 1). -/
inductive IoError where
  | openFailed | writeTimeout | writeFailed | readTimeout | readFailed
  deriving DecidableEq, Repr

/-- FrameError (R31, class 2). -/
inductive FrameError where
  | crcMismatch | slaveMismatch | functionMismatch
  | exceptionResponse (code : Byte)
  | truncated
  deriving DecidableEq, Repr

/-- Faults of the block interface (R31, class 3). -/
inductive BlockError where
  | badCmd | badArg
  deriving DecidableEq, Repr

/-- How a command ends: `complete OK` or one `raise` (R12, R230). -/
inductive Result where
  | ok
  | io (e : IoError)
  | protocol (e : FrameError)
  | block (e : BlockError)
  deriving DecidableEq, Repr

/-- STATUS.CLASS of a result (R31). -/
def resultClass : Result → BitVec 2
  | .ok => 0
  | .io _ => 1
  | .protocol _ => 2
  | .block _ => 3

/-- STATUS.CODE of a result (R31). -/
def resultCode : Result → BitVec 4
  | .ok => 0
  | .io .openFailed => 1
  | .io .writeTimeout => 2
  | .io .writeFailed => 3
  | .io .readTimeout => 4
  | .io .readFailed => 5
  | .protocol .crcMismatch => 1
  | .protocol .slaveMismatch => 2
  | .protocol .functionMismatch => 3
  | .protocol (.exceptionResponse _) => 4
  | .protocol .truncated => 5
  | .block .badCmd => 1
  | .block .badArg => 2

/-- STATUS.EXC_CODE of a result (R33). -/
def resultExc : Result → Byte
  | .protocol (.exceptionResponse c) => c
  | .ok => 0
  | .io _ => 0
  | .protocol .crcMismatch => 0
  | .protocol .slaveMismatch => 0
  | .protocol .functionMismatch => 0
  | .protocol .truncated => 0
  | .block _ => 0

/-- STATUS.BUSY = 1 exactly when `phase` is not IDLE (R27, R44). -/
def busy (s : State) : Bool := s.phase != .idle

/-- One bit of a register. -/
def flagBit (b : Bool) : BitVec 1 := BitVec.ofBool b

/-- The word a read of STATUS returns (R26): EXC_CODE 31:24, LAST_OP 23:16, CODE 15:12, CLASS 9:8, REJECT 3, OPEN 2,
DONE 1, BUSY 0, the reserved bits 0. -/
def statusWord (s : State) : Word :=
  s.status.excCode ++ s.status.lastOp ++ s.status.code ++ 0#2 ++ s.status.cls ++ 0#4 ++ flagBit s.status.reject ++
    flagBit s.port.isOpen ++ flagBit s.status.done ++ flagBit (busy s)

/-- The class and code pairs of R31's table. -/
def legalPair (cls : BitVec 2) (code : BitVec 4) : Bool :=
  (cls == 0 && code == 0) || (cls == 1 && decide (1 ≤ code.toNat) && decide (code.toNat ≤ 5)) ||
    (cls == 2 && decide (1 ≤ code.toNat) && decide (code.toNat ≤ 5)) ||
    (cls == 3 && decide (1 ≤ code.toNat) && decide (code.toNat ≤ 2))

end Sys2Proof.Machine
end

