-- ==== Sys2Proof/Machine/Ops.lean ====
section
/-! DEFINITION. The named operations over the buffers and the registers: reading and writing cells, acceptance
(spec/10_state.md R47), completion with OK or with an error (R48, spec/60_exceptions.md R232), and reset
(spec/70_reset_and_hazards.md R260 to R262). -/

namespace Sys2Proof.Machine

/-! The buffers (R41 to R43, R50). -/

/-- The canonical form: offsets strictly rising. (An unlisted offset holds no value, so no entry can equal it.) -/
abbrev Memory.wf (m : Memory) : Prop := m.Pairwise (fun a b => a.1 < b.1)

/-- One byte of the buffers; none where it has not been written since reset (R50). -/
def Memory.read : Memory → Nat → Option Byte
  | [], _ => none
  | (k, v) :: m, a => if a = k then some v else Memory.read m a

/-- Write one byte, which sets its written bit (R50). -/
def Memory.write : Memory → Nat → Byte → Memory
  | [], a, v => [(a, v)]
  | (k, x) :: m, a, v =>
    if a < k then (a, v) :: (k, x) :: m
    else if a = k then (a, v) :: m
    else (k, x) :: Memory.write m a v

/-- Write bytes into the byte cells from address `a` on, one cell every 4 offsets (R41, R42). -/
def Memory.writeCells : Memory → Nat → List Byte → Memory
  | m, _, [] => m
  | m, a, b :: bs => Memory.writeCells (Memory.write m a b) (a + 4) bs

/-- Write a u16 into the RESULT cell at address `a` (R43). -/
def Memory.writeHalf (m : Memory) (a : Nat) (h : Half) : Memory :=
  Memory.write (Memory.write m a (loByte h)) (a + 1) (hiByte h)

/-- Write u16 values into the RESULT cells from address `a` on (R43, R157). -/
def Memory.writeHalves : Memory → Nat → List Half → Memory
  | m, _, [] => m
  | m, a, h :: hs => Memory.writeHalves (Memory.writeHalf m a h) (a + 4) hs

/-- Read `n` byte cells from address `a` on, each none where unwritten. -/
def Memory.readCells (m : Memory) (a : Nat) : Nat → List (Option Byte)
  | 0 => []
  | n + 1 => Memory.read m a :: Memory.readCells m (a + 4) n

/-- Read the RESULT cell at address `a` (R43). -/
def Memory.readHalf (m : Memory) (a : Nat) : Option Half :=
  match Memory.read m a, Memory.read m (a + 1) with
  | some lo, some hi => some (joinBytes hi lo)
  | _, _ => none

/-- Every cell's byte, if all have been written. -/
def allWritten : List (Option Byte) → Option (List Byte)
  | [] => some []
  | some b :: rest =>
    match allWritten rest with
    | some bs => some (b :: bs)
    | none => none
  | none :: _ => none

/-- The address of the first cell without a value. -/
def firstUnwritten : List (Option Byte) → Nat → Nat
  | [], a => a
  | none :: _, a => a
  | some _ :: rest, a => firstUnwritten rest (a + 4)

/-- TXBUF[0..] <- the bytes (R154). -/
def storeTx (bs : List Byte) (s : State) : State := { s with mem := Memory.writeCells s.mem (txAddr 0) bs }

/-- RXBUF[n] <- b (R116). -/
def storeRx (n : Nat) (b : Byte) (s : State) : State := { s with mem := Memory.write s.mem (rxAddr n) b }

/-- RESULT[0..] <- the values (R157). -/
def storeResult (vs : List Half) (s : State) : State := { s with mem := Memory.writeHalves s.mem (resAddr 0) vs }

/-! Acceptance and completion. -/

/-- Enter a phase now. -/
def enterPhase (p : Phase) (s : State) : State := { s with phase := p, phaseAt := s.now }

/-- Acceptance of the command word `v`, entering its first phase (R47). -/
def accept (v : Word) (first : Phase) (s : State) : State :=
  enterPhase first
    { s with
      latch := latchArgs v s
      status := { s.status with done := false, cls := 0, code := 0, excCode := 0, lastOp := wordOpcode v } }

/-- Completion: `complete OK`, or `raise E`, which stands in for taking an exception (R48, R232, R237). The result registers
the command writes are written on the state it is applied to. -/
def complete (r : Result) (s : State) : State :=
  { s with
    status := { s.status with done := true, cls := resultClass r, code := resultCode r, excCode := resultExc r }
    phase := .idle }

/-- STATUS.REJECT <- 1: a host write is discarded (R30). -/
def setReject (s : State) : State := { s with status := { s.status with reject := true } }

/-- The steps of a command that uses no wire (R44): acceptance into EXEC, and in EXEC its body. R44 gives it no
transition from the other phases, which it never has. -/
def plainCommand (w : Word) (body : State → Host.Outcome State Fault Refusal) (s : State) :
    Host.Outcome State Fault Refusal :=
  match s.phase with
  | .idle => .next (accept w .exec s)
  | .exec => body s
  | .txGap => .next s
  | .tx => .next s
  | .rxWait => .next s
  | .rxFrame => .next s
  | .decode => .next s

end Sys2Proof.Machine
end

