-- ==== Sys2Proof/Machine/Timing.lean ====
section
/-! DEFINITION. The time base of the wire (spec/40_transport.md R110 to R112), the UART character (spec/20_memory.md R78),
the schedule of the transmit engine (R113, R114) and the receive timeout arbiter (R115 to R117). The arbiter and the transmit
engine are also given whole, as R114 and R116 write them, for the statements that relate the machine's steps to them. -/

namespace Sys2Proof.Machine

/-- The exact-time model is in force (R9, R119). -/
def isTimed (s : State) : Bool := s.params.timing == .timed

/-- The bits of one character: start bit, data bits, optional parity bit, stop bits (R111). -/
def charLength (r : Regs) : Nat :=
  1 + (dataBits r).toNat + (if parity r = 0 then 0 else 1) + (stopBits r).toNat

/-- The char time `Tc` (R111). -/
def charTime (s : State) : Time := (charLength s.regs : Time) / (s.regs.cfgBaud.toNat : Time)

/-- The end-of-frame silence `T_EOF` (R112). -/
def eofTime (s : State) : Time := s.params.eofChars * charTime s

/-- The number of 1s among the data bits of a byte. -/
def onesIn (b : Byte) : Nat := ((List.range 8).filter (fun i => b.getLsbD i)).length

/-- The parity bit: odd parity makes the number of 1s odd, even parity makes it even (R78). -/
def parityBits (p : BitVec 2) (b : Byte) : List Bool :=
  if p = 0 then [] else if p = 1 then [onesIn b % 2 == 0] else [onesIn b % 2 == 1]

/-- The levels of one character on the line: the start bit (0), the data bits least significant first, the parity bit,
the stop bits (1) (R78). -/
def charBits (r : Regs) (b : Byte) : List Bool :=
  false :: (List.range 8).map (fun i => b.getLsbD i) ++ parityBits (parity r) b ++ List.replicate (stopBits r).toNat true

/-! The transmit schedule. -/

/-- The first start bit: `max(t_g, t_last + T_EOF)`, with `t_g = L.T0` (R113). -/
def txStart (s : State) : Time := max s.latch.t0 (s.port.tLast + eofTime s)

/-- `s_k`: the start of the character now being sent (R114). In TX, `phaseAt` is `t_start`. The untimed model has no character
times, and a character is sent at the instant of its step (R119). -/
def txCharStart (s : State) : Time := if isTimed s then s.phaseAt + (s.port.txK : Time) * charTime s else s.now

/-- `e_k`: its end. -/
def txCharEnd (s : State) : Time := if isTimed s then txCharStart s + charTime s else s.now

/-- The character is started only if it can end by the deadline (R114). -/
def txInTime (s : State) : Bool := decide (txCharEnd s ≤ s.port.deadline)

/-- When the TX engine's next step happens, the line holding. -/
def txDue (s : State) : Time := if txInTime s then txCharEnd s else s.port.deadline

/-- How a TX phase ends (R114). -/
inductive TxOutcome where
  | ok | writeTimeout | writeFailed
  deriving DecidableEq, Repr

/-- The transmit engine of R114 whole, the line holding: how it ends, how many bytes have been sent, and when. -/
def txEngine (tStart tc deadline : Time) (n : Nat) : Nat → Nat → TxOutcome × Nat × Time
  | 0, k => (.ok, k, tStart + (k : Time) * tc)
  | fuel + 1, k =>
    if n ≤ k then (.ok, k, tStart + (k : Time) * tc)
    else if tStart + (k : Time) * tc + tc > deadline then (.writeTimeout, k, deadline)
    else txEngine tStart tc deadline n fuel (k + 1)

/-! The receive timeout arbiter. -/

/-- How an RX phase ends (R116). -/
inductive RxOutcome where
  | complete | timeout | failed
  deriving DecidableEq, Repr

/-- The error flag `ε` of a character: a framing error, or a parity error when PARITY is not None (R116). -/
def charErr (r : Regs) (c : LineChar) : Bool := c.framingErr || (c.parityErr && parity r != 0)

/-- What the arbiter does next, and when. -/
inductive RxPlan where
  | finish (o : RxOutcome) (t : Time)
  | charFail (t : Time)
  | store (c : LineChar) (t : Time)
  deriving DecidableEq, Repr

/-- One round of R116's loop, the line holding: `n` characters stored, the last of them ended at `tLast`, and `c` the next
character the line delivers. -/
def rxRound (r : Regs) (tc tEof deadline : Time) (n : Nat) (tLast : Time) (c : Option LineChar) : RxPlan :=
  let silent : Bool :=
    match c with
    | none => true
    | some c => decide (tLast + tEof ≤ c.start)
  if 1 ≤ n ∧ silent = true then
    if tLast + tEof ≤ deadline then .finish .complete (tLast + tEof) else .finish .timeout deadline
  else
    match c with
    | none => .finish .timeout deadline
    | some c =>
      if deadline ≤ c.start then .finish .timeout deadline
      else if deadline < c.start + tc then .finish .timeout deadline
      else if charErr r c then .charFail (c.start + tc)
      else .store c (c.start + tc)

/-- The arbiter's next act from a state in the RX phase. -/
def rxPlan (s : State) : RxPlan :=
  rxRound s.regs (charTime s) (eofTime s) s.port.deadline s.port.rxN s.port.tLast s.line.chars.head?

/-- When that act happens. -/
def RxPlan.time : RxPlan → Time
  | .finish _ t => t
  | .charFail t => t
  | .store _ t => t

/-- The arbiter of R116 whole, the line holding: its outcome, the bytes stored, and the time of the outcome. -/
def arbiter (r : Regs) (tc tEof deadline : Time) (m : Nat) :
    List LineChar → Nat → Time → RxOutcome × List Byte × Time
  | [], n, tLast =>
    if 1 ≤ n then
      if tLast + tEof ≤ deadline then (.complete, [], tLast + tEof) else (.timeout, [], deadline)
    else (.timeout, [], deadline)
  | c :: cs, n, tLast =>
    if 1 ≤ n ∧ tLast + tEof ≤ c.start then
      if tLast + tEof ≤ deadline then (.complete, [], tLast + tEof) else (.timeout, [], deadline)
    else if deadline ≤ c.start then (.timeout, [], deadline)
    else if deadline < c.start + tc then (.timeout, [], deadline)
    else if charErr r c then (.failed, [], c.start + tc)
    else if n + 1 = m then (.complete, [c.byte], c.start + tc)
    else
      match arbiter r tc tEof deadline m cs (n + 1) (c.start + tc) with
      | (o, bs, t) => (o, c.byte :: bs, t)

/-- What the line may deliver: each character starts no earlier than the one before it ends (R116). -/
def lineAllowed (tc : Time) : List LineChar → Prop
  | [] => True
  | [_] => True
  | c :: d :: cs => c.start + tc ≤ d.start ∧ lineAllowed tc (d :: cs)

/-! When the sequencer's next step is due. -/

/-- The phases that use the wire. -/
def wirePhase : Phase → Bool
  | .idle => false
  | .exec => false
  | .txGap => true
  | .tx => true
  | .rxWait => true
  | .rxFrame => true
  | .decode => false

/-- A line failure: `line_present` is 0 in a wire phase (R114, R116). It is due at once. -/
def lineFailed (s : State) : Bool := isTimed s && wirePhase s.phase && !s.line.present

/-- The end of the current phase, or of the character in progress, in exact time (R113 to R116, R272). -/
def phaseDue (s : State) : Time :=
  match s.phase with
  | .idle => s.now
  | .exec => s.latch.t0 + s.params.cmdLatency
  | .txGap => txStart s
  | .tx => txDue s
  | .rxWait => (rxPlan s).time
  | .rxFrame => (rxPlan s).time
  | .decode => s.phaseAt + s.params.cmdLatency

/-- When the sequencer's next step is due; none when it is idle. In the untimed model every step may happen now (R119). -/
def dueAt (s : State) : Option Time :=
  if busy s = false then none
  else if isTimed s = false || lineFailed s then some s.now
  else some (max s.now (phaseDue s))

end Sys2Proof.Machine
end

