-- ==== Sys2Proof/Machine/Uart.lean ====
section
/-! DEFINITION. The UART: entering the wire phases and one step of the transmit engine and of the receive timeout arbiter
(spec/40_transport.md R113 to R119), and reset, which cuts a transmission off (spec/70_reset_and_hazards.md R260 to
R262). -/

namespace Sys2Proof.Machine

/-- End of TX_GAP: TX starts, with its deadline (R113, R114). -/
def enterTx (s : State) : State :=
  enterPhase .tx { s with port := { s.port with txK := 0, deadline := s.now + msTime s.regs.cfgWtoMs } }

/-- The RX phase starts at `now`: the receiver is enabled, and a character whose start bit fell before is not received
(R115, R116, R118). -/
def enterRx (s : State) : State :=
  enterPhase .rxWait
    { s with
      port := { s.port with rxN := 0, deadline := s.now + msTime s.regs.cfgRtoMs }
      line := { s.line with chars := s.line.chars.filter (fun c => decide (s.now ≤ c.start)) } }

/-- The character on the wire over [start, stop]. -/
def wireChar (s : State) (b : Byte) (start stop : Time) (whole : Bool) : TxChar :=
  { byte := b, bits := charBits s.regs b, start := start, stop := stop, whole := whole }

/-- `Tx(b)`: the byte occupies the line over [start, stop] (R114). -/
def putWire (c : TxChar) (s : State) : State := { s with seen := { s.seen with wire := s.seen.wire ++ [c] } }

/-- The whole character `b` has been sent: `t_last <- e_k` (R114). -/
def sendChar (b : Byte) (s : State) : State :=
  putWire (wireChar s b (txCharStart s) (txCharEnd s) true)
    { s with port := { s.port with tLast := txCharEnd s, txK := s.port.txK + 1 } }

/-- Untimed: how the line ends this TX phase (R119). A script that has run out sends everything (notes/assumptions/9.md). -/
def txEnding (s : State) : TxOutcome :=
  match s.line.txChoices.head? with
  | some (.timeout _) => .writeTimeout
  | some (.failed _ _) => .writeFailed
  | some .ok => .ok
  | none => .ok

/-- Untimed: how many bytes this TX phase sends. One that fails sends fewer than all (R119). -/
def txLimit (s : State) : Nat :=
  match s.line.txChoices.head? with
  | some (.timeout k) => min k (txTotal s.latch - 1)
  | some (.failed k _) => min k (txTotal s.latch - 1)
  | some .ok => txTotal s.latch
  | none => txTotal s.latch

/-- Untimed: the line says that a character is in progress when this TX phase is broken off. -/
def txChosenCut (s : State) : Bool :=
  match s.line.txChoices.head? with
  | some (.failed _ cut) => cut
  | some (.timeout _) => false
  | some .ok => false
  | none => false

/-- A character is on the line now: it may be started at all, and its start bit has fallen (R114). -/
def charInProgress (s : State) : Bool :=
  if isTimed s then txInTime s && decide (txCharStart s < s.now) else txChosenCut s

/-- The transmission stops now: a character already started is cut off on the wire (R114, R262). A cell it takes that was
never written is used all the same (R50). -/
def cutOff (s : State) : Except Fault State :=
  if charInProgress s then
    match Memory.read s.mem (txAddr s.port.txK) with
    | some b => .ok (putWire (wireChar s b (txCharStart s) s.now false) s)
    | none => .error (.unwrittenCell (txAddr s.port.txK))
  else .ok s

/-- One more character is sent; after the last one the phase is over (R114). -/
def sendNext (s : State) : Except Fault (Option TxOutcome × State) :=
  match Memory.read s.mem (txAddr s.port.txK) with
  | some b => .ok (if txTotal s.latch ≤ s.port.txK + 1 then some .ok else none, sendChar b s)
  | none => .error (.unwrittenCell (txAddr s.port.txK))

/-- Untimed: the line's choice for this TX phase has been used up. -/
def popTxChoice (s : State) : State := { s with line := { s.line with txChoices := s.line.txChoices.tail } }

/-- Untimed: one step of a TX phase that goes as the line has chosen (R119): one more character, or the end. -/
def txChosen (s : State) : Except Fault (Option TxOutcome × State) :=
  (if s.port.txK < txLimit s then sendNext s else (cutOff s).map fun t => (some (txEnding s), t)).map fun r =>
    (r.1, if r.1 = none then r.2 else popTxChoice r.2)

/-- One step of the TX engine, at the instant it is due: the line has failed, the write deadline has come, or one more
character has been sent. It answers how the phase ended, or none if it goes on (R114). -/
def txStep (s : State) : Except Fault (Option TxOutcome × State) :=
  if isTimed s = false then txChosen s
  else if s.line.present = false then (cutOff s).map (fun t => (some .writeFailed, t))
  else if txInTime s = false then .ok (some .writeTimeout, s)
  else sendNext s

/-- A byte is stored at `stop`, the end of its character (R116). -/
def recvByte (b : Byte) (stop : Time) (s : State) : State :=
  { storeRx s.port.rxN b s with
    port := { s.port with rxN := s.port.rxN + 1, tLast := stop }
    phase := .rxFrame }

/-- The character `c` is stored at its end (R116). -/
def recvChar (c : LineChar) (s : State) : State :=
  recvByte c.byte (c.start + charTime s) { s with line := { s.line with chars := s.line.chars.tail } }

/-- Untimed: how the line ends this RX phase. COMPLETE has at least one byte (R119): an empty COMPLETE, like a script that has
run out, is a silent line (notes/assumptions/9.md). -/
def rxEnding (s : State) : RxOutcome :=
  match s.line.rxChoices.head? with
  | some (.complete []) => .timeout
  | some (.complete (_ :: _)) => .complete
  | some (.timeout _) => .timeout
  | some (.failed _) => .failed
  | none => .timeout

/-- Untimed: the bytes this RX phase stores. COMPLETE has at most M bytes and the others at most M-1 (R119): longer choices are
cut. -/
def rxChosenBytes (s : State) : List Byte :=
  match s.line.rxChoices.head? with
  | some (.complete bs) => bs.take (rxMax s.latch)
  | some (.timeout bs) => bs.take (rxMax s.latch - 1)
  | some (.failed bs) => bs.take (rxMax s.latch - 1)
  | none => []

/-- Untimed: the line's choice for this RX phase has been used up. -/
def popRxChoice (s : State) : State := { s with line := { s.line with rxChoices := s.line.rxChoices.tail } }

/-- Untimed: one step of an RX phase that goes as the line has chosen (R119): one more byte, in arrival order (R86), or the
end. -/
def rxChosen (s : State) : Option RxOutcome × State :=
  match (rxChosenBytes s)[s.port.rxN]? with
  | some b =>
    if s.port.rxN + 1 = rxMax s.latch then (some .complete, popRxChoice (recvByte b s.now s))
    else (none, recvByte b s.now s)
  | none => (some (rxEnding s), popRxChoice s)

/-- One step of the receive arbiter, at the instant it is due (R116, R117). -/
def rxStep (s : State) : Option RxOutcome × State :=
  if isTimed s = false then rxChosen s
  else if s.line.present = false then (some .failed, s)
  else
    match rxPlan s with
    | .finish o _ => (some o, s)
    | .charFail _ => (some .failed, { s with line := { s.line with chars := s.line.chars.tail } })
    | .store c _ => (if s.port.rxN + 1 = rxMax s.latch then some .complete else none, recvChar c s)

/-- The level the TX output drives now: the character in progress in TX, otherwise the idle (stop-bit) level (R121, R261).
A character that cannot end by the deadline is never started (R114). None where the character's cell was never written
(R50), and in TX of the untimed model, which has no bit times (R119). -/
def txOutput (s : State) : Option Bool :=
  if s.phase = .tx ∧ isTimed s = false then none
  else if s.phase = .tx ∧ txInTime s = true then
    (Memory.read s.mem (txAddr s.port.txK)).map fun b =>
      (charBits s.regs b).getD ((s.now - txCharStart s) * (s.regs.cfgBaud.toNat : Time)).floor.toNat true
  else some true

/-- The UART receiver is enabled only in RX_WAIT and RX_FRAME (R118). -/
def receiverEnabled (s : State) : Bool := s.phase == .rxWait || s.phase == .rxFrame

/-! Reset. -/

/-- A reset in TX cuts the character in progress off on the wire (R262). A cell it takes that was never written is used all the
same (R50). -/
def cutAtReset (s : State) : Except Fault State := if s.phase = .tx then cutOff s else .ok s

/-- The line's choice for the phase that a reset breaks off is used up with it. -/
def abandonChoice (s : State) : State :=
  if isTimed s then s
  else
    match s.phase with
    | .tx => popTxChoice s
    | .rxWait => popRxChoice s
    | .rxFrame => popRxChoice s
    | .idle => s
    | .exec => s
    | .txGap => s
    | .decode => s

/-- An input change `d` seconds earlier. -/
def InputChange.rebase (d : Time) (c : InputChange) : InputChange := { c with time := c.time - d }

/-- Every piece of state takes its value of R261 (R260). The environment is not reset; since `now` restarts at 0, the instants it
is written in are moved with it (notes/assumptions/8.md). -/
def resetState (s : State) : State :=
  { State.reset with
    rst := true
    params := s.params
    draws := s.draws
    resets := s.resets.map (InputChange.rebase s.now)
    line :=
      { s.line with
        changes := s.line.changes.map (InputChange.rebase s.now)
        chars := s.line.chars.map (fun c => { c with start := c.start - s.now }) }
    env := s.env.map (fun e => { e with time := e.time - s.now })
    seen :=
      { wire := s.seen.wire.map (fun c => { c with start := c.start - s.now, stop := c.stop - s.now })
        reads := s.seen.reads } }

/-- `rst` is asserted: a command in progress is abandoned without a completion (R260, R262). -/
def assertReset (s : State) : Host.Outcome State Fault Refusal :=
  match cutAtReset s with
  | .ok t => .next (resetState (abandonChoice t))
  | .error f => .fault f

/-- The `rst` input takes a level (R260). -/
def resetStep (level : Bool) (s : State) : Host.Outcome State Fault Refusal :=
  if level then assertReset s else .next { s with rst := false }

end Sys2Proof.Machine
end

