-- ==== Sys2Proof/Machine/Codec.lean ====
section
/-! DEFINITION. The frame codec: CRC_INIT, CRC_UPDATE, ENCODE_RIR and DECODE_RESP (spec/41_codec.md R152 to R157), the
decode function they share with READ_INPUT_REGS, and BADCMD (spec/30_encoding.md R93). -/

namespace Sys2Proof.Machine

/-! The decode function (R155). -/

/-- What a decode leaves: DIAG_CRC's recv and calc if it reached D3 (R156), and its result. -/
structure DecodeOut where
  diag : Option (Half × Half)
  res : Except FrameError (List Half)
  deriving Repr

/-- `recv`, the CRC a frame carries in its last two bytes, low byte first (R155 D3). -/
def recvCrc (b : List Byte) : Half := joinBytes (b.getD (b.length - 1) 0) (b.getD (b.length - 2) 0)

/-- `calc`, the CRC of all bytes but the last two (R155 D3). -/
def calcCrc (b : List Byte) : Half := crc16 (b.take (b.length - 2))

/-- The values of D8: `v[i] = b[3+2*i] || b[4+2*i]` for i from 0 to n-1 (R155). -/
def respRegs (b : List Byte) (n : Nat) : List Half :=
  (List.range n).map fun i => joinBytes (b.getD (3 + 2 * i) 0) (b.getD (4 + 2 * i) 0)

/-- Steps D4 to D8, once the CRC is right (R155). -/
def checkFrame (b : List Byte) (eS eF : Byte) (eC : Half) : Except FrameError (List Half) :=
  if b.getD 0 0 ≠ eS then .error .slaveMismatch
  else if b.getD 1 0 = (eF ||| 0x80) then .error (.exceptionResponse (b.getD 2 0))
  else if b.getD 1 0 ≠ eF then .error .functionMismatch
  else if (b.getD 2 0).toNat ≠ 2 * eC.toNat ∨ b.length ≠ 5 + 2 * eC.toNat then .error .truncated
  else .ok (respRegs b eC.toNat)

/-- Steps D3 to D8 (R155, R156). -/
def checkCrc (b : List Byte) (eS eF : Byte) (eC : Half) : DecodeOut :=
  { diag := some (recvCrc b, calcCrc b)
    res := if calcCrc b ≠ recvCrc b then .error .crcMismatch else checkFrame b eS eF eC }

/-- `Decode` (R155) on the cells of a frame. D1 uses no cell, D2 uses byte 1, and the steps from D3 on use all of them; none
where a cell the decode uses was never written (R50, notes/assumptions/7.md). -/
def decodeCells (b : List (Option Byte)) (eS eF : Byte) (eC : Half) : Option DecodeOut :=
  if b.length < 5 then some { diag := none, res := .error .truncated }
  else
    match b.getD 1 none with
    | none => none
    | some b1 =>
      if b1.getLsbD 7 = false ∧ b.length < 5 + 2 * eC.toNat then some { diag := none, res := .error .truncated }
      else
        match allWritten b with
        | some bs => some (checkCrc bs eS eF eC)
        | none => none

/-- R(DIAG_CRC) <- recv || calc, when the decode reached D3 (R156). -/
def writeDiag (d : Option (Half × Half)) (s : State) : State :=
  match d with
  | some (recv, comp) => { s with regs := { s.regs with diagRecv := recv, diagCalc := comp } }
  | none => s

/-- R(RESULT_COUNT) <- n (R157). -/
def writeResultCount (n : Nat) (s : State) : State :=
  { s with regs := { s.regs with resultCount := BitVec.ofNat 8 n } }

/-- The results of a decode (R156, R157), and the command's completion. -/
def finishDecode (out : DecodeOut) (s : State) : State :=
  match out.res with
  | .ok vs => complete .ok (writeResultCount vs.length (storeResult vs (writeDiag out.diag s)))
  | .error e => complete (.protocol e) (writeResultCount 0 (writeDiag out.diag s))

/-- Decode the cells `b` as a response to the latched request and complete (R155, R157). -/
def decodeAndFinish (b : List (Option Byte)) (eF : Byte) (s : State) : Host.Outcome State Fault Refusal :=
  match decodeCells b s.latch.slave eF s.latch.count with
  | some out => .next (finishDecode out s)
  | none => .fault (.unwrittenCell (firstUnwritten b (rxAddr 0)))

/-! The commands. -/

/-- CRC_INIT (R152): R(CRC_ACC) <- 0xFFFF. -/
def execCrcInit (s : State) : Host.Outcome State Fault Refusal :=
  plainCommand (opcodeWord 0x0A)
    (fun s => .next (complete .ok { s with regs := { s.regs with crcAcc := 0xFFFF } })) s

/-- CRC_UPDATE (R153): R(CRC_ACC) <- crcStep(R(CRC_ACC)[15:0], L.RAW[7:0]). -/
def execCrcUpdate (s : State) : Host.Outcome State Fault Refusal :=
  plainCommand (opcodeWord 0x0B)
    (fun s => .next (complete .ok { s with regs := { s.regs with crcAcc := crcStep s.regs.crcAcc (crcOperand s.latch) } })) s

/-- The request frame for the latched arguments, with its CRC from the private generator (R95, R154). -/
def requestFrame (l : Latch) : List Byte :=
  requestBytes l.slave l.start l.count (crc16 (requestBody l.slave l.start l.count))

/-- ENCODE_RIR (R154): TXBUF[0..7] <- the request frame. -/
def execEncodeRir (s : State) : Host.Outcome State Fault Refusal :=
  plainCommand (opcodeWord 0x05) (fun s => .next (complete .ok (storeTx (requestFrame s.latch) s))) s

/-- DECODE_RESP (R155): BADARG when LEN > 256, otherwise decode RXBUF[0..LEN-1]. -/
def execDecodeResp (s : State) : Host.Outcome State Fault Refusal :=
  plainCommand (opcodeWord 0x06)
    (fun s =>
      if lenTooBig s.latch then .next (complete (.block .badArg) s)
      else decodeAndFinish (Memory.readCells s.mem (rxAddr 0) s.latch.len.toNat) s.latch.func s) s

/-- An illegal command word (R93): accepted like any other, then BADCMD, and nothing else. -/
def execBadCmd (w : Word) (s : State) : Host.Outcome State Fault Refusal :=
  plainCommand w (fun s => .next (complete (.block .badCmd) s)) s

end Sys2Proof.Machine
end

