-- ==== Sys2Proof/Machine/Transport.lean ====
section
/-! DEFINITION. The serial transport's commands: OPEN, CLOSE, WRITE_BYTES and READ_BYTES (spec/40_transport.md R120 to
R123). -/

namespace Sys2Proof.Machine

/-- OPEN (R120): already open, then no line, then an unsupported configuration, each OpenFailed; otherwise the transport
opens and `t_last` is the completion time. -/
def execOpen (s : State) : Host.Outcome State Fault Refusal :=
  plainCommand (opcodeWord 0x01)
    (fun s =>
      if s.port.isOpen then .next (complete (.io .openFailed) s)
      else if s.line.present = false then .next (complete (.io .openFailed) s)
      else if configLegal s.params s.regs = false then .next (complete (.io .openFailed) s)
      else .next (complete .ok { s with port := { s.port with isOpen := true, tLast := s.now } })) s

/-- CLOSE (R121). -/
def execClose (s : State) : Host.Outcome State Fault Refusal :=
  plainCommand (opcodeWord 0x02)
    (fun s => .next (complete .ok { s with port := { s.port with isOpen := false } })) s

/-- How WRITE_BYTES ends without using the wire, if it does (R122). -/
def writeAtOnce (s : State) : Option Result :=
  if lenTooBig s.latch then some (.block .badArg)
  else if s.port.isOpen = false then some (.io .writeFailed)
  else if s.latch.len = 0 then some .ok
  else none

/-- What a TX outcome means for a command that only sends (R122). -/
def txResult : TxOutcome → Result
  | .ok => .ok
  | .writeTimeout => .io .writeTimeout
  | .writeFailed => .io .writeFailed

/-- The end of TX_GAP: the line has failed, or TX starts (R113, R114). -/
def gapStep (s : State) : State := if lineFailed s then complete (.io .writeFailed) s else enterTx s

/-- WRITE_BYTES (R122), one step of it: acceptance; the end of a command that its checks end at once; the end of the gap;
one character, or the end of TX. -/
def execWriteBytes (s : State) : Host.Outcome State Fault Refusal :=
  match s.phase with
  | .idle =>
    let s1 := accept (opcodeWord 0x03) .exec s
    .next (if writeAtOnce s1 = none then enterPhase .txGap s1 else s1)
  | .exec =>
    match writeAtOnce s with
    | some r => .next (complete r s)
    | none => .next s
  | .txGap => .next (gapStep s)
  | .tx =>
    match txStep s with
    | .ok (some o, t) => .next (complete (txResult o) t)
    | .ok (none, t) => .next t
    | .error f => .fault f
  | .rxWait => .next s
  | .rxFrame => .next s
  | .decode => .next s

/-- How READ_BYTES ends without using the wire, if it does (R123). -/
def readAtOnce (s : State) : Option Result :=
  if lenTooBig s.latch then some (.block .badArg)
  else if s.port.isOpen = false then some (.io .readFailed)
  else if s.latch.len = 0 then some .ok
  else none

/-- What an RX outcome means for READ_BYTES (R123). -/
def rxResult : RxOutcome → Result
  | .complete => .ok
  | .timeout => .io .readTimeout
  | .failed => .io .readFailed

/-- R(RXLEN) <- n (R116). -/
def writeRxLen (n : Nat) (s : State) : State := { s with regs := { s.regs with rxLen := BitVec.ofNat 9 n } }

/-- READ_BYTES (R123), one step of it: acceptance; the end of a command that its checks end at once; one character, or the
end of the RX phase. -/
def execReadBytes (s : State) : Host.Outcome State Fault Refusal :=
  match s.phase with
  | .idle =>
    let s1 := accept (opcodeWord 0x04) .exec s
    .next (if readAtOnce s1 = none then enterRx s1 else s1)
  | .exec =>
    match readAtOnce s with
    | some .ok => .next (complete .ok (writeRxLen 0 s))
    | some r => .next (complete r s)
    | none => .next s
  | .txGap => .next s
  | .tx => .next s
  | .rxWait =>
    match rxStep s with
    | (some o, t) => .next (complete (rxResult o) (writeRxLen t.port.rxN t))
    | (none, t) => .next t
  | .rxFrame =>
    match rxStep s with
    | (some o, t) => .next (complete (rxResult o) (writeRxLen t.port.rxN t))
    | (none, t) => .next t
  | .decode => .next s

end Sys2Proof.Machine
end

