-- ==== Sys2Proof/Machine/Engine.lean ====
section
/-! DEFINITION. The transaction engine: READ_INPUT_REGS (spec/42_engine.md R190 to R195). -/

namespace Sys2Proof.Machine

/-- How READ_INPUT_REGS ends without using the wire, if it does (R190, R191). -/
def rirAtOnce (s : State) : Option Result :=
  if rirBadArg s.latch then some (.block .badArg)
  else if s.port.isOpen = false then some (.io .writeFailed)
  else none

/-- Acceptance: refused arguments change nothing else (R191); otherwise step 1 encodes the request into TXBUF, which a
closed transport does not undo, and the gap begins (R190). -/
def rirAccept (s : State) : State :=
  let s1 := accept (opcodeWord 0x07) .exec s
  if rirBadArg s1.latch then s1
  else
    let s2 := storeTx (requestFrame s1.latch) s1
    if s2.port.isOpen = false then s2 else enterPhase .txGap s2

/-- The DECODE step on the cells `b`: R(RXLEN) is written, and the decode function gives the result (R190 step 4, R116). -/
def rirDecode (b : List (Option Byte)) (s : State) : Host.Outcome State Fault Refusal :=
  decodeAndFinish b 0x04 (writeRxLen s.port.rxN s)

/-- After one step of the receive arbiter: a complete frame goes to DECODE, a failure ends the command (R190 steps 3 and
4). -/
def rirReceived (s : State) : State :=
  match rxStep s with
  | (some .complete, t) => enterPhase .decode t
  | (some .timeout, t) => complete (.io .readTimeout) (writeRxLen t.port.rxN t)
  | (some .failed, t) => complete (.io .readFailed) (writeRxLen t.port.rxN t)
  | (none, t) => t

/-- READ_INPUT_REGS (R190), one step of it. -/
def execReadInputRegs (s : State) : Host.Outcome State Fault Refusal :=
  match s.phase with
  | .idle => .next (rirAccept s)
  | .exec =>
    match rirAtOnce s with
    | some r => .next (complete r s)
    | none => .next s
  | .txGap => .next (gapStep s)
  | .tx =>
    match txStep s with
    | .ok (some .ok, t) => .next (enterRx t)
    | .ok (some .writeTimeout, t) => .next (complete (.io .writeTimeout) t)
    | .ok (some .writeFailed, t) => .next (complete (.io .writeFailed) t)
    | .ok (none, t) => .next t
    | .error f => .fault f
  | .rxWait => .next (rirReceived s)
  | .rxFrame => .next (rirReceived s)
  | .decode => rirDecode (Memory.readCells s.mem (rxAddr 0) s.port.rxN) s

end Sys2Proof.Machine
end

