-- ==== Sys2Proof/Machine/Frames.lean ====
section
/-! DEFINITION. The wire frames as instructions (spec/30_encoding.md R95 to R99). The transport never parses bytes (R98):
a frame as such has an effect in two places only. The encoder lays a request in TXBUF (spec/41_codec.md R154,
spec/42_engine.md R190 step 1). The decoder judges the frame it has been given (R155), in DECODE for READ_INPUT_REGS and in
EXEC for DECODE_RESP (spec/60_exceptions.md R235). -/

namespace Sys2Proof.Machine

/-- The block is decoding a frame now, as READ_INPUT_REGS or as DECODE_RESP (R235). -/
def decoding (s : State) : Bool :=
  (s.phase == .decode && isRir s.latch) ||
    (s.phase == .exec && s.latch.op == opcodeWord 0x06 && !lenTooBig s.latch)

/-- The decoder is given the frame `b` (R155). For READ_INPUT_REGS the expected function is 0x04, for DECODE_RESP it is
L.FUNC. Outside a decode no unit of the block looks at a received frame as such, and nothing changes (R98, R118). -/
def frameReceived (b : List Byte) (s : State) : Host.Outcome State Fault Refusal :=
  if decoding s then
    if s.phase = .decode then rirDecode (b.map some) s else decodeAndFinish (b.map some) s.latch.func s
  else .next s

/-- The request frame (R95). The encode step lays it in TXBUF[0..7], from where it is sent in index order (R86, R154,
R190). A frame of this form that reaches the decoder is judged like any other (R155). -/
def execRtuReqReadInputRegs (slave : Byte) (start count crc : Half) (s : State) : Host.Outcome State Fault Refusal :=
  if decoding s then frameReceived (requestBytes slave start count crc) s
  else .next (storeTx (requestBytes slave start count crc) s)

/-- The normal response frame (R96), at the decoder (R155). -/
def execRtuRspNormal (slave byteCount : Byte) (regs : List Half) (crc : Half) (s : State) :
    Host.Outcome State Fault Refusal :=
  frameReceived (normalBytes slave byteCount regs crc) s

/-- The exception response frame (R97), at the decoder (R155 step D5). -/
def execRtuRspException (slave excCode : Byte) (crc : Half) (s : State) : Host.Outcome State Fault Refusal :=
  frameReceived (exceptionBytes slave excCode crc) s

end Sys2Proof.Machine
end

