-- ==== Sys2Proof/Machine/Scaler.lean ====
section
/-! DEFINITION. The fixed-point sensor scaler: DECODE_TEMP and DECODE_HUM (spec/43_scaler.md R210 to R214). -/

namespace Sys2Proof.Machine

/-- The power of two that brings m/100 into [2^52, 2^53): the least k from `k` on with `m * 2^k >= 100 * 2^52`. -/
def sigShift (m : Nat) : Nat → Nat → Nat
  | 0, k => k
  | fuel + 1, k => if 100 * 2 ^ 52 ≤ m * 2 ^ k then k else sigShift m fuel (k + 1)

/-- n/d rounded to the nearest integer, ties to even (R211). -/
def roundNearest (n d : Nat) : Nat :=
  let q := n / d
  let r := n % d
  if 2 * r < d then q else if d < 2 * r then q + 1 else if q % 2 = 0 then q else q + 1

/-- The binary64 encoding of m/100 for m > 0 with sign bit 0: biased exponent 1023 + 52 - k, and the fraction of the 53-bit
significand. A significand rounded up to 2^53 carries into the exponent. -/
def binary64Magnitude (m : Nat) : Nat :=
  let k := sigShift m 64 43
  (1023 + 52 - k) * 2 ^ 52 + (roundNearest (m * 2 ^ k) 100 - 2 ^ 52)

/-- `binary64(x / 100)` as its 64-bit encoding; +0.0 for x = 0 (R211). -/
def binary64Hundredths (x : Int) : BitVec 64 :=
  if x = 0 then 0
  else BitVec.ofNat 64 ((if x < 0 then 2 ^ 63 else 0) + binary64Magnitude x.natAbs)

/-- `Scale(x, K)`: the scaler's output registers (R210). -/
def scaleRegs (x : Int) (kind : Bool) : ScaleRegs :=
  { x100 := BitVec.ofInt 32 x
    int := BitVec.ofInt 32 (x.tdiv 100)
    frac := BitVec.ofNat 7 (x.natAbs % 100)
    neg := decide (x < 0)
    kind := kind
    f64Lo := (binary64Hundredths x).extractLsb' 0 32
    f64Hi := (binary64Hundredths x).extractLsb' 32 32 }

/-- Write the scaler's outputs, all together (R45, R210). -/
def writeScale (r : ScaleRegs) (s : State) : State := { s with regs := { s.regs with scale := r } }

/-- DECODE_TEMP (R212): the raw word as a signed 16-bit integer, over 100. -/
def execDecodeTemp (s : State) : Host.Outcome State Fault Refusal :=
  plainCommand (opcodeWord 0x08) (fun s => .next (complete .ok (writeScale (scaleRegs (asI16 s.latch.raw) false) s))) s

/-- DECODE_HUM (R213): the raw word as an unsigned integer, over 100. -/
def execDecodeHum (s : State) : Host.Outcome State Fault Refusal :=
  plainCommand (opcodeWord 0x09)
    (fun s => .next (complete .ok (writeScale (scaleRegs (s.latch.raw.toNat : Int) true) s))) s

end Sys2Proof.Machine
end

