-- ==== Sys2Proof/Machine/Dispatch.lean ====
section
/-! DEFINITION. One arm per instruction. `exec i s` is one atomic step of instruction i: for a command, its acceptance when
the block is idle (spec/10_state.md R47), and otherwise the sequencer's next step of the command in progress in its phase
(R44), the last of which is its completion (R48). -/

namespace Sys2Proof.Machine

def exec (i : Instr) (s : State) : Host.Outcome State Fault Refusal :=
  match i with
  | .openCmd => Sys2Proof.Machine.execOpen s
  | .closeCmd => Sys2Proof.Machine.execClose s
  | .writeBytes => Sys2Proof.Machine.execWriteBytes s
  | .readBytes => Sys2Proof.Machine.execReadBytes s
  | .encodeRir => Sys2Proof.Machine.execEncodeRir s
  | .decodeResp => Sys2Proof.Machine.execDecodeResp s
  | .readInputRegs => Sys2Proof.Machine.execReadInputRegs s
  | .decodeTemp => Sys2Proof.Machine.execDecodeTemp s
  | .decodeHum => Sys2Proof.Machine.execDecodeHum s
  | .crcInit => Sys2Proof.Machine.execCrcInit s
  | .crcUpdate => Sys2Proof.Machine.execCrcUpdate s
  | .badCmd w => Sys2Proof.Machine.execBadCmd w s
  | .rtuReqReadInputRegs slave start count crc => Sys2Proof.Machine.execRtuReqReadInputRegs slave start count crc s
  | .rtuRspNormal slave byteCount regs crc => Sys2Proof.Machine.execRtuRspNormal slave byteCount regs crc s
  | .rtuRspException slave excCode crc => Sys2Proof.Machine.execRtuRspException slave excCode crc s

end Sys2Proof.Machine
end

