-- ==== Sys2Proof/Machine/HostPort.lean ====
section
/-! DEFINITION. The host port: the register map, host reads and host writes (spec/10_state.md R23 to R53,
spec/20_memory.md R70 to R76). A CMD write that is accepted is not here: it runs an instruction (Machine/Step.lean). -/

namespace Sys2Proof.Machine

/-! The register map (R23). -/

/-- The register at a word-aligned offset. -/
def regAt (off : BitVec 12) : Reg :=
  let o := off.toNat
  if o = 0x000 then .cmd
  else if o = 0x004 then .status
  else if o = 0x008 then .cfgBaud
  else if o = 0x00C then .cfgFrame
  else if o = 0x010 then .cfgRtoMs
  else if o = 0x014 then .cfgWtoMs
  else if o = 0x018 then .argSlave
  else if o = 0x01C then .argFunc
  else if o = 0x020 then .argStart
  else if o = 0x024 then .argCount
  else if o = 0x028 then .argLen
  else if o = 0x02C then .argRaw
  else if o = 0x030 then .crcAcc
  else if o = 0x034 then .rxLen
  else if o = 0x038 then .resultCount
  else if o = 0x03C then .diagCrc
  else if o = 0x040 then .scaleX100
  else if o = 0x044 then .scaleInt
  else if o = 0x048 then .scaleFrac
  else if o = 0x04C then .scaleFlags
  else if o = 0x050 then .scaleF64Lo
  else if o = 0x054 then .scaleF64Hi
  else if o = 0x058 then .line
  else if 0x100 ≤ o ∧ o < 0x500 then .txbuf ((o - 0x100) / 4)
  else if 0x500 ≤ o ∧ o < 0x900 then .rxbuf ((o - 0x500) / 4)
  else if 0x900 ≤ o ∧ o < 0xAF4 then .result ((o - 0x900) / 4)
  else .reserved

/-- The offset of a register (R23); the reserved offsets are many, and the first of them stands for them. -/
def offsetOf : Reg → BitVec 12
  | .cmd => 0x000
  | .status => 0x004
  | .cfgBaud => 0x008
  | .cfgFrame => 0x00C
  | .cfgRtoMs => 0x010
  | .cfgWtoMs => 0x014
  | .argSlave => 0x018
  | .argFunc => 0x01C
  | .argStart => 0x020
  | .argCount => 0x024
  | .argLen => 0x028
  | .argRaw => 0x02C
  | .crcAcc => 0x030
  | .rxLen => 0x034
  | .resultCount => 0x038
  | .diagCrc => 0x03C
  | .scaleX100 => 0x040
  | .scaleInt => 0x044
  | .scaleFrac => 0x048
  | .scaleFlags => 0x04C
  | .scaleF64Lo => 0x050
  | .scaleF64Hi => 0x054
  | .line => 0x058
  | .txbuf i => BitVec.ofNat 12 (txAddr i)
  | .rxbuf i => BitVec.ofNat 12 (rxAddr i)
  | .result i => BitVec.ofNat 12 (resAddr i)
  | .reserved => 0x05C

/-- An access the block admits: 32 bits, at an offset that is a multiple of 4 (R72). -/
def admitted (off : BitVec 12) (width : Width) : Bool := width == .b4 && off.toNat % 4 == 0

/-! Host reads. -/

/-- The current value of a register, reserved bits 0 (R24, R73); none for a cell never written since reset (R50). -/
def regValue (r : Reg) (s : State) : Option Word :=
  match r with
  | .cmd => some 0
  | .status => some (statusWord s)
  | .cfgBaud => some s.regs.cfgBaud
  | .cfgFrame => some (s.regs.cfgFrame.setWidth 32)
  | .cfgRtoMs => some (s.regs.cfgRtoMs.setWidth 32)
  | .cfgWtoMs => some (s.regs.cfgWtoMs.setWidth 32)
  | .argSlave => some (s.regs.argSlave.setWidth 32)
  | .argFunc => some (s.regs.argFunc.setWidth 32)
  | .argStart => some (s.regs.argStart.setWidth 32)
  | .argCount => some (s.regs.argCount.setWidth 32)
  | .argLen => some (s.regs.argLen.setWidth 32)
  | .argRaw => some (s.regs.argRaw.setWidth 32)
  | .crcAcc => some (s.regs.crcAcc.setWidth 32)
  | .rxLen => some (s.regs.rxLen.setWidth 32)
  | .resultCount => some (s.regs.resultCount.setWidth 32)
  | .diagCrc => some (s.regs.diagRecv ++ s.regs.diagCalc)
  | .scaleX100 => some s.regs.scale.x100
  | .scaleInt => some s.regs.scale.int
  | .scaleFrac => some (s.regs.scale.frac.setWidth 32)
  | .scaleFlags => some ((flagBit s.regs.scale.kind ++ flagBit s.regs.scale.neg).setWidth 32)
  | .scaleF64Lo => some s.regs.scale.f64Lo
  | .scaleF64Hi => some s.regs.scale.f64Hi
  | .line => some ((flagBit s.line.present).setWidth 32)
  | .txbuf i => (Memory.read s.mem (txAddr i)).map (fun b => b.setWidth 32)
  | .rxbuf i => (Memory.read s.mem (rxAddr i)).map (fun b => b.setWidth 32)
  | .result i => (Memory.readHalf s.mem (resAddr i)).map (fun h => h.setWidth 32)
  | .reserved => some 0

/-- The width of the field a read draws while BUSY = 1, for the registers R52 names. -/
def drawWidth : Reg → Option Nat
  | .txbuf _ => some 8
  | .rxbuf _ => some 8
  | .result _ => some 16
  | .rxLen => some 9
  | .resultCount => some 8
  | .diagCrc => some 32
  | .crcAcc => some 16
  | .scaleX100 => some 32
  | .scaleInt => some 32
  | .scaleFrac => some 7
  | .scaleFlags => some 2
  | .scaleF64Lo => some 32
  | .scaleF64Hi => some 32
  | .cmd => none
  | .status => none
  | .cfgBaud => none
  | .cfgFrame => none
  | .cfgRtoMs => none
  | .cfgWtoMs => none
  | .argSlave => none
  | .argFunc => none
  | .argStart => none
  | .argCount => none
  | .argLen => none
  | .argRaw => none
  | .line => none
  | .reserved => none

/-- The next draw, cut to a field's width (R52). -/
def drawValue (width : Nat) (s : State) : Word := Config.freeDraw s.draws &&& BitVec.ofNat 32 (2 ^ width - 1)

/-- The host has read `v` at `off`. -/
def logRead (off : BitVec 12) (v : Word) (s : State) : State :=
  { s with seen := { s.seen with reads := s.seen.reads ++ [{ off := off, value := v }] } }

/-- An admitted host read. It changes no state of the block (R74): it reaches the model's record of reads, and a draw moves
the model's draw counter on. A cell never written gives no value, busy or not (R50, notes/assumptions/6.md). -/
def hostRead (off : BitVec 12) (s : State) : Host.Outcome State Fault Refusal :=
  match regValue (regAt off) s with
  | none => .fault (.unwrittenCell off.toNat)
  | some v =>
    match drawWidth (regAt off) with
    | some w =>
      if busy s then .next (logRead off (drawValue w s) { s with draws := s.draws + 1 }) else .next (logRead off v s)
    | none => .next (logRead off v s)

/-! Host writes. -/

/-- A CFG_* write: discarded with REJECT while OPEN = 1 or BUSY = 1 (R37). -/
def writeCfg (r : Regs) (s : State) : State :=
  if s.port.isOpen || busy s then setReject s else { s with regs := r }

/-- A TXBUF or RXBUF write: discarded with REJECT while BUSY = 1 (R53). -/
def writeBuffer (a : Nat) (v : Word) (s : State) : State :=
  if busy s then setReject s else { s with mem := Memory.write s.mem a (v.setWidth 8) }

/-- An admitted host write of `v` to a register. CMD stands here for the write that is discarded because BUSY = 1 (R25);
reserved and read-only registers ignore the write without REJECT (R24). -/
def hostWrite (r : Reg) (v : Word) (s : State) : State :=
  match r with
  | .cmd => if busy s then setReject s else s
  | .status => if v.getLsbD 3 then { s with status := { s.status with reject := false } } else s
  | .cfgBaud => writeCfg { s.regs with cfgBaud := v } s
  | .cfgFrame => writeCfg { s.regs with cfgFrame := v.setWidth 8 } s
  | .cfgRtoMs => writeCfg { s.regs with cfgRtoMs := v.setWidth 16 } s
  | .cfgWtoMs => writeCfg { s.regs with cfgWtoMs := v.setWidth 16 } s
  | .argSlave => { s with regs := { s.regs with argSlave := v.setWidth 8 } }
  | .argFunc => { s with regs := { s.regs with argFunc := v.setWidth 8 } }
  | .argStart => { s with regs := { s.regs with argStart := v.setWidth 16 } }
  | .argCount => { s with regs := { s.regs with argCount := v.setWidth 16 } }
  | .argLen => { s with regs := { s.regs with argLen := v.setWidth 16 } }
  | .argRaw => { s with regs := { s.regs with argRaw := v.setWidth 16 } }
  | .txbuf i => writeBuffer (txAddr i) v s
  | .rxbuf i => writeBuffer (rxAddr i) v s
  | .crcAcc => s
  | .rxLen => s
  | .resultCount => s
  | .diagCrc => s
  | .scaleX100 => s
  | .scaleInt => s
  | .scaleFrac => s
  | .scaleFlags => s
  | .scaleF64Lo => s
  | .scaleF64Hi => s
  | .line => s
  | .result _ => s
  | .reserved => s

/-! The host's actions. -/

/-- What an action of the host does, when it is not a CMD write that is accepted. A refused access stops the model (R72).
While `rst` is asserted host writes are ignored (R260). -/
def hostStep (a : EnvAction) (s : State) : Host.Outcome State Fault Refusal :=
  match a with
  | .read off width => if admitted off width then hostRead off s else .fault (.refusedAccess off)
  | .write off width v =>
    if admitted off width = false then .fault (.refusedAccess off)
    else if s.rst then .next s
    else .next (hostWrite (regAt off) v s)
  | .wait => hostRead (offsetOf .status) s

end Sys2Proof.Machine
end

