-- ==== Sys2Proof/Machine/Schedule.lean ====
section
/-! DEFINITION. Which agent moves next (spec/10_state.md R20, spec/20_memory.md R80, spec/60_exceptions.md R247). The clock moves
only when nothing is due now; of what is due now, the order is the one the rules give, and `yields` where they leave it open
(notes/assumptions/5.md). -/

namespace Sys2Proof.Machine

/-- The agent that moves next. -/
inductive Turn where
  /-- Nothing is left to happen: the block is idle and the environment does nothing more (R263). -/
  | rest
  /-- The Clock advances `now` to `t` (R110). -/
  | clock (t : Time)
  /-- The `rst` input takes a level (R260). -/
  | reset (level : Bool)
  /-- The `line_present` input takes a level (R20). -/
  | line (level : Bool)
  /-- The host writes `v` to CMD and the block accepts it (R25, R47). -/
  | accept (v : Word)
  /-- Another action of the host. -/
  | host (a : EnvAction)
  /-- The sequencer steps the command in progress (R44). -/
  | sequencer
  deriving DecidableEq, Repr

/-- The host's action, as a turn. -/
def hostTurn (a : EnvAction) (s : State) : Turn :=
  match a with
  | .write off width v =>
    if admitted off width && regAt off == .cmd && !busy s && !s.rst then .accept v else .host a
  | .read _ _ => .host a
  | .wait => .host a

/-! What may happen next, and when. -/

/-- The next change of `rst`. -/
def nextReset (s : State) : Option InputChange := s.resets.head?

/-- The next change of `line_present`. A failed line does not change before the sequencer has recorded the failure (R114,
R116). -/
def nextLine (s : State) : Option InputChange := if lineFailed s then none else s.line.changes.head?

/-- The host's next action. A host in its WAIT loop does nothing until BUSY = 0 (R103). -/
def nextHost (s : State) : Option EnvEvent :=
  match s.env with
  | [] => none
  | e :: _ => if e.act = .wait ∧ busy s = true then none else some e

/-- When something planned for `t` may happen: not before that time, and in the untimed model at once (R119). -/
def eventTime (t : Time) (s : State) : Time := if isTimed s then max s.now t else s.now

/-- What is planned for `t` may happen now. -/
def isDue (t : Time) (s : State) : Bool := decide (eventTime t s ≤ s.now)

/-- The `rst` input changes now. -/
def resetDue (s : State) : Option InputChange := (nextReset s).filter fun c => isDue c.time s

/-- The `line_present` input changes now. -/
def lineDue (s : State) : Option InputChange := (nextLine s).filter fun c => isDue c.time s

/-- The host acts now. -/
def hostDue (s : State) : Option EnvEvent := (nextHost s).filter fun e => isDue e.time s

/-- The sequencer steps now. -/
def sequencerDue (s : State) : Bool :=
  match dueAt s with
  | some d => decide (d ≤ s.now)
  | none => false

/-! Whose turn it is, of what is due now. -/

/-- A turn that yields `yields` more times to the others that are due. -/
def yieldTo (yields : Nat) (others : Option Turn) (mine : Turn) : Turn :=
  match others with
  | none => mine
  | some o => if yields = 0 then mine else o

/-- The sequencer's turn. -/
def sequencerTurn (s : State) : Option Turn := if sequencerDue s then some .sequencer else none

/-- The host's turn, or the sequencer's: either order (R247). -/
def hostOrSequencer (s : State) : Option Turn :=
  match hostDue s with
  | some e => some (yieldTo e.yields (sequencerTurn s) (hostTurn e.act s))
  | none => sequencerTurn s

/-- A change of `line_present` may come before or after a step of another agent at its instant, except that in a wire phase of
the timed model the sequencer never goes before it: a line failure wins over the outcome of the same instant (R114, R116,
R117 (d)). -/
def lineOrOthers (s : State) : Option Turn :=
  match lineDue s with
  | some c =>
    if isTimed s = true ∧ wirePhase s.phase = true ∧ hostOrSequencer s = some .sequencer then some (.line c.level)
    else some (yieldTo c.yields (hostOrSequencer s) (.line c.level))
  | none => hostOrSequencer s

/-- A change of `rst` may come before or after any other step at its instant (R260). -/
def turnNow (s : State) : Option Turn :=
  match resetDue s with
  | some c => some (yieldTo c.yields (lineOrOthers s) (.reset c.level))
  | none => lineOrOthers s

/-! The next instant. -/

/-- The earlier of two instants, where there is one. -/
def earlier (a b : Option Time) : Option Time :=
  match a, b with
  | none, b => b
  | some t, none => some t
  | some t, some u => some (min t u)

/-- The next instant at which something may happen. -/
def nextInstant (s : State) : Option Time :=
  earlier ((nextReset s).map fun c => eventTime c.time s)
    (earlier ((nextLine s).map fun c => eventTime c.time s)
      (earlier ((nextHost s).map fun e => eventTime e.time s) (dueAt s)))

/-- Whose turn it is. -/
def nextTurn (s : State) : Turn :=
  match turnNow s with
  | some turn => turn
  | none =>
    match nextInstant s with
    | some t => .clock t
    | none => .rest

/-! Taking a turn: what is done is taken off its list, and what was due and has yielded has yielded once. -/

/-- A change of `rst` that is due yields. -/
def passReset (s : State) : State :=
  match resetDue s with
  | some c => { s with resets := { c with yields := c.yields - 1 } :: s.resets.tail }
  | none => s

/-- A change of `line_present` that is due yields. -/
def passLine (s : State) : State :=
  match lineDue s with
  | some c => { s with line := { s.line with changes := { c with yields := c.yields - 1 } :: s.line.changes.tail } }
  | none => s

/-- An action of the host that is due yields. -/
def passHost (s : State) : State :=
  match hostDue s with
  | some e => { s with env := { e with yields := e.yields - 1 } :: s.env.tail }
  | none => s

/-- The state in which a change of `rst` happens. -/
def atReset (s : State) : State := { s with resets := s.resets.tail }

/-- The state in which a change of `line_present` happens. -/
def atLine (s : State) : State :=
  let t := passReset s
  { t with line := { t.line with changes := s.line.changes.tail } }

/-- The state in which the host acts. -/
def atHost (s : State) : State :=
  let t := passReset (passLine s)
  { t with env := s.env.tail }

/-- The state in which the sequencer steps. -/
def atSequencer (s : State) : State := passReset (passLine (passHost s))

/-- The `line_present` input takes a level (R20, R40). -/
def lineStep (level : Bool) (s : State) : State := { s with line := { s.line with present := level } }

/-- The Clock advances `now` (R110). -/
def advance (t : Time) (s : State) : State := { s with now := t }

/-- The instruction the sequencer runs. In DECODE of READ_INPUT_REGS it is the frame received in RXBUF, where that is a frame of
R95 to R97; otherwise it is the command in progress (R44, R98). -/
def fetchInstr (s : State) : Instr :=
  if s.phase = .decode ∧ isRir s.latch = true then
    match allWritten (Memory.readCells s.mem (rxAddr 0) s.port.rxN) with
    | some b =>
      match decodeFrame b with
      | .ok i => i
      | .error _ => decodeCmd s.latch.op
    | none => decodeCmd s.latch.op
  else decodeCmd s.latch.op

/-- Place a word where the next step fetches it. A command word is the host's very next access, a write to CMD of an idle
block. A frame is in RXBUF, at the end of READ_INPUT_REGS's DECODE phase, with nothing for the host to do. In both cases the
inputs keep their levels, so that nothing comes first. -/
def placeCode (c : Code) (s : State) : State :=
  match c with
  | .cmd w =>
    { s with
      phase := .idle
      rst := false
      resets := []
      line := { s.line with changes := [] }
      env := { time := s.now, yields := 0, act := .write 0x000 .b4 w } :: s.env }
  | .frame b =>
    { s with
      phase := .decode
      phaseAt := s.now - s.params.cmdLatency
      rst := false
      resets := []
      line := { s.line with changes := [] }
      latch := { s.latch with op := opcodeWord 0x07 }
      port := { s.port with rxN := b.length }
      mem := Memory.writeCells s.mem (rxAddr 0) b
      env := [] }

end Sys2Proof.Machine
end

