-- ==== Sys2Proof/Machine/HostProgram.lean ====
section
/-! DEFINITION. The host program notation and its expansion into host accesses (spec/30_encoding.md R102, R103), and the LINE
statement's characters. -/

namespace Sys2Proof.Machine

/-- A statement of a host program (R102). EXPECT is a check of the test and no access, so it has no constructor. -/
inductive HostStmt where
  /-- `W off, v`. -/
  | w (off : BitVec 12) (v : Word)
  /-- `R off -> name`. -/
  | r (off : BitVec 12)
  /-- `SET REG, v`. -/
  | set (reg : Reg) (v : Word)
  /-- `CMD MNEMONIC`, by the command's opcode. -/
  | cmd (op : Byte)
  /-- `WAIT`. -/
  | wait
  deriving DecidableEq, Repr

/-- The host access a statement stands for (R103). -/
def expandStmt : HostStmt → EnvAction
  | .w off v => .write off .b4 v
  | .r off => .read off .b4
  | .set reg v => .write (offsetOf reg) .b4 v
  | .cmd op => .write 0x000 .b4 (opcodeWord op)
  | .wait => .wait

/-- A host program whose statements may all happen from instant `t` on, in their order (R80 (a)). -/
def hostProgram (t : Time) (p : List HostStmt) : List EnvEvent :=
  p.map (fun st => { time := t, yields := 0, act := expandStmt st })

/-- `LINE`: characters back to back, the start bit of the first at `t` (R102). -/
def lineChars (tc : Time) : Time → List Byte → List LineChar
  | _, [] => []
  | t, b :: bs => { start := t, byte := b, framingErr := false, parityErr := false } :: lineChars tc (t + tc) bs

end Sys2Proof.Machine
end

