-- ==== Sys2Proof/Machine/Step.lean ====
section
/-! DEFINITION. One step of the machine: the agent whose turn it is takes one atomic step (spec/10_state.md R20,
spec/20_memory.md R73, R80). -/

namespace Sys2Proof.Machine

/-- One step. An accepted CMD write runs the instruction the word selects, in the same step (R47); a turn of the sequencer runs
the instruction in progress. -/
def step (s : State) : Host.Outcome State Fault Refusal :=
  match nextTurn s with
  | .rest => .next s
  | .clock t => .next (advance t s)
  | .reset level => resetStep level (atReset s)
  | .line level => .next (lineStep level (atLine s))
  | .accept v => exec (decodeCmd v) (atHost s)
  | .host a => hostStep a (atHost s)
  | .sequencer => exec (fetchInstr s) (atSequencer s)

/-- `s` with the word the opcode table numbers `w` placed where the next step fetches its instruction
(notes/assumptions/4.md, notes/assumptions/10.md). -/
def State.withFetchWord (s : State) (nbits w : Nat) : State := placeCode (tableCode nbits w) s

end Sys2Proof.Machine
end

