-- ==== Sys2Proof/Safety.lean ====
section
/-! DEFINITION. What a sound state of MBRTU is: the invariants the spec's whole-machine rules give, over plain data. They are
stated of every step, and each rules out only states that no run reaches. -/

namespace Sys2Proof.Machine

/-- STATUS holds a pair of R31's table, EXC_CODE reports an ExceptionResponse only (R33), a command in progress shows no result
and its own LAST_OP (R28, R31, R32), and without a completed command there is no result (R28). -/
def statusSound (s : State) : Prop :=
  legalPair s.status.cls s.status.code = true ∧
  (s.status.excCode ≠ 0 → s.status.cls = 2 ∧ s.status.code = 4) ∧
  (busy s = true →
    s.status.done = false ∧ s.status.cls = 0 ∧ s.status.code = 0 ∧ s.status.lastOp = wordOpcode s.latch.op) ∧
  (busy s = false → s.status.done = false → s.status.cls = 0 ∧ s.status.code = 0 ∧ s.status.lastOp = 0)

/-- The latched command is one that sends: READ_INPUT_REGS with legal arguments, or WRITE_BYTES of 1 to 256 bytes. -/
def sends (l : Latch) : Prop :=
  (isRir l = true ∧ rirBadArg l = false) ∨
    (l.op = opcodeWord 0x03 ∧ 1 ≤ l.len.toNat ∧ l.len.toNat ≤ Config.txbufSize)

/-- The latched command is one that receives: READ_INPUT_REGS with legal arguments, or READ_BYTES of 1 to 256 bytes. -/
def receives (l : Latch) : Prop :=
  (isRir l = true ∧ rirBadArg l = false) ∨
    (l.op = opcodeWord 0x04 ∧ 1 ≤ l.len.toNat ∧ l.len.toNat ≤ Config.rxbufSize)

/-- The phase is one the latched command has (R44), the transport is open in every phase of a wire command that its checks did
not end at once, and the phase's counter is in its range (R49). -/
def phaseSound (s : State) : Prop :=
  match s.phase with
  | .idle => True
  | .exec =>
    (s.latch.op = opcodeWord 0x03 → writeAtOnce s ≠ none) ∧ (s.latch.op = opcodeWord 0x04 → readAtOnce s ≠ none) ∧
      (isRir s.latch = true → rirAtOnce s ≠ none)
  | .txGap => sends s.latch ∧ s.port.isOpen = true
  | .tx =>
    sends s.latch ∧ s.port.isOpen = true ∧ s.port.txK < txTotal s.latch
  | .rxWait => receives s.latch ∧ s.port.isOpen = true ∧ s.port.rxN = 0
  | .rxFrame => receives s.latch ∧ s.port.isOpen = true ∧ 1 ≤ s.port.rxN ∧ s.port.rxN < rxMax s.latch
  | .decode =>
    isRir s.latch = true ∧ rirBadArg s.latch = false ∧ s.port.isOpen = true ∧ 1 ≤ s.port.rxN ∧
      s.port.rxN ≤ rxMax s.latch

/-- The sequencer is sound, and it is idle while `rst` is asserted (R260). -/
def sequencerSound (s : State) : Prop := phaseSound s ∧ (s.rst = true → s.phase = .idle)

/-- An open transport has the legal configuration OPEN accepted (R37, R120). -/
def configSound (s : State) : Prop := s.port.isOpen = true → configLegal s.params s.regs = true

/-- An offset where a buffer cell keeps a byte (R41 to R43). -/
def bufferOffset (a : Nat) : Prop :=
  (∃ i, i < Config.txbufSize ∧ a = txAddr i) ∨ (∃ i, i < Config.rxbufSize ∧ a = rxAddr i) ∨
    (∃ i, i < Config.resultSize ∧ (a = resAddr i ∨ a = resAddr i + 1))

/-- The buffers are in canonical form and nothing is kept outside their cells (R23). -/
def buffersSound (s : State) : Prop := Memory.wf s.mem ∧ ∀ c ∈ s.mem, bufferOffset c.1

/-- What READ_INPUT_REGS keeps in the buffers while it runs: its request in TXBUF[0..7] until it is sent, and a byte in every
RXBUF cell it has counted (R190, R116). READ_BYTES keeps the same in RXBUF. -/
def framesSound (s : State) : Prop :=
  ((s.phase = .txGap ∨ s.phase = .tx) → isRir s.latch = true →
    Memory.readCells s.mem (txAddr 0) 8 = (requestFrame s.latch).map some) ∧
  ((s.phase = .rxFrame ∨ s.phase = .decode) →
    ∀ i, i < s.port.rxN → (Memory.read s.mem (rxAddr i)).isSome = true)

/-- No instant the block has recorded lies in the future (R49, R110). -/
def timeSound (s : State) : Prop :=
  0 ≤ s.now ∧ (s.port.isOpen = true → s.port.tLast ≤ s.now) ∧
    (busy s = true → s.latch.t0 ≤ s.now ∧ s.phaseAt ≤ s.now)

/-- RESULT_COUNT and RXLEN are in their ranges (R40). -/
def countsSound (s : State) : Prop :=
  s.regs.resultCount.toNat ≤ Config.resultSize ∧ s.regs.rxLen.toNat ≤ Config.rxbufSize

/-- A sound state: all of it together. -/
def Sound (s : State) : Prop :=
  statusSound s ∧ sequencerSound s ∧ configSound s ∧ buffersSound s ∧ framesSound s ∧ timeSound s ∧ countsSound s

/-- How a completion with result `r` leaves STATUS and the phase (R48, R232): BUSY 0, DONE 1, the class and code of R31's table,
EXC_CODE, with REJECT and LAST_OP as they were. -/
def completesAs (r : Result) (s t : State) : Prop :=
  t.phase = .idle ∧ t.status.done = true ∧ t.status.cls = resultClass r ∧ t.status.code = resultCode r ∧
    t.status.excCode = resultExc r ∧ t.status.reject = s.status.reject ∧ t.status.lastOp = s.status.lastOp

/-- The registers no command writes: CFG_* and ARG_* (R23). -/
def keepsHostRegs (r q : Regs) : Prop :=
  q.cfgBaud = r.cfgBaud ∧ q.cfgFrame = r.cfgFrame ∧ q.cfgRtoMs = r.cfgRtoMs ∧ q.cfgWtoMs = r.cfgWtoMs ∧
    q.argSlave = r.argSlave ∧ q.argFunc = r.argFunc ∧ q.argStart = r.argStart ∧ q.argCount = r.argCount ∧
    q.argLen = r.argLen ∧ q.argRaw = r.argRaw

/-- The result registers of R40 and R45, with CRC_ACC (R39). -/
def keepsResultRegs (r q : Regs) : Prop :=
  q.crcAcc = r.crcAcc ∧ q.rxLen = r.rxLen ∧ q.resultCount = r.resultCount ∧ q.diagCalc = r.diagCalc ∧
    q.diagRecv = r.diagRecv ∧ q.scale = r.scale

/-- Every byte of the buffers reads as before. -/
def keepsMem (s t : State) : Prop := ∀ a, Memory.read t.mem a = Memory.read s.mem a

/-- What a completion leaves alone: the latches, the time, the inputs, the parameters, what the environment is still to do,
what it has seen, CFG_* and ARG_*. -/
def keepsRest (s t : State) : Prop :=
  t.latch = s.latch ∧ t.phaseAt = s.phaseAt ∧ t.now = s.now ∧ t.rst = s.rst ∧ t.resets = s.resets ∧ t.env = s.env ∧
    t.params = s.params ∧ t.draws = s.draws ∧ t.seen = s.seen ∧ t.line = s.line ∧ keepsHostRegs s.regs t.regs

/-- The first phase of the command word `v`, from the registers its acceptance latches (R44 and the command rules R122, R123,
R190). -/
def firstPhase (v : Word) (s : State) : Phase :=
  if v = 0x00000003 then
    if s.regs.argLen.toNat ≤ 256 ∧ s.port.isOpen = true ∧ s.regs.argLen ≠ 0 then .txGap else .exec
  else if v = 0x00000004 then
    if s.regs.argLen.toNat ≤ 256 ∧ s.port.isOpen = true ∧ s.regs.argLen ≠ 0 then .rxWait else .exec
  else if v = 0x00000007 then
    if 1 ≤ s.regs.argSlave.toNat ∧ s.regs.argSlave.toNat ≤ 247 ∧ 1 ≤ s.regs.argCount.toNat ∧
        s.regs.argCount.toNat ≤ 125 ∧ s.port.isOpen = true then .txGap else .exec
  else .exec

/-- The value of every piece of state after reset, as the table of R261 gives it, LINE following its input; what the table leaves
unspecified or undefined is left out. -/
def resetValues (s : State) : Prop :=
  statusWord s = 0x00000000 ∧ s.regs.cfgBaud = 0x00002580 ∧ s.regs.cfgFrame = 0x48 ∧ s.regs.cfgRtoMs = 0x01F4 ∧
    s.regs.cfgWtoMs = 0x01F4 ∧ s.regs.argSlave = 0 ∧ s.regs.argStart = 0 ∧ s.regs.argCount = 0 ∧ s.regs.argLen = 0 ∧
    s.regs.argRaw = 0 ∧ s.regs.argFunc = 0x04 ∧ s.regs.crcAcc = 0xFFFF ∧ s.regs.rxLen = 0 ∧ s.regs.resultCount = 0 ∧
    s.regs.diagCalc = 0 ∧ s.regs.diagRecv = 0 ∧
    s.regs.scale = { x100 := 0, int := 0, frac := 0, neg := false, kind := false, f64Lo := 0, f64Hi := 0 } ∧
    (∀ a, Memory.read s.mem a = none) ∧ s.phase = .idle ∧ s.port.isOpen = false ∧ s.now = 0 ∧
    txOutput s = some true ∧ receiverEnabled s = false ∧
    regValue .line s = some (if s.line.present = true then 1 else 0)

end Sys2Proof.Machine
end

