-- ==== Sys2Proof/WellFormed.lean ====
section
/-! DEFINITION. Which instruction terms stand for words of the machine. A CRC field may hold any value: a frame whose CRC
is wrong is still a frame of its kind, and judging the CRC is the decoder's step D3 (spec/41_codec.md R155). -/

namespace Sys2Proof

/-- The byte count of a normal response equals 2*N (R96). -/
def byteCountAgrees (byteCount : Byte) (regs : List Half) : Bool := byteCount.toNat == 2 * regs.length

/-- The frame fits RXBUF, and its registers fit RESULT: N is at most 125 (R8, R96). -/
def regsFit (regs : List Half) : Bool := decide (regs.length ≤ Config.resultSize)

/-- The well-formed instruction terms. -/
def Instr.wf : Instr → Bool
  | .openCmd => true
  | .closeCmd => true
  | .writeBytes => true
  | .readBytes => true
  | .encodeRir => true
  | .decodeResp => true
  | .readInputRegs => true
  | .decodeTemp => true
  | .decodeHum => true
  | .crcInit => true
  | .crcUpdate => true
  | .badCmd w => isIllegalWord w
  | .rtuReqReadInputRegs _ _ _ _ => true
  | .rtuRspNormal _ byteCount regs _ => byteCountAgrees byteCount regs && regsFit regs
  | .rtuRspException _ _ _ => true

end Sys2Proof
end

