-- ==== Sys2Proof/Certificates/Slice0/Obligations.lean ====
section
/-! DEFINITION. The statements about the machine, each from a numbered rule of spec/. -/

open Sys2Proof Sys2Proof.Machine

/-! ### Encoding -/

/-- Decoding the encoding of a well-formed instruction gives it back, with every field at every value (R90 to R97). -/
def Obligations.DecodeEncodeRoundTrip : Prop :=
  ∀ i : Instr, i.wf = true → decode (encode i) = .ok i

/-- Whatever decodes is well-formed, and encoding it gives the same word or bytes back: no two words stand for one
instruction (R91 to R97). -/
def Obligations.DecodedIsWellFormedAndReencodes : Prop :=
  ∀ (c : Code) (i : Instr), decode c = .ok i → i.wf = true ∧ encode i = c

/-- Words and frames written out from the spec's encodings decode to what they stand for (R92, R93, R95 to R97, and the
frames of spec/95_test_vectors.md). -/
def Obligations.SpecWordsDecode : Prop :=
  decode (.cmd 0x00000001) = .ok .openCmd ∧ decode (.cmd 0x0000000B) = .ok .crcUpdate ∧
  decode (.cmd 0x00000107) = .ok (.badCmd 0x00000107) ∧
  decode (.frame [0x01, 0x04, 0x00, 0x00, 0x00, 0x01, 0x31, 0xCA]) =
    .ok (.rtuReqReadInputRegs 0x01 0x0000 0x0001 0xCA31) ∧
  decode (.frame [0x01, 0x04, 0x04, 0x01, 0x90, 0x13, 0x88, 0xF7, 0x03]) =
    .ok (.rtuRspNormal 0x01 0x04 [0x0190, 0x1388] 0x03F7) ∧
  decode (.frame [0x01, 0x84, 0x02, 0xC2, 0xC1]) = .ok (.rtuRspException 0x01 0x02 0xC1C2)

/-- R92: the word that selects each command, and no other word does. -/
def Obligations.CommandMapSelectsByWholeWord : Prop :=
  ∀ v : Word,
    (decodeCmd v = .openCmd ↔ v = 0x00000001) ∧ (decodeCmd v = .closeCmd ↔ v = 0x00000002) ∧
    (decodeCmd v = .writeBytes ↔ v = 0x00000003) ∧ (decodeCmd v = .readBytes ↔ v = 0x00000004) ∧
    (decodeCmd v = .encodeRir ↔ v = 0x00000005) ∧ (decodeCmd v = .decodeResp ↔ v = 0x00000006) ∧
    (decodeCmd v = .readInputRegs ↔ v = 0x00000007) ∧ (decodeCmd v = .decodeTemp ↔ v = 0x00000008) ∧
    (decodeCmd v = .decodeHum ↔ v = 0x00000009) ∧ (decodeCmd v = .crcInit ↔ v = 0x0000000A) ∧
    (decodeCmd v = .crcUpdate ↔ v = 0x0000000B)

/-- R93: an illegal word is accepted, LAST_OP showing its low byte, and then completes with BADCMD and changes nothing
else. -/
def Obligations.IllegalWordCompletesWithBadCmd : Prop :=
  ∀ (v : Word) (s : State),
    (v.toNat / 256 ≠ 0 ∨ v.toNat % 256 = 0 ∨ 0x0C ≤ v.toNat % 256) →
    decodeCmd v = .badCmd v ∧
    (s.phase = .idle → exec (.badCmd v) s = .next (accept v .exec s)) ∧
    (s.phase = .exec → exec (.badCmd v) s =
      .next { s with
        status := { s.status with done := true, cls := 3, code := 1, excCode := 0 }
        phase := .idle })

/-! ### The step -/

/-- R47: a CMD write while BUSY = 0 is accepted in the step of the write. The arguments are latched (R46), BUSY is 1, DONE, CLASS,
CODE and EXC_CODE are 0, LAST_OP is the word's low byte (R32), the first phase is the command's, and REJECT and OPEN are not
changed. No register changes, and no byte of the buffers but the TXBUF[0..7] of READ_INPUT_REGS. It is the block's turn to accept
when the write is the host's next access, its time has come and no input changes at that instant. -/
def Obligations.CmdWriteIsAcceptedInItsStep : Prop :=
  ∀ (s : State) (v : Word),
    (∀ (e : EnvEvent) (rest : List EnvEvent),
      s.env = e :: rest → e.act = .write 0x000 .b4 v → s.phase = .idle → s.rst = false →
      (isTimed s = true → e.time ≤ s.now) → resetDue s = none → lineDue s = none →
      nextTurn s = .accept v ∧ atHost s = { s with env := rest }) ∧
    (nextTurn s = .accept v →
      busy s = false ∧ s.rst = false ∧
      ∃ t, step s = .next t ∧ exec (decodeCmd v) (atHost s) = .next t ∧
        t.latch = { op := v, slave := s.regs.argSlave, func := s.regs.argFunc, start := s.regs.argStart,
                    count := s.regs.argCount, len := s.regs.argLen, raw := s.regs.argRaw, t0 := s.now } ∧
        busy t = true ∧ t.phase = firstPhase v s ∧
        t.status = { done := false, reject := s.status.reject, cls := 0, code := 0,
                     lastOp := BitVec.ofNat 8 v.toNat, excCode := 0 } ∧
        t.port.isOpen = s.port.isOpen ∧ t.env = s.env.tail ∧ t.now = s.now ∧ t.regs = s.regs ∧
        (v ≠ 0x00000007 → t.mem = s.mem) ∧
        (∀ a, (∀ i, i < 8 → a ≠ 0x100 + 4 * i) → Memory.read t.mem a = Memory.read s.mem a))

/-- The sequencer's turn: its step is exec of the command in progress (R44), in a state that differs from `s` in nothing but what
the environment is still to do, and in `s` itself when nothing else is due. In a wire phase of the timed model the sequencer has no
turn while a change of `line_present` is due at the same instant: the change goes first (R114, R117 (d)). A host access at the same
instant may come in either order (R80, R247); the counter that settles it is the model's choice (notes/assumptions/5.md), and so is
the view that in DECODE the instruction is the received frame (notes/assumptions/4.md). -/
def Obligations.StepRunsCommandInProgress : Prop :=
  ∀ (s : State) (d : Time), dueAt s = some d → d ≤ s.now →
    (hostDue s = none → lineDue s = none → resetDue s = none → step s = exec (fetchInstr s) s) ∧
    (nextTurn s = .sequencer →
      step s = exec (fetchInstr s) (atSequencer s) ∧
      atSequencer s = { s with
        env := (atSequencer s).env
        resets := (atSequencer s).resets
        line := { s.line with changes := (atSequencer s).line.changes } }) ∧
    (s.phase ≠ .decode → fetchInstr s = decodeCmd s.latch.op) ∧
    (∀ (c : InputChange) (cs : List InputChange),
      s.phase = .txGap ∨ s.phase = .tx ∨ s.phase = .rxWait ∨ s.phase = .rxFrame →
      isTimed s = true → s.line.present = true → s.line.changes = c :: cs → c.time ≤ s.now →
      nextTurn s ≠ .sequencer ∧
      (hostDue s = none → resetDue s = none →
        step s = .next { s with line := { s.line with present := c.level, changes := cs } }))

/-- Where the bytes received in RXBUF are a frame of R95 to R97, running that frame is the decode step of the command in progress: in
DECODE the step's instruction is the frame, and it does what READ_INPUT_REGS does; in a DECODE_RESP it does what DECODE_RESP
does (R98, R155, R190, R235). The view of a frame as an instruction is the model's (notes/assumptions/4.md). -/
def Obligations.DecodePhaseRunsReceivedFrame : Prop :=
  ∀ (s : State) (b : List Byte) (i : Instr), decode (.frame b) = .ok i →
    (s.phase = .decode → s.latch.op = 0x00000007 → Memory.readCells s.mem 0x500 s.port.rxN = b.map some →
      fetchInstr s = i ∧ exec i s = exec .readInputRegs s) ∧
    (s.phase = .exec → s.latch.op = 0x00000006 → s.latch.len.toNat ≤ 256 →
      Memory.readCells s.mem 0x500 s.latch.len.toNat = b.map some → exec i s = exec .decodeResp s)

/-! ### Completion -/

/-- R232 (and R48 for `complete OK`): a completion writes CLASS, CODE, EXC_CODE, DONE and the phase, and nothing else; the
classes and codes are those of R31's table. -/
def Obligations.CompletionWritesStatusOnly : Prop :=
  ∀ (s : State) (c : Byte),
    let ended (cls : BitVec 2) (code : BitVec 4) (exc : Byte) : State :=
      { s with status := { s.status with done := true, cls := cls, code := code, excCode := exc }, phase := .idle }
    complete .ok s = ended 0 0 0 ∧
    complete (.io .openFailed) s = ended 1 1 0 ∧ complete (.io .writeTimeout) s = ended 1 2 0 ∧
    complete (.io .writeFailed) s = ended 1 3 0 ∧ complete (.io .readTimeout) s = ended 1 4 0 ∧
    complete (.io .readFailed) s = ended 1 5 0 ∧
    complete (.protocol .crcMismatch) s = ended 2 1 0 ∧ complete (.protocol .slaveMismatch) s = ended 2 2 0 ∧
    complete (.protocol .functionMismatch) s = ended 2 3 0 ∧
    complete (.protocol (.exceptionResponse c)) s = ended 2 4 c ∧ complete (.protocol .truncated) s = ended 2 5 0 ∧
    complete (.block .badCmd) s = ended 3 1 0 ∧ complete (.block .badArg) s = ended 3 2 0

/-! ### OPEN and CLOSE -/

/-- R120: OPEN fails exactly when the transport is open, the line is missing or the configuration is not supported, changing no
state but STATUS; otherwise it opens, and `t_last` is the completion time. R121: CLOSE always completes OK with the transport closed,
changes nothing else, and leaves the receiver disabled and the TX output at the idle level. -/
def Obligations.OpenSucceedsOrFailsAndCloseCloses : Prop :=
  ∀ s : State, s.phase = .exec →
    let supported : Prop :=
      s.regs.cfgBaud.toNat ∈ s.params.supportedBaud ∧ s.regs.cfgFrame.toNat % 16 = 8 ∧
        s.regs.cfgFrame.toNat / 16 % 4 ≠ 3 ∧ (s.regs.cfgFrame.toNat / 64 = 1 ∨ s.regs.cfgFrame.toNat / 64 = 2) ∧
        s.regs.cfgRtoMs ≠ 0 ∧ s.regs.cfgWtoMs ≠ 0
    ((s.port.isOpen = false ∧ s.line.present = true ∧ supported) →
      exec .openCmd s = .next (complete .ok { s with port := { s.port with isOpen := true, tLast := s.now } })) ∧
    (¬ (s.port.isOpen = false ∧ s.line.present = true ∧ supported) →
      exec .openCmd s = .next (complete (.io .openFailed) s)) ∧
    ∃ t, exec .closeCmd s = .next t ∧ t = complete .ok { s with port := { s.port with isOpen := false } } ∧
      receiverEnabled t = false ∧ txOutput t = some true

/-- R29: no step but OPEN's completion with OK opens the transport, and none but CLOSE's completion or a reset closes it. -/
def Obligations.OnlyOpenAndCloseChangeOpen : Prop :=
  ∀ s t : State, step s = .next t → t.port.isOpen ≠ s.port.isOpen →
    (t.port.isOpen = true ∧ s.phase = .exec ∧ s.latch.op = 0x00000001 ∧ completesAs .ok s t) ∨
    (t.port.isOpen = false ∧ s.phase = .exec ∧ s.latch.op = 0x00000002 ∧ completesAs .ok s t) ∨
    (t.port.isOpen = false ∧ nextTurn s = .reset true)

/-! ### WRITE_BYTES and the transmit engine -/

/-- R111, R112, R113: the character time is the number of a character's bits over the baud rate, T_EOF is EOF_CHARS of them, and the
first start bit is at max(t_g, t_last + T_EOF), with t_g = L.T0. At the end of the gap the TX phase starts, with its deadline
WTO ms later (R114), for WRITE_BYTES and READ_INPUT_REGS. In the untimed model the gap may end at once (R119). -/
def Obligations.GapHoldsTheFirstStartBit : Prop :=
  ∀ s : State,
    charTime s =
      ((1 + s.regs.cfgFrame.toNat % 16 + (if s.regs.cfgFrame.toNat / 16 % 4 ≠ 0 then 1 else 0) +
        s.regs.cfgFrame.toNat / 64 : Nat) : Time) / (s.regs.cfgBaud.toNat : Time) ∧
    eofTime s = s.params.eofChars * charTime s ∧
    (s.phase = .txGap → s.line.present = true ∨ isTimed s = false →
      dueAt s = some (if isTimed s = true then max s.now (max s.latch.t0 (s.port.tLast + eofTime s)) else s.now) ∧
      (∀ i, i = .writeBytes ∨ i = .readInputRegs →
        exec i s = .next { s with
          phase := .tx
          phaseAt := s.now
          port := { s.port with txK := 0, deadline := s.now + (s.regs.cfgWtoMs.toNat : Time) / 1000 } }))

/-- R114: character k of the n to send (LEN for WRITE_BYTES, 8 for READ_INPUT_REGS) occupies [s_k, e_k] when it can end by the
deadline. It is put on the wire as the start bit 0, the data bits least significant first, the parity bit of R78 (none for
PARITY = 0), and the stop bits 1, and `t_last` becomes e_k. While more follow the phase goes on; after the last one WRITE_BYTES
completes OK at e_{n-1} (R122). Nothing else changes. In the untimed model (R119) the character is sent at once if the outcome the
line has chosen sends that many, and the choice is used up at the end of the phase (notes/assumptions/9.md). -/
def Obligations.TransmitSendsCharacters : Prop :=
  ∀ (s : State) (b : Byte),
    let timed : Prop := isTimed s = true
    let n : Nat := if s.latch.op = 0x00000007 then 8 else s.latch.len.toNat
    let sk : Time := if timed then s.phaseAt + (s.port.txK : Time) * charTime s else s.now
    let ek : Time := if timed then sk + charTime s else s.now
    let pty : Nat := s.regs.cfgFrame.toNat / 16 % 4
    let data : List Bool := (List.range 8).map fun i => b.getLsbD i
    let goes : Prop :=
      if timed then s.line.present = true ∧ ek ≤ s.port.deadline
      else
        match s.line.txChoices.head? with
        | some (.timeout k) => s.port.txK < k ∧ s.port.txK + 1 < n
        | some (.failed k _) => s.port.txK < k ∧ s.port.txK + 1 < n
        | some .ok => s.port.txK < n
        | none => s.port.txK < n
    s.phase = .tx → goes → Memory.read s.mem (0x100 + 4 * s.port.txK) = some b →
    ∃ par : List Bool,
      (pty = 0 → par = []) ∧
      (pty = 1 → ∃ p, par = [p] ∧ (data ++ [p]).count true % 2 = 1) ∧
      (pty = 2 → ∃ p, par = [p] ∧ (data ++ [p]).count true % 2 = 0) ∧
      let sent : State := { s with
        port := { s.port with tLast := ek, txK := s.port.txK + 1 }
        seen := { s.seen with wire := s.seen.wire ++
          [{ byte := b, bits := [false] ++ data ++ par ++ List.replicate (s.regs.cfgFrame.toNat / 64) true,
             start := sk, stop := ek, whole := true }] } }
      let ended : State := { sent with
        line := { s.line with txChoices := if timed then s.line.txChoices else s.line.txChoices.tail } }
      dueAt s = some (if timed then max s.now ek else s.now) ∧
      (s.latch.op = 0x00000003 → s.port.txK + 1 < n → exec .writeBytes s = .next sent) ∧
      (s.latch.op = 0x00000003 → n = s.port.txK + 1 → exec .writeBytes s = .next (complete .ok ended)) ∧
      (s.latch.op = 0x00000007 → s.port.txK + 1 < n → exec .readInputRegs s = .next sent)

/-- R114: how TX_GAP and TX fail, for WRITE_BYTES and READ_INPUT_REGS. A character that cannot end by the deadline is never started, and
WriteTimeout comes at the deadline. A line that drops ends the command with WriteFailed at once: bytes already sent stay sent, and
a character in progress is cut off and does not count as sent. That a line lost exactly at a character's start leaves no cut-off
record, and that a cut-off record holds all the bits of its character, is the model's choice (notes/assumptions/23.md). In the
untimed model the line chooses WriteTimeout(k) or WriteFailed(k) with k < n (R119), and whether one more character was in progress
(notes/assumptions/9.md). -/
def Obligations.TransmitTimeoutAndLineFailure : Prop :=
  ∀ (s : State) (i : Instr), i = .writeBytes ∨ i = .readInputRegs →
    let n : Nat := if s.latch.op = 0x00000007 then 8 else s.latch.len.toNat
    let sk : Time := s.phaseAt + (s.port.txK : Time) * charTime s
    let ek : Time := sk + charTime s
    let cut (b : Byte) (start : Time) : State := { s with seen := { s.seen with wire := s.seen.wire ++
      [{ byte := b, bits := charBits s.regs b, start := start, stop := s.now, whole := false }] } }
    let popped (t : State) : State := { t with line := { s.line with txChoices := s.line.txChoices.tail } }
    (isTimed s = true →
      (s.phase = .tx → s.line.present = true → s.port.deadline < ek →
        dueAt s = some (max s.now s.port.deadline) ∧ exec i s = .next (complete (.io .writeTimeout) s)) ∧
      (s.phase = .txGap → s.line.present = false →
        dueAt s = some s.now ∧ exec i s = .next (complete (.io .writeFailed) s)) ∧
      (s.phase = .tx → s.line.present = false →
        dueAt s = some s.now ∧
        (s.now ≤ sk ∨ s.port.deadline < ek → exec i s = .next (complete (.io .writeFailed) s)) ∧
        (sk < s.now → ek ≤ s.port.deadline → ∀ b, Memory.read s.mem (0x100 + 4 * s.port.txK) = some b →
          exec i s = .next (complete (.io .writeFailed) (cut b sk))))) ∧
    (isTimed s = false → s.phase = .tx →
      dueAt s = some s.now ∧
      (∀ k, s.line.txChoices.head? = some (.timeout k) → k ≤ s.port.txK ∨ n ≤ s.port.txK + 1 →
        exec i s = .next (complete (.io .writeTimeout) (popped s))) ∧
      (∀ k, s.line.txChoices.head? = some (.failed k false) → k ≤ s.port.txK ∨ n ≤ s.port.txK + 1 →
        exec i s = .next (complete (.io .writeFailed) (popped s))) ∧
      (∀ k b, s.line.txChoices.head? = some (.failed k true) → k ≤ s.port.txK ∨ n ≤ s.port.txK + 1 →
        Memory.read s.mem (0x100 + 4 * s.port.txK) = some b →
        exec i s = .next (complete (.io .writeFailed) (popped (cut b s.now)))))

/-- The machine's steps through a TX phase of WRITE_BYTES do what the engine of R114 does as a whole: its outcome, its time, the
bytes sent in index order (R86) and `t_last`. -/
def Obligations.TxPhaseRefinesTransmitEngine : Prop :=
  ∀ (s : State) (bs : List Byte) (o : TxOutcome) (k : Nat) (tm : Time),
    s.phase = .tx → s.latch.op = 0x00000003 → isTimed s = true → s.line.present = true → s.env = [] →
    s.line.changes = [] → s.resets = [] → s.port.txK = 0 → s.now = s.phaseAt → s.phaseAt ≤ s.port.deadline → s.regs.cfgBaud ≠ 0 →
    1 ≤ s.latch.len.toNat → s.latch.len.toNat ≤ 256 →
    Memory.readCells s.mem 0x100 s.latch.len.toNat = bs.map some →
    txEngine s.phaseAt (charTime s) s.port.deadline s.latch.len.toNat s.latch.len.toNat 0 = (o, k, tm) →
    ∃ n t, Host.Core.run core n s = .next t ∧ completesAs (txResult o) s t ∧ t.now = tm ∧
      t.seen.wire.map (fun c => (c.byte, c.whole)) =
        s.seen.wire.map (fun c => (c.byte, c.whole)) ++ (bs.take k).map (fun b => (b, true)) ∧
      t.port.tLast = (if k = 0 then s.port.tLast else s.phaseAt + (k : Time) * charTime s) ∧
      keepsMem s t ∧ t.regs = s.regs ∧ t.port.isOpen = s.port.isOpen

/-! ### READ_BYTES and the receive timeout arbiter -/

/-- R122 and R123: the ways WRITE_BYTES and READ_BYTES end without the wire, in their order: LEN > 256, a closed transport, LEN = 0. -/
def Obligations.WireCommandsEndAtOnce : Prop :=
  ∀ s : State, s.phase = .exec →
    (256 < s.latch.len.toNat →
      exec .writeBytes s = .next (complete (.block .badArg) s) ∧
      exec .readBytes s = .next (complete (.block .badArg) s)) ∧
    (s.latch.len.toNat ≤ 256 → s.port.isOpen = false →
      exec .writeBytes s = .next (complete (.io .writeFailed) s) ∧
      exec .readBytes s = .next (complete (.io .readFailed) s)) ∧
    (s.latch.len = 0 → s.port.isOpen = true →
      exec .writeBytes s = .next (complete .ok s) ∧
      exec .readBytes s = .next (complete .ok { s with regs := { s.regs with rxLen := 0 } }))

/-- R115: READ_BYTES of 1 to 256 bytes on an open transport starts its RX phase at acceptance: nothing received, the deadline RTO ms
later, the receiver enabled, and a character whose start bit fell before is not received (R116). -/
def Obligations.ReadBytesStartsReceiving : Prop :=
  ∀ s : State, s.phase = .idle → s.port.isOpen = true → 1 ≤ s.regs.argLen.toNat → s.regs.argLen.toNat ≤ 256 →
    ∃ t, exec .readBytes s = .next t ∧ receiverEnabled t = true ∧
      t = { s with
        status := t.status
        latch := t.latch
        phase := .rxWait
        phaseAt := s.now
        port := { s.port with rxN := 0, deadline := s.now + (s.regs.cfgRtoMs.toNat : Time) / 1000 }
        line := { s.line with chars := s.line.chars.filter (fun c => decide (s.now ≤ c.start)) } }

/-- R116: in an RX phase the next character, starting before the silence and the deadline and ending by the deadline without an
error, is stored in RXBUF[n] at its end, and nothing else of the buffers changes. The phase is RX_FRAME then, until the M-th
character ends the frame by count: READ_BYTES completes OK with RXLEN = M = LEN, and READ_INPUT_REGS goes to DECODE with
M = 5 + 2*COUNT (R192). In the untimed model (R119) the next byte of the outcome the line has chosen is stored at once: up to M of a
COMPLETE, up to M-1 of the others (notes/assumptions/9.md). -/
def Obligations.ReceiveStoresAndEndsByCount : Prop :=
  ∀ (s : State) (i : Instr) (m : Nat),
    (i = .readBytes ∧ s.latch.op = 0x00000004 ∧ m = s.latch.len.toNat) ∨
      (i = .readInputRegs ∧ s.latch.op = 0x00000007 ∧ m = 5 + 2 * s.latch.count.toNat) →
    s.phase = .rxWait ∨ s.phase = .rxFrame → s.port.rxN < 256 →
    let stores (b : Byte) (stop : Time) (goOn last : Line) : Prop :=
      ∃ mem : Memory,
        Memory.read mem (0x500 + 4 * s.port.rxN) = some b ∧
        (∀ a, a ≠ 0x500 + 4 * s.port.rxN → Memory.read mem a = Memory.read s.mem a) ∧
        (let stored (line : Line) : State := { s with
            mem := mem
            phase := .rxFrame
            port := { s.port with rxN := s.port.rxN + 1, tLast := stop }
            line := line }
         (s.port.rxN + 1 ≠ m → exec i s = .next (stored goOn)) ∧
         (s.port.rxN + 1 = m → i = .readBytes →
           exec i s = .next
             (complete .ok { stored last with regs := { s.regs with rxLen := BitVec.ofNat 9 (s.port.rxN + 1) } })) ∧
         (s.port.rxN + 1 = m → i = .readInputRegs →
           exec i s = .next { stored last with phase := .decode, phaseAt := s.now }))
    (isTimed s = true → s.line.present = true → ∀ (c : LineChar) (cs : List LineChar),
      s.line.chars = c :: cs → c.framingErr = false → (c.parityErr = true → s.regs.cfgFrame.toNat / 16 % 4 = 0) →
      (1 ≤ s.port.rxN → c.start < s.port.tLast + s.params.eofChars * charTime s) →
      c.start < s.port.deadline → c.start + charTime s ≤ s.port.deadline →
      dueAt s = some (max s.now (c.start + charTime s)) ∧
      stores c.byte (c.start + charTime s) { s.line with chars := cs } { s.line with chars := cs }) ∧
    (isTimed s = false → ∀ (bs : List Byte) (b : Byte),
      (s.line.rxChoices.head? = some (.complete bs) ∧ s.port.rxN < m) ∨
        ((s.line.rxChoices.head? = some (.timeout bs) ∨ s.line.rxChoices.head? = some (.failed bs)) ∧
          s.port.rxN + 1 < m) →
      bs[s.port.rxN]? = some b →
      dueAt s = some s.now ∧
      stores b s.now s.line { s.line with rxChoices := s.line.rxChoices.tail })

/-- R116, R117 and R190: the RX phase of READ_BYTES and READ_INPUT_REGS with n characters received, the line present. When no further
character starts before t_last + T_EOF, n >= 1 characters end the frame then if that is no later than the deadline: READ_BYTES
completes OK and READ_INPUT_REGS goes to DECODE. Otherwise, and when no character can be received in time, the phase ends in
ReadTimeout at the deadline. RXLEN is n at a completion, and nothing else changes. In the untimed model (R119) the phase ends so once
the bytes of the chosen outcome are stored; an empty COMPLETE, which R119 does not allow, and a script that has run out are a
silent line (notes/assumptions/9.md). -/
def Obligations.ReadBytesEndsBySilenceOrTimeout : Prop :=
  ∀ (s : State) (i : Instr), i = .readBytes ∨ i = .readInputRegs →
    let m : Nat := if s.latch.op = 0x00000007 then 5 + 2 * s.latch.count.toNat else s.latch.len.toNat
    let tEof : Time := s.port.tLast + s.params.eofChars * charTime s
    let lenWritten (line : Line) : State :=
      { s with line := line, regs := { s.regs with rxLen := BitVec.ofNat 9 s.port.rxN } }
    let completes (line : Line) : Prop :=
      (i = .readBytes → exec i s = .next (complete .ok (lenWritten line))) ∧
      (i = .readInputRegs → exec i s = .next { s with line := line, phase := .decode, phaseAt := s.now })
    let timesOut (line : Line) : Prop := exec i s = .next (complete (.io .readTimeout) (lenWritten line))
    let timesOutAtDeadline : Prop := dueAt s = some (max s.now s.port.deadline) ∧ timesOut s.line
    let popped : Line := { s.line with rxChoices := s.line.rxChoices.tail }
    s.phase = .rxWait ∨ s.phase = .rxFrame →
    (isTimed s = true → s.line.present = true →
      (1 ≤ s.port.rxN → (∀ c, s.line.chars.head? = some c → tEof ≤ c.start) →
        (tEof ≤ s.port.deadline → dueAt s = some (max s.now tEof) ∧ completes s.line) ∧
        (s.port.deadline < tEof → timesOutAtDeadline)) ∧
      (s.port.rxN = 0 → s.line.chars = [] → timesOutAtDeadline) ∧
      (∀ c cs, s.line.chars = c :: cs → (1 ≤ s.port.rxN → c.start < tEof) →
        (s.port.deadline ≤ c.start ∨ s.port.deadline < c.start + charTime s) → timesOutAtDeadline)) ∧
    (isTimed s = false →
      dueAt s = some s.now ∧
      (∀ bs, s.line.rxChoices.head? = some (.complete bs) → bs ≠ [] → bs.length ≤ s.port.rxN ∨ m ≤ s.port.rxN →
        completes popped) ∧
      (∀ bs, s.line.rxChoices.head? = some (.timeout bs) → bs.length ≤ s.port.rxN ∨ m ≤ s.port.rxN + 1 →
        timesOut popped) ∧
      (s.line.rxChoices.head? = some (.complete []) ∨ s.line.rxChoices = [] → timesOut popped))

/-- R116 and R117 (d): in the RX phase of READ_BYTES and READ_INPUT_REGS a character with an error gives ReadFailed at its end, and a
line that drops gives it at once; RXLEN is the number of characters stored. In the untimed model (R119) FAILED(n) comes once the
bytes of the chosen outcome are stored, at most M-1 of them. -/
def Obligations.ReadBytesFailsOnErrorOrLineDrop : Prop :=
  ∀ (s : State) (i : Instr), i = .readBytes ∨ i = .readInputRegs → s.phase = .rxWait ∨ s.phase = .rxFrame →
    let m : Nat := if s.latch.op = 0x00000007 then 5 + 2 * s.latch.count.toNat else s.latch.len.toNat
    let fails (line : Line) : Prop :=
      exec i s = .next (complete (.io .readFailed)
        { s with line := line, regs := { s.regs with rxLen := BitVec.ofNat 9 s.port.rxN } })
    (isTimed s = true → s.line.present = false → dueAt s = some s.now ∧ fails s.line) ∧
    (isTimed s = true → s.line.present = true → ∀ c cs, s.line.chars = c :: cs →
      (c.framingErr = true ∨ (c.parityErr = true ∧ s.regs.cfgFrame.toNat / 16 % 4 ≠ 0)) →
      (1 ≤ s.port.rxN → c.start < s.port.tLast + s.params.eofChars * charTime s) →
      c.start < s.port.deadline → c.start + charTime s ≤ s.port.deadline →
      dueAt s = some (max s.now (c.start + charTime s)) ∧ fails { s.line with chars := cs }) ∧
    (isTimed s = false → ∀ bs, s.line.rxChoices.head? = some (.failed bs) →
      bs.length ≤ s.port.rxN ∨ m ≤ s.port.rxN + 1 →
      dueAt s = some s.now ∧ fails { s.line with rxChoices := s.line.rxChoices.tail })

/-- The machine's steps through an RX phase of READ_BYTES do what the arbiter of R116 does as a whole, on every line the spec allows:
its outcome, its time, the bytes stored from RXBUF[0] in arrival order, and RXLEN. -/
def Obligations.RxPhaseRefinesArbiter : Prop :=
  ∀ (s : State) (o : RxOutcome) (bs : List Byte) (tm : Time),
    s.phase = .rxWait → s.latch.op = 0x00000004 → isTimed s = true → s.line.present = true → s.env = [] →
    s.line.changes = [] → s.resets = [] → s.port.rxN = 0 → s.now ≤ s.port.deadline → s.regs.cfgBaud ≠ 0 → s.params.legal = true →
    1 ≤ s.latch.len.toNat → s.latch.len.toNat ≤ 256 →
    (∀ c ∈ s.line.chars, s.now ≤ c.start) → lineAllowed (charTime s) s.line.chars →
    arbiter s.regs (charTime s) (eofTime s) s.port.deadline s.latch.len.toNat s.line.chars 0 s.port.tLast = (o, bs, tm) →
    ∃ n t, Host.Core.run core n s = .next t ∧ completesAs (rxResult o) s t ∧ t.now = tm ∧
      t.regs = { s.regs with rxLen := BitVec.ofNat 9 bs.length } ∧
      Memory.readCells t.mem 0x500 bs.length = bs.map some ∧
      (∀ a, (∀ i, i < bs.length → a ≠ 0x500 + 4 * i) → Memory.read t.mem a = Memory.read s.mem a) ∧
      t.port.isOpen = s.port.isOpen

/-- R116, R117, R195: no wire phase outlasts its deadline; whatever the line does, the next step of TX, RX_WAIT or RX_FRAME is due by
then. R272: EXEC ends CMD_LATENCY after the acceptance, and DECODE CMD_LATENCY after it was entered. -/
def Obligations.WirePhasesEndByTheirDeadline : Prop :=
  ∀ s : State, isTimed s = true →
    (∀ d : Time, s.phase = .tx ∨ s.phase = .rxWait ∨ s.phase = .rxFrame → dueAt s = some d →
      d ≤ max s.now s.port.deadline) ∧
    (s.phase = .exec → dueAt s = some (max s.now (s.latch.t0 + s.params.cmdLatency))) ∧
    (s.phase = .decode → dueAt s = some (max s.now (s.phaseAt + s.params.cmdLatency)))

/-! ### The CRC generator and the codec -/

/-- R151: crcStep is eight rounds of the reflected polynomial 0xA001, crc16 folds it over the bytes from 0xFFFF, and a CRC is the low
byte, then the high byte on the wire. R150: the check value over "123456789" is 0x4B37. -/
def Obligations.CrcStepIsEightRounds : Prop :=
  (∀ (c : Half) (b : Byte),
    let round (x : Half) : Half := if x % 2 = 1 then (x >>> 1) ^^^ 0xA001 else x >>> 1
    crcStep c b = round (round (round (round (round (round (round (round (c ^^^ b.setWidth 16))))))))) ∧
  crc16 [] = 0xFFFF ∧ (∀ bs b, crc16 (bs ++ [b]) = crcStep (crc16 bs) b) ∧
  (∀ c : Half, crcBytes c = [BitVec.ofNat 8 c.toNat, BitVec.ofNat 8 (c.toNat / 256)]) ∧
  crc16 [0x31, 0x32, 0x33, 0x34, 0x35, 0x36, 0x37, 0x38, 0x39] = 0x4B37

/-- R152 and R153: CRC_INIT sets CRC_ACC to 0xFFFF and CRC_UPDATE steps it by RAW[7:0], ignoring RAW[15:8]; both complete OK and
change nothing else. -/
def Obligations.CrcCommandsWriteTheAccumulator : Prop :=
  ∀ s : State, s.phase = .exec →
    decodeCmd 0x0000000A = .crcInit ∧ decodeCmd 0x0000000B = .crcUpdate ∧
    exec .crcInit s = .next (complete .ok { s with regs := { s.regs with crcAcc := 0xFFFF } }) ∧
    exec .crcUpdate s =
      .next (complete .ok
        { s with regs := { s.regs with crcAcc := crcStep s.regs.crcAcc (BitVec.ofNat 8 s.latch.raw.toNat) } })

/-- R154: ENCODE_RIR writes the 8-byte request into TXBUF[0..7] for every SLAVE, START and COUNT, completes OK, and changes no
other byte of the buffers and no register; CRC_ACC is unchanged. -/
def Obligations.EncodeRirWritesTheRequest : Prop :=
  ∀ s : State, s.phase = .exec →
    let body : List Byte :=
      [s.latch.slave, 0x04, BitVec.ofNat 8 (s.latch.start.toNat / 256), BitVec.ofNat 8 s.latch.start.toNat,
        BitVec.ofNat 8 (s.latch.count.toNat / 256), BitVec.ofNat 8 s.latch.count.toNat]
    decodeCmd 0x00000005 = .encodeRir ∧
    ∃ t, exec .encodeRir s = .next t ∧ completesAs .ok s t ∧
      Memory.readCells t.mem 0x100 8 =
        (body ++ [BitVec.ofNat 8 (crc16 body).toNat, BitVec.ofNat 8 ((crc16 body).toNat / 256)]).map some ∧
      (∀ a, (∀ i, i < 8 → a ≠ 0x100 + 4 * i) → Memory.read t.mem a = Memory.read s.mem a) ∧
      t.regs = s.regs ∧ t.port = s.port ∧ keepsRest s t

/-- R158: a frame followed by its CRC, low byte first, leaves the remainder 0. -/
def Obligations.FrameWithItsCrcLeavesZero : Prop :=
  ∀ d : List Byte,
    crc16 (d ++ [BitVec.ofNat 8 (crc16 d).toNat, BitVec.ofNat 8 ((crc16 d).toNat / 256)]) = 0

/-- R155: the decoder's checks D1 to D8, in their order, on a frame whose cells all hold a byte; DIAG_CRC is taken from D3 on
(R156). -/
def Obligations.DecoderChecksInOrder : Prop :=
  ∀ (b : List Byte) (eS eF : Byte) (eC : Half),
    let n := b.length
    let comp := crc16 (b.take (n - 2))
    let recv : Half := BitVec.ofNat 16 (256 * (b.getD (n - 1) 0).toNat + (b.getD (n - 2) 0).toNat)
    let b1 := (b.getD 1 0).toNat
    let answers (res : Except FrameError (List Half)) : Prop :=
      decodeCells (b.map some) eS eF eC = some { diag := some (recv, comp), res := res }
    (n < 5 → decodeCells (b.map some) eS eF eC = some { diag := none, res := .error .truncated }) ∧
    (5 ≤ n → b1 < 128 → n < 5 + 2 * eC.toNat →
      decodeCells (b.map some) eS eF eC = some { diag := none, res := .error .truncated }) ∧
    (5 ≤ n → (128 ≤ b1 ∨ 5 + 2 * eC.toNat ≤ n) →
      (comp ≠ recv → answers (.error .crcMismatch)) ∧
      (comp = recv → b.getD 0 0 ≠ eS → answers (.error .slaveMismatch)) ∧
      (comp = recv → b.getD 0 0 = eS → b.getD 1 0 = (eF ||| 0x80) →
        answers (.error (.exceptionResponse (b.getD 2 0)))) ∧
      (comp = recv → b.getD 0 0 = eS → b.getD 1 0 ≠ (eF ||| 0x80) → b.getD 1 0 ≠ eF →
        answers (.error .functionMismatch)) ∧
      (comp = recv → b.getD 0 0 = eS → b.getD 1 0 ≠ (eF ||| 0x80) → b.getD 1 0 = eF →
        ((b.getD 2 0).toNat ≠ 2 * eC.toNat ∨ n ≠ 5 + 2 * eC.toNat) → answers (.error .truncated)) ∧
      (comp = recv → b.getD 0 0 = eS → b.getD 1 0 ≠ (eF ||| 0x80) → b.getD 1 0 = eF →
        (b.getD 2 0).toNat = 2 * eC.toNat → n = 5 + 2 * eC.toNat →
        answers (.ok ((List.range eC.toNat).map fun i =>
          BitVec.ofNat 16 (256 * (b.getD (3 + 2 * i) 0).toNat + (b.getD (4 + 2 * i) 0).toNat)))))

/-- R157: DECODE_RESP completes with the decode's result on RXBUF[0..LEN-1]. On Ok, RESULT[0..COUNT-1] and RESULT_COUNT hold the
values and every byte outside those cells is unchanged; on an error no byte of the buffers changes, RESULT_COUNT is 0 and
EXC_CODE is the exception's code. LEN > 256 gives BADARG and changes nothing else. -/
def Obligations.DecodeRespWritesItsResults : Prop :=
  ∀ s : State, s.phase = .exec →
    (256 < s.latch.len.toNat → exec .decodeResp s = .next (complete (.block .badArg) s)) ∧
    (s.latch.len.toNat ≤ 256 → ∀ out,
      decodeCells (Memory.readCells s.mem 0x500 s.latch.len.toNat) s.latch.slave s.latch.func s.latch.count = some out →
      ∃ t, exec .decodeResp s = .next t ∧ t.port = s.port ∧ keepsRest s t ∧ t.regs.crcAcc = s.regs.crcAcc ∧
        t.regs.rxLen = s.regs.rxLen ∧ t.regs.scale = s.regs.scale ∧
        (∀ recv comp, out.diag = some (recv, comp) → t.regs.diagRecv = recv ∧ t.regs.diagCalc = comp) ∧
        (out.diag = none → t.regs.diagRecv = s.regs.diagRecv ∧ t.regs.diagCalc = s.regs.diagCalc) ∧
        (∀ vs, out.res = .ok vs → completesAs .ok s t ∧ vs.length = s.latch.count.toNat ∧ vs.length ≤ 125 ∧
          t.regs.resultCount.toNat = vs.length ∧
          (∀ i v, vs[i]? = some v → Memory.readHalf t.mem (0x900 + 4 * i) = some v) ∧
          (∀ a, (∀ i, i < vs.length → a ≠ 0x900 + 4 * i ∧ a ≠ 0x901 + 4 * i) →
            Memory.read t.mem a = Memory.read s.mem a)) ∧
        (∀ e, out.res = .error e → completesAs (.protocol e) s t ∧ t.regs.resultCount = 0 ∧ keepsMem s t))

/-- R50: DECODE_RESP, and the commands that send, stop on a cell they use that was never written since reset, naming the first such
cell; a cell they do not use stops nothing. Which cells a decode uses is read from R155 (notes/assumptions/7.md): none when
LEN < 5, RXBUF[1] alone when D2 answers, all of RXBUF[0..LEN-1] from D3 on. A transmission uses the cell of the character it sends
or cuts off, in the timed and in the untimed model. -/
def Obligations.UnwrittenCellStopsItsUse : Prop :=
  ∀ s : State,
    let len := s.latch.len.toNat
    let expected := 5 + 2 * s.latch.count.toNat
    let cell (i : Nat) : Option Byte := Memory.read s.mem (0x500 + 4 * i)
    let truncates : Prop :=
      ∃ t, exec .decodeResp s = .next t ∧ completesAs (.protocol .truncated) s t ∧ t.regs.resultCount = 0 ∧ keepsMem s t
    let sk : Time := s.phaseAt + (s.port.txK : Time) * charTime s
    let ek : Time := sk + charTime s
    let n : Nat := if s.latch.op = 0x00000007 then 8 else s.latch.len.toNat
    let ended (k : Nat) : Prop := k ≤ s.port.txK ∨ n ≤ s.port.txK + 1
    let stops (i : Instr) : Prop := exec i s = .fault (.unwrittenCell (0x100 + 4 * s.port.txK))
    (s.phase = .exec → len ≤ 256 →
      (len < 5 → truncates) ∧
      (∀ b1, 5 ≤ len → cell 1 = some b1 → b1.toNat < 128 → len < expected → truncates) ∧
      (∀ g, 5 ≤ len → g < len → cell g = none →
        cell 1 = none ∨ (∃ b1, cell 1 = some b1 ∧ (128 ≤ b1.toNat ∨ expected ≤ len)) →
        ∃ j, j ≤ g ∧ cell j = none ∧ (∀ i, i < j → cell i ≠ none) ∧
          exec .decodeResp s = .fault (.unwrittenCell (0x500 + 4 * j))) ∧
      ((∀ i, i < len → cell i ≠ none) → ∃ t, exec .decodeResp s = .next t)) ∧
    (∀ i, i = .writeBytes ∨ i = .readInputRegs → s.phase = .tx →
      Memory.read s.mem (0x100 + 4 * s.port.txK) = none →
      (isTimed s = true → s.line.present = true → ek ≤ s.port.deadline → stops i) ∧
      (isTimed s = true → s.line.present = false → ek ≤ s.port.deadline → sk < s.now → stops i) ∧
      (isTimed s = false → s.line.txChoices = [] ∨ s.line.txChoices.head? = some .ok → s.port.txK < n → stops i) ∧
      (isTimed s = false → ∀ k, s.line.txChoices.head? = some (.timeout k) → ¬ ended k → stops i) ∧
      (isTimed s = false → ∀ k c, s.line.txChoices.head? = some (.failed k c) → ¬ ended k ∨ c = true → stops i))

/-- R159 (a): a normal frame with a correct CRC decodes to Ok with the embedded values. -/
def Obligations.NormalResponseRoundTrip : Prop :=
  ∀ (eS eF bc : Byte) (regs : List Half) (eC : Half),
    eF.toNat < 128 → regs.length ≤ 125 → eC.toNat = regs.length → bc.toNat = 2 * regs.length →
    let body : List Byte := eS :: eF :: bc :: regBytes regs
    decodeCells ((body ++ crcBytes (crc16 body)).map some) eS eF eC =
      some { diag := some (crc16 body, crc16 body), res := .ok regs }

/-- R159 (b): flipping any one bit of such a frame, in any byte, gives CrcMismatch. -/
def Obligations.SingleBitFlipIsCrcMismatch : Prop :=
  ∀ (eS eF bc : Byte) (regs : List Half) (eC : Half) (i j : Nat) (x : Byte) (dS dF : Byte),
    eF.toNat < 128 → regs.length ≤ 125 → eC.toNat = regs.length → bc.toNat = 2 * regs.length →
    let frame : List Byte := (eS :: eF :: bc :: regBytes regs) ++ crcBytes (crc16 (eS :: eF :: bc :: regBytes regs))
    frame[i]? = some x → j < 8 →
    ∃ diag, decodeCells ((frame.set i (x ^^^ BitVec.ofNat 8 (2 ^ j))).map some) dS dF eC =
      some { diag := some diag, res := .error .crcMismatch }

/-- R159 (c): an exception frame with a correct CRC gives ExceptionResponse(code) for every expected count; flipping bit 7 of its
byte 1 gives Truncated when a register is expected, and every other single-bit flip gives CrcMismatch. -/
def Obligations.ExceptionFrameIsReported : Prop :=
  ∀ (eS eF code : Byte) (eC : Half),
    let body : List Byte := [eS, eF ||| 0x80, code]
    let frame : List Byte := body ++ crcBytes (crc16 body)
    (decodeCells (frame.map some) eS eF eC =
      some { diag := some (crc16 body, crc16 body), res := .error (.exceptionResponse code) }) ∧
    (1 ≤ eC.toNat →
      decodeCells ((frame.set 1 ((eF ||| 0x80) ^^^ 0x80)).map some) eS eF eC =
        some { diag := none, res := .error .truncated }) ∧
    (∀ i j x, frame[i]? = some x → j < 8 → ¬ (i = 1 ∧ j = 7) →
      ∃ diag, decodeCells ((frame.set i (x ^^^ BitVec.ofNat 8 (2 ^ j))).map some) eS eF eC =
        some { diag := some diag, res := .error .crcMismatch })

/-! ### READ_INPUT_REGS -/

/-- R190 steps 1 and 2, R191: SLAVE outside 1 to 247 or COUNT outside 1 to 125 completes with BADARG and changes nothing else. With
legal arguments the request is in TXBUF[0..7] from the acceptance on, no other byte of the buffers changes, and the gap begins
if the transport is open; a closed transport ends the command with Io(WriteFailed), the request kept. That the request is laid in
the step of the acceptance itself is the model's reading (notes/assumptions/11.md). -/
def Obligations.ReadInputRegsChecksThenEncodes : Prop :=
  ∀ s : State,
    let legal (slave : Byte) (count : Half) : Prop :=
      1 ≤ slave.toNat ∧ slave.toNat ≤ 247 ∧ 1 ≤ count.toNat ∧ count.toNat ≤ 125
    (s.phase = .idle → ¬ legal s.regs.argSlave s.regs.argCount →
      exec .readInputRegs s = .next (accept 0x00000007 .exec s)) ∧
    (s.phase = .exec → ¬ legal s.latch.slave s.latch.count →
      exec .readInputRegs s = .next (complete (.block .badArg) s)) ∧
    (s.phase = .idle → legal s.regs.argSlave s.regs.argCount →
      ∃ t, exec .readInputRegs s = .next t ∧
        Memory.readCells t.mem 0x100 8 =
          (requestBytes s.regs.argSlave s.regs.argStart s.regs.argCount
            (crc16 (requestBody s.regs.argSlave s.regs.argStart s.regs.argCount))).map some ∧
        (∀ a, (∀ i, i < 8 → a ≠ 0x100 + 4 * i) → Memory.read t.mem a = Memory.read s.mem a) ∧
        t = { accept 0x00000007 (if s.port.isOpen = true then .txGap else .exec) s with mem := t.mem }) ∧
    (s.phase = .exec → legal s.latch.slave s.latch.count → s.port.isOpen = false →
      exec .readInputRegs s = .next (complete (.io .writeFailed) s))

/-- R190 steps 2 and 3, R115: when the eighth character of the request has been sent, READ_INPUT_REGS starts its RX phase at the time of
the TX outcome: nothing received, the deadline RTO ms later, the receiver enabled, characters that started before dropped. In the
untimed model (R119) that is when the line has chosen OK, or its script has run out (notes/assumptions/9.md). -/
def Obligations.ReadInputRegsReceivesAfterSending : Prop :=
  ∀ (s : State) (b : Byte),
    let timed : Prop := isTimed s = true
    let sk : Time := if timed then s.phaseAt + (7 : Time) * charTime s else s.now
    let ek : Time := if timed then sk + charTime s else s.now
    s.phase = .tx → s.latch.op = 0x00000007 → s.port.txK = 7 →
    (timed → s.line.present = true ∧ ek ≤ s.port.deadline) →
    (¬ timed → s.line.txChoices = [] ∨ s.line.txChoices.head? = some .ok) →
    Memory.read s.mem 0x11C = some b →
    dueAt s = some (max s.now ek) ∧
    exec .readInputRegs s = .next { s with
      phase := .rxWait
      phaseAt := s.now
      port := { s.port with tLast := ek, txK := 8, rxN := 0,
                            deadline := s.now + (s.regs.cfgRtoMs.toNat : Time) / 1000 }
      line := { s.line with
        txChoices := if timed then s.line.txChoices else s.line.txChoices.tail
        chars := s.line.chars.filter (fun c => decide (s.now ≤ c.start)) }
      seen := { s.seen with wire := s.seen.wire ++
        [{ byte := b, bits := charBits s.regs b, start := sk, stop := ek, whole := true }] } }

/-- R190: how each outcome of the receive arbiter continues READ_INPUT_REGS: a complete frame goes to DECODE; TIMEOUT and FAILED end it
with Io(ReadTimeout) and Io(ReadFailed), with RXLEN the number of bytes received (R193). -/
def Obligations.ReadInputRegsMapsRxOutcomes : Prop :=
  ∀ (s t : State), s.phase = .rxWait ∨ s.phase = .rxFrame →
    let lenWritten : State := { t with regs := { t.regs with rxLen := BitVec.ofNat 9 t.port.rxN } }
    (rxStep s = (none, t) → exec .readInputRegs s = .next t) ∧
    (rxStep s = (some .complete, t) → exec .readInputRegs s = .next { t with phase := .decode, phaseAt := t.now }) ∧
    (rxStep s = (some .timeout, t) → exec .readInputRegs s = .next (complete (.io .readTimeout) lenWritten)) ∧
    (rxStep s = (some .failed, t) → exec .readInputRegs s = .next (complete (.io .readFailed) lenWritten))

/-- R190 steps 4 and 5, R157: from DECODE, READ_INPUT_REGS completes with the decode of RXBUF[0..n-1] for function 0x04, RXLEN = n. On
Ok the values are in RESULT[0..COUNT-1] and RESULT_COUNT = COUNT; on an error RESULT is untouched and RESULT_COUNT = 0. DIAG_CRC
holds both CRCs when the decode reached D3, and is unchanged otherwise (R156). -/
def Obligations.ReadInputRegsDecodesAndCompletes : Prop :=
  ∀ (s : State) (b : List Byte), s.phase = .decode → s.port.rxN = b.length → b.length ≤ 256 →
    Memory.readCells s.mem 0x500 b.length = b.map some →
    ∃ out t, decodeCells (b.map some) s.latch.slave 0x04 s.latch.count = some out ∧
      exec .readInputRegs s = .next t ∧ t.port = s.port ∧ keepsRest s t ∧ t.regs.crcAcc = s.regs.crcAcc ∧
      t.regs.scale = s.regs.scale ∧ t.regs.rxLen.toNat = b.length ∧
      (∀ recv comp, out.diag = some (recv, comp) → t.regs.diagRecv = recv ∧ t.regs.diagCalc = comp) ∧
      (out.diag = none → t.regs.diagRecv = s.regs.diagRecv ∧ t.regs.diagCalc = s.regs.diagCalc) ∧
      (∀ vs, out.res = .ok vs → completesAs .ok s t ∧ t.regs.resultCount.toNat = s.latch.count.toNat ∧
        (∀ i v, vs[i]? = some v → Memory.readHalf t.mem (0x900 + 4 * i) = some v) ∧
        (∀ a, (∀ i, i < vs.length → a ≠ 0x900 + 4 * i ∧ a ≠ 0x901 + 4 * i) →
          Memory.read t.mem a = Memory.read s.mem a)) ∧
      (∀ e, out.res = .error e → completesAs (.protocol e) s t ∧ t.regs.resultCount = 0 ∧ keepsMem s t)

/-- R264 item 4: READ_INPUT_REGS writes its own TXBUF and RXBUF cells, so that from a sound state no step of it meets an unwritten
cell. -/
def Obligations.ReadInputRegsNeverFaults : Prop :=
  ∀ s : State, Sound s → s.latch.op = 0x00000007 → nextTurn s = .sequencer → ∃ t, step s = .next t

/-! ### The frames -/

/-- R95, R98: outside a decode the block looks at no received frame, so that a response changes nothing; a request frame is laid in
TXBUF[0..7] as the encoder lays it (R154), and nothing else changes. The view of a frame as an instruction is the model's
(notes/assumptions/4.md). -/
def Obligations.FramesOutsideADecode : Prop :=
  ∀ (slave x : Byte) (regs : List Half) (start count crc : Half) (s : State),
    ¬ (s.phase = .decode ∧ s.latch.op = 0x00000007) →
    ¬ (s.phase = .exec ∧ s.latch.op = 0x00000006 ∧ s.latch.len.toNat ≤ 256) →
    exec (.rtuRspNormal slave x regs crc) s = .next s ∧ exec (.rtuRspException slave x crc) s = .next s ∧
    ∃ t, exec (.rtuReqReadInputRegs slave start count crc) s = .next t ∧
      Memory.readCells t.mem 0x100 8 =
        [some slave, some 0x04, some (BitVec.ofNat 8 (start.toNat / 256)), some (BitVec.ofNat 8 start.toNat),
          some (BitVec.ofNat 8 (count.toNat / 256)), some (BitVec.ofNat 8 count.toNat),
          some (BitVec.ofNat 8 crc.toNat), some (BitVec.ofNat 8 (crc.toNat / 256))] ∧
      (∀ a, (∀ i, i < 8 → a ≠ 0x100 + 4 * i) → Memory.read t.mem a = Memory.read s.mem a) ∧
      t = { s with mem := t.mem }

/-- R96, R155 D8, R157: in DECODE, the normal response to the latched request, with a correct CRC, completes READ_INPUT_REGS with OK:
its registers in RESULT, their count in RESULT_COUNT, both CRCs in DIAG_CRC (R156), the received length in RXLEN (R190). That the
frame is run as an instruction, which is then the decode step, is the model's view (notes/assumptions/4.md). -/
def Obligations.NormalResponseCompletesTheRead : Prop :=
  ∀ (s : State) (byteCount : Byte) (regs : List Half),
    s.phase = .decode → s.latch.op = 0x00000007 → regs.length ≤ 125 → s.latch.count.toNat = regs.length →
    byteCount.toNat = 2 * regs.length →
    let crc := crc16 (s.latch.slave :: 0x04 :: byteCount :: regBytes regs)
    ∃ t, exec (.rtuRspNormal s.latch.slave byteCount regs crc) s = .next t ∧
      completesAs .ok s t ∧
      t.regs = { s.regs with
        resultCount := BitVec.ofNat 8 regs.length
        rxLen := BitVec.ofNat 9 s.port.rxN
        diagCalc := crc
        diagRecv := crc } ∧
      (∀ i v, regs[i]? = some v → Memory.readHalf t.mem (0x900 + 4 * i) = some v) ∧
      (∀ a, (∀ i, i < regs.length → a ≠ 0x900 + 4 * i ∧ a ≠ 0x901 + 4 * i) →
        Memory.read t.mem a = Memory.read s.mem a) ∧
      t.port = s.port ∧ keepsRest s t

/-- R97, R155 D5: in DECODE, an exception response with a correct CRC completes READ_INPUT_REGS with Protocol(ExceptionResponse), its
code in EXC_CODE; no register is decoded (R157). That the frame is run as an instruction, which is then the decode step, is the
model's view (notes/assumptions/4.md). -/
def Obligations.ExceptionResponseCompletesTheRead : Prop :=
  ∀ (s : State) (code : Byte), s.phase = .decode → s.latch.op = 0x00000007 →
    let crc := crc16 [s.latch.slave, 0x84, code]
    exec (.rtuRspException s.latch.slave code crc) s =
      .next (complete (.protocol (.exceptionResponse code))
        { s with regs := { s.regs with
            resultCount := 0
            rxLen := BitVec.ofNat 9 s.port.rxN
            diagCalc := crc
            diagRecv := crc } })

/-! ### The scaler -/

/-- R210, R212, R213: DECODE_TEMP takes RAW as signed and DECODE_HUM as unsigned; both write every scaler output, complete OK and
change nothing else. -/
def Obligations.ScalerWritesItsOutputs : Prop :=
  ∀ s : State, s.phase = .exec →
    let raw := s.latch.raw.toNat
    let temp : Int := if raw < 0x8000 then (raw : Int) else (raw : Int) - 0x10000
    let outputs (x : Int) (kind : Bool) : ScaleRegs :=
      { x100 := BitVec.ofInt 32 x, int := BitVec.ofInt 32 (x.tdiv 100), frac := BitVec.ofNat 7 (x.natAbs % 100),
        neg := decide (x < 0), kind := kind,
        f64Lo := BitVec.ofNat 32 (binary64Hundredths x).toNat,
        f64Hi := BitVec.ofNat 32 ((binary64Hundredths x).toNat / 2 ^ 32) }
    decodeCmd 0x00000008 = .decodeTemp ∧ decodeCmd 0x00000009 = .decodeHum ∧
    exec .decodeTemp s = .next (complete .ok { s with regs := { s.regs with scale := outputs temp false } }) ∧
    exec .decodeHum s = .next (complete .ok { s with regs := { s.regs with scale := outputs (raw : Int) true } })

/-- R211: for every x a raw word gives, the output is the encoding of the binary64 number nearest to x/100, ties to even: +0.0 for 0,
otherwise the sign bit 63 for x < 0, a 53-bit significand over 2^k, and the biased exponent 1075 - k, never a subnormal. -/
def Obligations.Binary64IsNearestToHundredths : Prop :=
  ∀ x : Int, -32768 ≤ x → x ≤ 65535 →
    (x = 0 → binary64Hundredths x = 0x0000000000000000) ∧
    (x ≠ 0 → ∃ k sig : Nat, 43 ≤ k ∧ k ≤ 59 ∧ 2 ^ 52 ≤ sig ∧ sig < 2 ^ 53 ∧
      (binary64Hundredths x).toNat = (if x < 0 then 2 ^ 63 else 0) + (1075 - k) * 2 ^ 52 + (sig - 2 ^ 52) ∧
      2 * ((100 * sig : Nat) : Int) - 2 * ((x.natAbs * 2 ^ k : Nat) : Int) ≤ 100 ∧
      2 * ((x.natAbs * 2 ^ k : Nat) : Int) - 2 * ((100 * sig : Nat) : Int) ≤ 100 ∧
      ((2 * (((100 * sig : Nat) : Int) - ((x.natAbs * 2 ^ k : Nat) : Int))).natAbs = 100 → sig % 2 = 0))

/-- R210: the integer outputs give the exact value: |SCALE_INT| * 100 + SCALE_FRAC is |x|, NEG is its sign, and SCALE_X100 is x, for every
x a raw word gives. -/
def Obligations.ScaleOutputsAreExact : Prop :=
  ∀ (x : Int) (kind : Bool), -32768 ≤ x → x ≤ 65535 →
    let r := scaleRegs x kind
    r.x100.toInt = x ∧ 100 * r.int.toInt.natAbs + r.frac.toNat = x.natAbs ∧ r.frac.toNat ≤ 99 ∧
      (r.neg = true ↔ x < 0) ∧ (0 < r.int.toInt → r.neg = false) ∧ (r.int.toInt < 0 → r.neg = true) ∧ r.kind = kind

/-! ### The host port -/

/-- R23, R24, R25, R26, R34 to R36, R38 to R43, R45: the value each register of the map holds, at its offset, every reserved bit and
every reserved offset being 0. -/
def Obligations.RegisterReadsShowTheirFields : Prop :=
  ∀ s : State,
    let value (off : BitVec 12) : Option Nat := (regValue (regAt off) s).map BitVec.toNat
    (∃ w, regValue (regAt 0x004) s = some w ∧
      w.getLsbD 0 = busy s ∧ w.getLsbD 1 = s.status.done ∧ w.getLsbD 2 = s.port.isOpen ∧ w.getLsbD 3 = s.status.reject ∧
      w.extractLsb' 4 4 = 0 ∧ w.extractLsb' 8 2 = s.status.cls ∧ w.extractLsb' 10 2 = 0 ∧
      w.extractLsb' 12 4 = s.status.code ∧ w.extractLsb' 16 8 = s.status.lastOp ∧
      w.extractLsb' 24 8 = s.status.excCode) ∧
    value 0x000 = some 0 ∧ value 0x008 = some s.regs.cfgBaud.toNat ∧ value 0x00C = some s.regs.cfgFrame.toNat ∧
    value 0x010 = some s.regs.cfgRtoMs.toNat ∧ value 0x014 = some s.regs.cfgWtoMs.toNat ∧
    value 0x018 = some s.regs.argSlave.toNat ∧ value 0x01C = some s.regs.argFunc.toNat ∧
    value 0x020 = some s.regs.argStart.toNat ∧ value 0x024 = some s.regs.argCount.toNat ∧
    value 0x028 = some s.regs.argLen.toNat ∧ value 0x02C = some s.regs.argRaw.toNat ∧
    value 0x030 = some s.regs.crcAcc.toNat ∧ value 0x034 = some s.regs.rxLen.toNat ∧
    value 0x038 = some s.regs.resultCount.toNat ∧
    value 0x03C = some (0x10000 * s.regs.diagRecv.toNat + s.regs.diagCalc.toNat) ∧
    value 0x040 = some s.regs.scale.x100.toNat ∧ value 0x044 = some s.regs.scale.int.toNat ∧
    value 0x048 = some s.regs.scale.frac.toNat ∧
    value 0x04C = some ((if s.regs.scale.kind = true then 2 else 0) + (if s.regs.scale.neg = true then 1 else 0)) ∧
    value 0x050 = some s.regs.scale.f64Lo.toNat ∧ value 0x054 = some s.regs.scale.f64Hi.toNat ∧
    value 0x058 = some (if s.line.present = true then 1 else 0) ∧
    (∀ off : BitVec 12, (0x05C ≤ off.toNat ∧ off.toNat < 0x100) ∨ 0xAF4 ≤ off.toNat → value off = some 0) ∧
    (∀ (off : BitVec 12) (i : Nat), i < 512 → off.toNat = 0x100 + 4 * i →
      value off = (Memory.read s.mem (0x100 + 4 * i)).map BitVec.toNat) ∧
    (∀ (off : BitVec 12) (i : Nat), i < 125 → off.toNat = 0x900 + 4 * i →
      value off = (Memory.readHalf s.mem (0x900 + 4 * i)).map BitVec.toNat)

/-- R25: a CMD write while BUSY = 1 is discarded and REJECT is set; nothing else of the block changes. -/
def Obligations.CmdWriteWhileBusyIsRejected : Prop :=
  ∀ (s : State) (v : Word), busy s = true → s.rst = false → nextTurn s = .host (.write 0x000 .b4 v) →
    ∃ t, step s = .next t ∧
      t = { s with
        env := s.env.tail
        resets := t.resets
        line := { s.line with changes := t.line.changes }
        status := { s.status with reject := true } } ∧
      (resetDue s = none → t.resets = s.resets) ∧ (lineDue s = none → t.line.changes = s.line.changes)

/-- R37 and R53: CFG_* writes while OPEN = 1 or BUSY = 1, and TXBUF and RXBUF writes while BUSY = 1, are discarded with REJECT; otherwise
they take effect, on the writable bits of one register (R34 to R36) or on one cell. -/
def Obligations.DiscardedWritesSetReject : Prop :=
  ∀ (s : State) (v : Word), s.rst = false →
    let rejected : Host.Outcome State Fault Refusal := .next { s with status := { s.status with reject := true } }
    (s.port.isOpen = true ∨ busy s = true →
      ∀ off : BitVec 12, off = 0x008 ∨ off = 0x00C ∨ off = 0x010 ∨ off = 0x014 →
        hostStep (.write off .b4 v) s = rejected) ∧
    (s.port.isOpen = false → busy s = false →
      hostStep (.write 0x008 .b4 v) s = .next { s with regs := { s.regs with cfgBaud := v } } ∧
      hostStep (.write 0x00C .b4 v) s = .next { s with regs := { s.regs with cfgFrame := BitVec.ofNat 8 v.toNat } } ∧
      hostStep (.write 0x010 .b4 v) s = .next { s with regs := { s.regs with cfgRtoMs := BitVec.ofNat 16 v.toNat } } ∧
      hostStep (.write 0x014 .b4 v) s = .next { s with regs := { s.regs with cfgWtoMs := BitVec.ofNat 16 v.toNat } }) ∧
    (∀ (off : BitVec 12) (i : Nat), i < 512 → off.toNat = 0x100 + 4 * i →
      (busy s = true → hostStep (.write off .b4 v) s = rejected) ∧
      (busy s = false → ∃ t, hostStep (.write off .b4 v) s = .next t ∧ t = { s with mem := t.mem } ∧
        Memory.read t.mem (0x100 + 4 * i) = some (BitVec.ofNat 8 v.toNat) ∧
        ∀ a, a ≠ 0x100 + 4 * i → Memory.read t.mem a = Memory.read s.mem a))

/-- R24, R26, R38: an ARG_* write takes effect at any time, sets no REJECT, and leaves the latches of the command in progress alone; a
write to a read-only register, a RESULT cell or a reserved offset has no effect and sets no REJECT; a write to STATUS clears REJECT
exactly when its bit 3 is 1, and does nothing else. -/
def Obligations.RegisterWritesTakeTheirEffect : Prop :=
  ∀ (s : State) (v : Word), s.rst = false →
    hostStep (.write 0x018 .b4 v) s = .next { s with regs := { s.regs with argSlave := BitVec.ofNat 8 v.toNat } } ∧
    hostStep (.write 0x01C .b4 v) s = .next { s with regs := { s.regs with argFunc := BitVec.ofNat 8 v.toNat } } ∧
    hostStep (.write 0x020 .b4 v) s = .next { s with regs := { s.regs with argStart := BitVec.ofNat 16 v.toNat } } ∧
    hostStep (.write 0x024 .b4 v) s = .next { s with regs := { s.regs with argCount := BitVec.ofNat 16 v.toNat } } ∧
    hostStep (.write 0x028 .b4 v) s = .next { s with regs := { s.regs with argLen := BitVec.ofNat 16 v.toNat } } ∧
    hostStep (.write 0x02C .b4 v) s = .next { s with regs := { s.regs with argRaw := BitVec.ofNat 16 v.toNat } } ∧
    (∀ off : BitVec 12, off.toNat % 4 = 0 → (0x030 ≤ off.toNat ∧ off.toNat < 0x100) ∨ 0x900 ≤ off.toNat →
      hostStep (.write off .b4 v) s = .next s) ∧
    hostStep (.write 0x004 .b4 v) s =
      .next (if v.toNat / 8 % 2 = 1 then { s with status := { s.status with reject := false } } else s)

/-- R52, R73, R74: an admitted host read of anything but a cell never written answers, and changes nothing of the block, only the record
of what the host has read. It returns the register's value, except that while BUSY = 1 a result register or a buffer cell returns
a fresh draw of its field's width: a free value. The form of the draw is the model's choice (notes/assumptions/3.md), and so is
leaving out the cells never written while BUSY = 1 (notes/assumptions/6.md). -/
def Obligations.HostReadsHaveNoSideEffect : Prop :=
  ∀ (s : State) (off : BitVec 12), off.toNat % 4 = 0 → regValue (regAt off) s ≠ none →
    let drawn : Prop :=
      (0x030 ≤ off.toNat ∧ off.toNat < 0x058) ∨ (0x100 ≤ off.toNat ∧ off.toNat < 0xAF4)
    let width : Nat :=
      if off.toNat = 0x030 then 16 else if off.toNat = 0x034 then 9 else if off.toNat = 0x038 then 8
      else if off.toNat = 0x048 then 7 else if off.toNat = 0x04C then 2 else if off.toNat < 0x100 then 32
      else if off.toNat < 0x900 then 8 else 16
    ∃ t v, hostStep (.read off .b4) s = .next t ∧
      t = { s with draws := t.draws, seen := { s.seen with reads := s.seen.reads ++ [{ off := off, value := v }] } } ∧
      (busy s = false ∨ ¬ drawn → regValue (regAt off) s = some v ∧ t.draws = s.draws) ∧
      (busy s = true → drawn →
        v = Config.freeDraw s.draws &&& BitVec.ofNat 32 (2 ^ width - 1) ∧ t.draws = s.draws + 1) ∧
      (drawn → v.toNat < 2 ^ width)

/-- R72: an access that is not a 32-bit access at a multiple of 4 is refused, and changes no state; that it stops the model is the
model's form (notes/assumptions/13.md). R50: a read of a cell never written since reset stops too, busy or not; that it does so
while BUSY = 1, where R52 gives an arbitrary value, is the model's reading (notes/assumptions/6.md). -/
def Obligations.RefusedAccessesStop : Prop :=
  ∀ (s : State) (off : BitVec 12) (w : Width) (v : Word),
    ((w ≠ .b4 ∨ off.toNat % 4 ≠ 0) →
      hostStep (.read off w) s = .fault (.refusedAccess off) ∧
      hostStep (.write off w v) s = .fault (.refusedAccess off)) ∧
    (off.toNat % 4 = 0 → 0x100 ≤ off.toNat → off.toNat < 0xAF4 → Memory.read s.mem off.toNat = none →
      hostStep (.read off .b4) s = .fault (.unwrittenCell off.toNat))

/-! ### Reset -/

/-- R261: the state after reset. -/
def Obligations.ResetHasTheSpecsValues : Prop := resetValues State.reset

/-- R260, R261, R262: asserting `rst` in any state is one step after which every piece of state has its reset value, a command in progress
is gone without a completion, and host writes are ignored until `rst` is released. A character in progress in TX is cut off on the
wire; where its cell was never written the model stops instead (R50). In the untimed model the line says whether a character was
in progress (notes/assumptions/8.md and notes/assumptions/9.md). -/
def Obligations.AssertingRstResetsEverything : Prop :=
  ∀ s : State, nextTurn s = .reset true →
    let sk : Time := s.phaseAt + (s.port.txK : Time) * charTime s
    let cutting : Prop :=
      s.phase = .tx ∧
        ((isTimed s = true ∧ sk < s.now ∧ sk + charTime s ≤ s.port.deadline) ∨
         (isTimed s = false ∧ ∃ k, s.line.txChoices.head? = some (.failed k true)))
    let cell : Option Byte := Memory.read s.mem (0x100 + 4 * s.port.txK)
    (¬ (cutting ∧ cell = none) →
      ∃ t, step s = .next t ∧ resetValues t ∧ t.rst = true ∧ t.params = s.params ∧ t.line.present = s.line.present ∧
        (∀ b, cutting → cell = some b →
          ∃ c, t.seen.wire.getLast? = some c ∧ c.byte = b ∧ c.whole = false ∧
            t.seen.wire.length = s.seen.wire.length + 1) ∧
        (¬ cutting → t.seen.wire.length = s.seen.wire.length) ∧
        ∀ v off, off.toNat % 4 = 0 → hostStep (.write off .b4 v) t = .next t) ∧
    (cutting → cell = none → step s = .fault (.unwrittenCell (0x100 + 4 * s.port.txK)))

/-! ### The whole machine -/

/-- The state after reset is sound. -/
def Obligations.ResetStateIsSound : Prop := Sound State.reset

/-- STATUS stays sound: R28, R31, R32 and R33 hold after every step. -/
def Obligations.EveryStepKeepsStatusSound : Prop :=
  ∀ s t : State, statusSound s → step s = .next t → statusSound t

/-- The buffers stay in canonical form, with nothing kept outside their cells. -/
def Obligations.EveryStepKeepsBuffersSound : Prop :=
  ∀ s t : State, sequencerSound s → buffersSound s → step s = .next t → buffersSound t

/-- A sound state steps to a sound state: the phases follow R44, an open transport keeps the configuration it opened with (R37), the
buffers and counters stay in their ranges, and READ_INPUT_REGS's frames stay where it put them. -/
def Obligations.EveryStepKeepsSound : Prop :=
  ∀ s t : State, Sound s → step s = .next t → Sound t

/-- R39, R40, R43, R45: which instructions write which result registers. -/
def Obligations.ResultRegistersHaveTheirWriters : Prop :=
  ∀ (i : Instr) (s t : State), exec i s = .next t →
    (t.regs.crcAcc ≠ s.regs.crcAcc → i = .crcInit ∨ i = .crcUpdate) ∧
    (t.regs.scale ≠ s.regs.scale → i = .decodeTemp ∨ i = .decodeHum) ∧
    (t.regs.rxLen ≠ s.regs.rxLen → i = .readBytes ∨ i = .readInputRegs ∨ s.phase = .decode) ∧
    (t.regs.resultCount ≠ s.regs.resultCount →
      i = .decodeResp ∨ i = .readInputRegs ∨ decoding s = true) ∧
    ((t.regs.diagCalc, t.regs.diagRecv) ≠ (s.regs.diagCalc, s.regs.diagRecv) →
      i = .decodeResp ∨ i = .readInputRegs ∨ decoding s = true) ∧
    ((∃ a, 0x900 ≤ a ∧ a < 0xAF4 ∧ Memory.read t.mem a ≠ Memory.read s.mem a) → sequencerSound s →
      i = .decodeResp ∨ i = .readInputRegs ∨ decoding s = true)

/-- R46, R83: the latches of a command in progress change in no step, whatever the host writes, until a reset. -/
def Obligations.CommandInProgressIsFixed : Prop :=
  ∀ s t : State, step s = .next t → busy s = true → nextTurn s ≠ .reset true → t.latch = s.latch

/-- R80: once a command has completed, no step changes its results until the next acceptance or a reset, but for the cells of TXBUF and
RXBUF, which the host may write. -/
def Obligations.ResultsStayUntilTheNextCommand : Prop :=
  ∀ s t : State, busy s = false → step s = .next t → (∀ v, nextTurn s ≠ .accept v) → nextTurn s ≠ .reset true →
    busy t = false ∧ keepsResultRegs s.regs t.regs ∧
      t.status = { s.status with reject := t.status.reject } ∧ t.port = s.port ∧
      (∀ a, 0x900 ≤ a → Memory.read t.mem a = Memory.read s.mem a)

/-- R110: only the Clock advances the time, and never backwards, but for a reset. -/
def Obligations.TimeNeverGoesBack : Prop :=
  ∀ s t : State, step s = .next t → nextTurn s ≠ .reset true →
    s.now ≤ t.now ∧ (t.now ≠ s.now → nextTurn s = .clock t.now)

/-- R195, and item 20 of spec/93_implementation_defined.md: a command never hangs. From a sound state with a command in progress and an
environment that leaves the inputs alone, whatever characters the line delivers, the command completes within a bounded number
of steps, or stops at the use of an unwritten cell. -/
def Obligations.EveryCommandEnds : Prop :=
  ∀ s : State, Sound s → s.env = [] → s.line.changes = [] → s.resets = [] → busy s = true →
    ∃ n, n ≤ 2048 ∧
      ((∃ t, Host.Core.run core n s = .next t ∧ busy t = false ∧ t.status.done = true) ∨
       (∃ a, Host.Core.run core n s = .fault (.unwrittenCell a)))
end

