-- ==== Sys2Proof/Laws/State.lean ====
section
/-! SUPPORT. One lemma per field of State per named update: what the field holds afterwards. -/

namespace Sys2Proof.Machine

/-! enterPhase -/

@[simp] theorem enterPhase_status (p : Phase) (s : State) : (enterPhase p s).status = s.status := rfl
@[simp] theorem enterPhase_regs (p : Phase) (s : State) : (enterPhase p s).regs = s.regs := rfl
@[simp] theorem enterPhase_mem (p : Phase) (s : State) : (enterPhase p s).mem = s.mem := rfl
@[simp] theorem enterPhase_phase (p : Phase) (s : State) : (enterPhase p s).phase = p := rfl
@[simp] theorem enterPhase_latch (p : Phase) (s : State) : (enterPhase p s).latch = s.latch := rfl
@[simp] theorem enterPhase_phaseAt (p : Phase) (s : State) : (enterPhase p s).phaseAt = s.now := rfl
@[simp] theorem enterPhase_port (p : Phase) (s : State) : (enterPhase p s).port = s.port := rfl
@[simp] theorem enterPhase_now (p : Phase) (s : State) : (enterPhase p s).now = s.now := rfl
@[simp] theorem enterPhase_rst (p : Phase) (s : State) : (enterPhase p s).rst = s.rst := rfl
@[simp] theorem enterPhase_resets (p : Phase) (s : State) : (enterPhase p s).resets = s.resets := rfl
@[simp] theorem enterPhase_line (p : Phase) (s : State) : (enterPhase p s).line = s.line := rfl
@[simp] theorem enterPhase_env (p : Phase) (s : State) : (enterPhase p s).env = s.env := rfl
@[simp] theorem enterPhase_params (p : Phase) (s : State) : (enterPhase p s).params = s.params := rfl
@[simp] theorem enterPhase_draws (p : Phase) (s : State) : (enterPhase p s).draws = s.draws := rfl
@[simp] theorem enterPhase_seen (p : Phase) (s : State) : (enterPhase p s).seen = s.seen := rfl

/-! accept -/

@[simp] theorem accept_status (v : Word) (p : Phase) (s : State) : (accept v p s).status = { s.status with done := false, cls := 0, code := 0, excCode := 0, lastOp := wordOpcode v } := rfl
@[simp] theorem accept_regs (v : Word) (p : Phase) (s : State) : (accept v p s).regs = s.regs := rfl
@[simp] theorem accept_mem (v : Word) (p : Phase) (s : State) : (accept v p s).mem = s.mem := rfl
@[simp] theorem accept_phase (v : Word) (p : Phase) (s : State) : (accept v p s).phase = p := rfl
@[simp] theorem accept_latch (v : Word) (p : Phase) (s : State) : (accept v p s).latch = latchArgs v s := rfl
@[simp] theorem accept_phaseAt (v : Word) (p : Phase) (s : State) : (accept v p s).phaseAt = s.now := rfl
@[simp] theorem accept_port (v : Word) (p : Phase) (s : State) : (accept v p s).port = s.port := rfl
@[simp] theorem accept_now (v : Word) (p : Phase) (s : State) : (accept v p s).now = s.now := rfl
@[simp] theorem accept_rst (v : Word) (p : Phase) (s : State) : (accept v p s).rst = s.rst := rfl
@[simp] theorem accept_resets (v : Word) (p : Phase) (s : State) : (accept v p s).resets = s.resets := rfl
@[simp] theorem accept_line (v : Word) (p : Phase) (s : State) : (accept v p s).line = s.line := rfl
@[simp] theorem accept_env (v : Word) (p : Phase) (s : State) : (accept v p s).env = s.env := rfl
@[simp] theorem accept_params (v : Word) (p : Phase) (s : State) : (accept v p s).params = s.params := rfl
@[simp] theorem accept_draws (v : Word) (p : Phase) (s : State) : (accept v p s).draws = s.draws := rfl
@[simp] theorem accept_seen (v : Word) (p : Phase) (s : State) : (accept v p s).seen = s.seen := rfl

/-! complete -/

@[simp] theorem complete_status (r : Result) (s : State) : (complete r s).status = { s.status with done := true, cls := resultClass r, code := resultCode r, excCode := resultExc r } := rfl
@[simp] theorem complete_regs (r : Result) (s : State) : (complete r s).regs = s.regs := rfl
@[simp] theorem complete_mem (r : Result) (s : State) : (complete r s).mem = s.mem := rfl
@[simp] theorem complete_phase (r : Result) (s : State) : (complete r s).phase = .idle := rfl
@[simp] theorem complete_latch (r : Result) (s : State) : (complete r s).latch = s.latch := rfl
@[simp] theorem complete_phaseAt (r : Result) (s : State) : (complete r s).phaseAt = s.phaseAt := rfl
@[simp] theorem complete_port (r : Result) (s : State) : (complete r s).port = s.port := rfl
@[simp] theorem complete_now (r : Result) (s : State) : (complete r s).now = s.now := rfl
@[simp] theorem complete_rst (r : Result) (s : State) : (complete r s).rst = s.rst := rfl
@[simp] theorem complete_resets (r : Result) (s : State) : (complete r s).resets = s.resets := rfl
@[simp] theorem complete_line (r : Result) (s : State) : (complete r s).line = s.line := rfl
@[simp] theorem complete_env (r : Result) (s : State) : (complete r s).env = s.env := rfl
@[simp] theorem complete_params (r : Result) (s : State) : (complete r s).params = s.params := rfl
@[simp] theorem complete_draws (r : Result) (s : State) : (complete r s).draws = s.draws := rfl
@[simp] theorem complete_seen (r : Result) (s : State) : (complete r s).seen = s.seen := rfl

/-! setReject -/

@[simp] theorem setReject_status (s : State) : (setReject s).status = { s.status with reject := true } := rfl
@[simp] theorem setReject_regs (s : State) : (setReject s).regs = s.regs := rfl
@[simp] theorem setReject_mem (s : State) : (setReject s).mem = s.mem := rfl
@[simp] theorem setReject_phase (s : State) : (setReject s).phase = s.phase := rfl
@[simp] theorem setReject_latch (s : State) : (setReject s).latch = s.latch := rfl
@[simp] theorem setReject_phaseAt (s : State) : (setReject s).phaseAt = s.phaseAt := rfl
@[simp] theorem setReject_port (s : State) : (setReject s).port = s.port := rfl
@[simp] theorem setReject_now (s : State) : (setReject s).now = s.now := rfl
@[simp] theorem setReject_rst (s : State) : (setReject s).rst = s.rst := rfl
@[simp] theorem setReject_resets (s : State) : (setReject s).resets = s.resets := rfl
@[simp] theorem setReject_line (s : State) : (setReject s).line = s.line := rfl
@[simp] theorem setReject_env (s : State) : (setReject s).env = s.env := rfl
@[simp] theorem setReject_params (s : State) : (setReject s).params = s.params := rfl
@[simp] theorem setReject_draws (s : State) : (setReject s).draws = s.draws := rfl
@[simp] theorem setReject_seen (s : State) : (setReject s).seen = s.seen := rfl

/-! storeTx -/

@[simp] theorem storeTx_status (bs : List Byte) (s : State) : (storeTx bs s).status = s.status := rfl
@[simp] theorem storeTx_regs (bs : List Byte) (s : State) : (storeTx bs s).regs = s.regs := rfl
@[simp] theorem storeTx_mem (bs : List Byte) (s : State) : (storeTx bs s).mem = Memory.writeCells s.mem (txAddr 0) bs := rfl
@[simp] theorem storeTx_phase (bs : List Byte) (s : State) : (storeTx bs s).phase = s.phase := rfl
@[simp] theorem storeTx_latch (bs : List Byte) (s : State) : (storeTx bs s).latch = s.latch := rfl
@[simp] theorem storeTx_phaseAt (bs : List Byte) (s : State) : (storeTx bs s).phaseAt = s.phaseAt := rfl
@[simp] theorem storeTx_port (bs : List Byte) (s : State) : (storeTx bs s).port = s.port := rfl
@[simp] theorem storeTx_now (bs : List Byte) (s : State) : (storeTx bs s).now = s.now := rfl
@[simp] theorem storeTx_rst (bs : List Byte) (s : State) : (storeTx bs s).rst = s.rst := rfl
@[simp] theorem storeTx_resets (bs : List Byte) (s : State) : (storeTx bs s).resets = s.resets := rfl
@[simp] theorem storeTx_line (bs : List Byte) (s : State) : (storeTx bs s).line = s.line := rfl
@[simp] theorem storeTx_env (bs : List Byte) (s : State) : (storeTx bs s).env = s.env := rfl
@[simp] theorem storeTx_params (bs : List Byte) (s : State) : (storeTx bs s).params = s.params := rfl
@[simp] theorem storeTx_draws (bs : List Byte) (s : State) : (storeTx bs s).draws = s.draws := rfl
@[simp] theorem storeTx_seen (bs : List Byte) (s : State) : (storeTx bs s).seen = s.seen := rfl

/-! storeRx -/

@[simp] theorem storeRx_status (n : Nat) (b : Byte) (s : State) : (storeRx n b s).status = s.status := rfl
@[simp] theorem storeRx_regs (n : Nat) (b : Byte) (s : State) : (storeRx n b s).regs = s.regs := rfl
@[simp] theorem storeRx_mem (n : Nat) (b : Byte) (s : State) : (storeRx n b s).mem = Memory.write s.mem (rxAddr n) b := rfl
@[simp] theorem storeRx_phase (n : Nat) (b : Byte) (s : State) : (storeRx n b s).phase = s.phase := rfl
@[simp] theorem storeRx_latch (n : Nat) (b : Byte) (s : State) : (storeRx n b s).latch = s.latch := rfl
@[simp] theorem storeRx_phaseAt (n : Nat) (b : Byte) (s : State) : (storeRx n b s).phaseAt = s.phaseAt := rfl
@[simp] theorem storeRx_port (n : Nat) (b : Byte) (s : State) : (storeRx n b s).port = s.port := rfl
@[simp] theorem storeRx_now (n : Nat) (b : Byte) (s : State) : (storeRx n b s).now = s.now := rfl
@[simp] theorem storeRx_rst (n : Nat) (b : Byte) (s : State) : (storeRx n b s).rst = s.rst := rfl
@[simp] theorem storeRx_resets (n : Nat) (b : Byte) (s : State) : (storeRx n b s).resets = s.resets := rfl
@[simp] theorem storeRx_line (n : Nat) (b : Byte) (s : State) : (storeRx n b s).line = s.line := rfl
@[simp] theorem storeRx_env (n : Nat) (b : Byte) (s : State) : (storeRx n b s).env = s.env := rfl
@[simp] theorem storeRx_params (n : Nat) (b : Byte) (s : State) : (storeRx n b s).params = s.params := rfl
@[simp] theorem storeRx_draws (n : Nat) (b : Byte) (s : State) : (storeRx n b s).draws = s.draws := rfl
@[simp] theorem storeRx_seen (n : Nat) (b : Byte) (s : State) : (storeRx n b s).seen = s.seen := rfl

/-! storeResult -/

@[simp] theorem storeResult_status (vs : List Half) (s : State) : (storeResult vs s).status = s.status := rfl
@[simp] theorem storeResult_regs (vs : List Half) (s : State) : (storeResult vs s).regs = s.regs := rfl
@[simp] theorem storeResult_mem (vs : List Half) (s : State) : (storeResult vs s).mem = Memory.writeHalves s.mem (resAddr 0) vs := rfl
@[simp] theorem storeResult_phase (vs : List Half) (s : State) : (storeResult vs s).phase = s.phase := rfl
@[simp] theorem storeResult_latch (vs : List Half) (s : State) : (storeResult vs s).latch = s.latch := rfl
@[simp] theorem storeResult_phaseAt (vs : List Half) (s : State) : (storeResult vs s).phaseAt = s.phaseAt := rfl
@[simp] theorem storeResult_port (vs : List Half) (s : State) : (storeResult vs s).port = s.port := rfl
@[simp] theorem storeResult_now (vs : List Half) (s : State) : (storeResult vs s).now = s.now := rfl
@[simp] theorem storeResult_rst (vs : List Half) (s : State) : (storeResult vs s).rst = s.rst := rfl
@[simp] theorem storeResult_resets (vs : List Half) (s : State) : (storeResult vs s).resets = s.resets := rfl
@[simp] theorem storeResult_line (vs : List Half) (s : State) : (storeResult vs s).line = s.line := rfl
@[simp] theorem storeResult_env (vs : List Half) (s : State) : (storeResult vs s).env = s.env := rfl
@[simp] theorem storeResult_params (vs : List Half) (s : State) : (storeResult vs s).params = s.params := rfl
@[simp] theorem storeResult_draws (vs : List Half) (s : State) : (storeResult vs s).draws = s.draws := rfl
@[simp] theorem storeResult_seen (vs : List Half) (s : State) : (storeResult vs s).seen = s.seen := rfl

/-! enterTx -/

@[simp] theorem enterTx_status (s : State) : (enterTx s).status = s.status := rfl
@[simp] theorem enterTx_regs (s : State) : (enterTx s).regs = s.regs := rfl
@[simp] theorem enterTx_mem (s : State) : (enterTx s).mem = s.mem := rfl
@[simp] theorem enterTx_phase (s : State) : (enterTx s).phase = .tx := rfl
@[simp] theorem enterTx_latch (s : State) : (enterTx s).latch = s.latch := rfl
@[simp] theorem enterTx_phaseAt (s : State) : (enterTx s).phaseAt = s.now := rfl
@[simp] theorem enterTx_port (s : State) : (enterTx s).port = { s.port with txK := 0, deadline := s.now + msTime s.regs.cfgWtoMs } := rfl
@[simp] theorem enterTx_now (s : State) : (enterTx s).now = s.now := rfl
@[simp] theorem enterTx_rst (s : State) : (enterTx s).rst = s.rst := rfl
@[simp] theorem enterTx_resets (s : State) : (enterTx s).resets = s.resets := rfl
@[simp] theorem enterTx_line (s : State) : (enterTx s).line = s.line := rfl
@[simp] theorem enterTx_env (s : State) : (enterTx s).env = s.env := rfl
@[simp] theorem enterTx_params (s : State) : (enterTx s).params = s.params := rfl
@[simp] theorem enterTx_draws (s : State) : (enterTx s).draws = s.draws := rfl
@[simp] theorem enterTx_seen (s : State) : (enterTx s).seen = s.seen := rfl

/-! enterRx -/

@[simp] theorem enterRx_status (s : State) : (enterRx s).status = s.status := rfl
@[simp] theorem enterRx_regs (s : State) : (enterRx s).regs = s.regs := rfl
@[simp] theorem enterRx_mem (s : State) : (enterRx s).mem = s.mem := rfl
@[simp] theorem enterRx_phase (s : State) : (enterRx s).phase = .rxWait := rfl
@[simp] theorem enterRx_latch (s : State) : (enterRx s).latch = s.latch := rfl
@[simp] theorem enterRx_phaseAt (s : State) : (enterRx s).phaseAt = s.now := rfl
@[simp] theorem enterRx_port (s : State) : (enterRx s).port = { s.port with rxN := 0, deadline := s.now + msTime s.regs.cfgRtoMs } := rfl
@[simp] theorem enterRx_now (s : State) : (enterRx s).now = s.now := rfl
@[simp] theorem enterRx_rst (s : State) : (enterRx s).rst = s.rst := rfl
@[simp] theorem enterRx_resets (s : State) : (enterRx s).resets = s.resets := rfl
@[simp] theorem enterRx_line (s : State) : (enterRx s).line = { s.line with chars := s.line.chars.filter (fun c => decide (s.now ≤ c.start)) } := rfl
@[simp] theorem enterRx_env (s : State) : (enterRx s).env = s.env := rfl
@[simp] theorem enterRx_params (s : State) : (enterRx s).params = s.params := rfl
@[simp] theorem enterRx_draws (s : State) : (enterRx s).draws = s.draws := rfl
@[simp] theorem enterRx_seen (s : State) : (enterRx s).seen = s.seen := rfl

/-! putWire -/

@[simp] theorem putWire_status (c : TxChar) (s : State) : (putWire c s).status = s.status := rfl
@[simp] theorem putWire_regs (c : TxChar) (s : State) : (putWire c s).regs = s.regs := rfl
@[simp] theorem putWire_mem (c : TxChar) (s : State) : (putWire c s).mem = s.mem := rfl
@[simp] theorem putWire_phase (c : TxChar) (s : State) : (putWire c s).phase = s.phase := rfl
@[simp] theorem putWire_latch (c : TxChar) (s : State) : (putWire c s).latch = s.latch := rfl
@[simp] theorem putWire_phaseAt (c : TxChar) (s : State) : (putWire c s).phaseAt = s.phaseAt := rfl
@[simp] theorem putWire_port (c : TxChar) (s : State) : (putWire c s).port = s.port := rfl
@[simp] theorem putWire_now (c : TxChar) (s : State) : (putWire c s).now = s.now := rfl
@[simp] theorem putWire_rst (c : TxChar) (s : State) : (putWire c s).rst = s.rst := rfl
@[simp] theorem putWire_resets (c : TxChar) (s : State) : (putWire c s).resets = s.resets := rfl
@[simp] theorem putWire_line (c : TxChar) (s : State) : (putWire c s).line = s.line := rfl
@[simp] theorem putWire_env (c : TxChar) (s : State) : (putWire c s).env = s.env := rfl
@[simp] theorem putWire_params (c : TxChar) (s : State) : (putWire c s).params = s.params := rfl
@[simp] theorem putWire_draws (c : TxChar) (s : State) : (putWire c s).draws = s.draws := rfl
@[simp] theorem putWire_seen (c : TxChar) (s : State) : (putWire c s).seen = { s.seen with wire := s.seen.wire ++ [c] } := rfl

/-! sendChar -/

@[simp] theorem sendChar_status (b : Byte) (s : State) : (sendChar b s).status = s.status := rfl
@[simp] theorem sendChar_regs (b : Byte) (s : State) : (sendChar b s).regs = s.regs := rfl
@[simp] theorem sendChar_mem (b : Byte) (s : State) : (sendChar b s).mem = s.mem := rfl
@[simp] theorem sendChar_phase (b : Byte) (s : State) : (sendChar b s).phase = s.phase := rfl
@[simp] theorem sendChar_latch (b : Byte) (s : State) : (sendChar b s).latch = s.latch := rfl
@[simp] theorem sendChar_phaseAt (b : Byte) (s : State) : (sendChar b s).phaseAt = s.phaseAt := rfl
@[simp] theorem sendChar_port (b : Byte) (s : State) : (sendChar b s).port = { s.port with tLast := txCharEnd s, txK := s.port.txK + 1 } := rfl
@[simp] theorem sendChar_now (b : Byte) (s : State) : (sendChar b s).now = s.now := rfl
@[simp] theorem sendChar_rst (b : Byte) (s : State) : (sendChar b s).rst = s.rst := rfl
@[simp] theorem sendChar_resets (b : Byte) (s : State) : (sendChar b s).resets = s.resets := rfl
@[simp] theorem sendChar_line (b : Byte) (s : State) : (sendChar b s).line = s.line := rfl
@[simp] theorem sendChar_env (b : Byte) (s : State) : (sendChar b s).env = s.env := rfl
@[simp] theorem sendChar_params (b : Byte) (s : State) : (sendChar b s).params = s.params := rfl
@[simp] theorem sendChar_draws (b : Byte) (s : State) : (sendChar b s).draws = s.draws := rfl
@[simp] theorem sendChar_seen (b : Byte) (s : State) : (sendChar b s).seen = { s.seen with wire := s.seen.wire ++ [wireChar s b (txCharStart s) (txCharEnd s) true] } := rfl

/-! recvChar -/

@[simp] theorem recvChar_status (c : LineChar) (s : State) : (recvChar c s).status = s.status := rfl
@[simp] theorem recvChar_regs (c : LineChar) (s : State) : (recvChar c s).regs = s.regs := rfl
@[simp] theorem recvChar_mem (c : LineChar) (s : State) : (recvChar c s).mem = Memory.write s.mem (rxAddr s.port.rxN) c.byte := rfl
@[simp] theorem recvChar_phase (c : LineChar) (s : State) : (recvChar c s).phase = .rxFrame := rfl
@[simp] theorem recvChar_latch (c : LineChar) (s : State) : (recvChar c s).latch = s.latch := rfl
@[simp] theorem recvChar_phaseAt (c : LineChar) (s : State) : (recvChar c s).phaseAt = s.phaseAt := rfl
@[simp] theorem recvChar_port (c : LineChar) (s : State) : (recvChar c s).port = { s.port with rxN := s.port.rxN + 1, tLast := c.start + charTime s } := rfl
@[simp] theorem recvChar_now (c : LineChar) (s : State) : (recvChar c s).now = s.now := rfl
@[simp] theorem recvChar_rst (c : LineChar) (s : State) : (recvChar c s).rst = s.rst := rfl
@[simp] theorem recvChar_resets (c : LineChar) (s : State) : (recvChar c s).resets = s.resets := rfl
@[simp] theorem recvChar_line (c : LineChar) (s : State) : (recvChar c s).line = { s.line with chars := s.line.chars.tail } := rfl
@[simp] theorem recvChar_env (c : LineChar) (s : State) : (recvChar c s).env = s.env := rfl
@[simp] theorem recvChar_params (c : LineChar) (s : State) : (recvChar c s).params = s.params := rfl
@[simp] theorem recvChar_draws (c : LineChar) (s : State) : (recvChar c s).draws = s.draws := rfl
@[simp] theorem recvChar_seen (c : LineChar) (s : State) : (recvChar c s).seen = s.seen := rfl

/-! recvByte -/

@[simp] theorem recvByte_status (b : Byte) (e : Time) (s : State) : (recvByte b e s).status = s.status := rfl
@[simp] theorem recvByte_regs (b : Byte) (e : Time) (s : State) : (recvByte b e s).regs = s.regs := rfl
@[simp] theorem recvByte_mem (b : Byte) (e : Time) (s : State) : (recvByte b e s).mem = Memory.write s.mem (rxAddr s.port.rxN) b := rfl
@[simp] theorem recvByte_phase (b : Byte) (e : Time) (s : State) : (recvByte b e s).phase = .rxFrame := rfl
@[simp] theorem recvByte_latch (b : Byte) (e : Time) (s : State) : (recvByte b e s).latch = s.latch := rfl
@[simp] theorem recvByte_phaseAt (b : Byte) (e : Time) (s : State) : (recvByte b e s).phaseAt = s.phaseAt := rfl
@[simp] theorem recvByte_port (b : Byte) (e : Time) (s : State) : (recvByte b e s).port = { s.port with rxN := s.port.rxN + 1, tLast := e } := rfl
@[simp] theorem recvByte_now (b : Byte) (e : Time) (s : State) : (recvByte b e s).now = s.now := rfl
@[simp] theorem recvByte_rst (b : Byte) (e : Time) (s : State) : (recvByte b e s).rst = s.rst := rfl
@[simp] theorem recvByte_resets (b : Byte) (e : Time) (s : State) : (recvByte b e s).resets = s.resets := rfl
@[simp] theorem recvByte_line (b : Byte) (e : Time) (s : State) : (recvByte b e s).line = s.line := rfl
@[simp] theorem recvByte_env (b : Byte) (e : Time) (s : State) : (recvByte b e s).env = s.env := rfl
@[simp] theorem recvByte_params (b : Byte) (e : Time) (s : State) : (recvByte b e s).params = s.params := rfl
@[simp] theorem recvByte_draws (b : Byte) (e : Time) (s : State) : (recvByte b e s).draws = s.draws := rfl
@[simp] theorem recvByte_seen (b : Byte) (e : Time) (s : State) : (recvByte b e s).seen = s.seen := rfl

/-! popTxChoice -/

@[simp] theorem popTxChoice_status (s : State) : (popTxChoice s).status = s.status := rfl
@[simp] theorem popTxChoice_regs (s : State) : (popTxChoice s).regs = s.regs := rfl
@[simp] theorem popTxChoice_mem (s : State) : (popTxChoice s).mem = s.mem := rfl
@[simp] theorem popTxChoice_phase (s : State) : (popTxChoice s).phase = s.phase := rfl
@[simp] theorem popTxChoice_latch (s : State) : (popTxChoice s).latch = s.latch := rfl
@[simp] theorem popTxChoice_phaseAt (s : State) : (popTxChoice s).phaseAt = s.phaseAt := rfl
@[simp] theorem popTxChoice_port (s : State) : (popTxChoice s).port = s.port := rfl
@[simp] theorem popTxChoice_now (s : State) : (popTxChoice s).now = s.now := rfl
@[simp] theorem popTxChoice_rst (s : State) : (popTxChoice s).rst = s.rst := rfl
@[simp] theorem popTxChoice_resets (s : State) : (popTxChoice s).resets = s.resets := rfl
@[simp] theorem popTxChoice_line (s : State) : (popTxChoice s).line = { s.line with txChoices := s.line.txChoices.tail } := rfl
@[simp] theorem popTxChoice_env (s : State) : (popTxChoice s).env = s.env := rfl
@[simp] theorem popTxChoice_params (s : State) : (popTxChoice s).params = s.params := rfl
@[simp] theorem popTxChoice_draws (s : State) : (popTxChoice s).draws = s.draws := rfl
@[simp] theorem popTxChoice_seen (s : State) : (popTxChoice s).seen = s.seen := rfl

/-! popRxChoice -/

@[simp] theorem popRxChoice_status (s : State) : (popRxChoice s).status = s.status := rfl
@[simp] theorem popRxChoice_regs (s : State) : (popRxChoice s).regs = s.regs := rfl
@[simp] theorem popRxChoice_mem (s : State) : (popRxChoice s).mem = s.mem := rfl
@[simp] theorem popRxChoice_phase (s : State) : (popRxChoice s).phase = s.phase := rfl
@[simp] theorem popRxChoice_latch (s : State) : (popRxChoice s).latch = s.latch := rfl
@[simp] theorem popRxChoice_phaseAt (s : State) : (popRxChoice s).phaseAt = s.phaseAt := rfl
@[simp] theorem popRxChoice_port (s : State) : (popRxChoice s).port = s.port := rfl
@[simp] theorem popRxChoice_now (s : State) : (popRxChoice s).now = s.now := rfl
@[simp] theorem popRxChoice_rst (s : State) : (popRxChoice s).rst = s.rst := rfl
@[simp] theorem popRxChoice_resets (s : State) : (popRxChoice s).resets = s.resets := rfl
@[simp] theorem popRxChoice_line (s : State) : (popRxChoice s).line = { s.line with rxChoices := s.line.rxChoices.tail } := rfl
@[simp] theorem popRxChoice_env (s : State) : (popRxChoice s).env = s.env := rfl
@[simp] theorem popRxChoice_params (s : State) : (popRxChoice s).params = s.params := rfl
@[simp] theorem popRxChoice_draws (s : State) : (popRxChoice s).draws = s.draws := rfl
@[simp] theorem popRxChoice_seen (s : State) : (popRxChoice s).seen = s.seen := rfl

/-! writeDiag -/

@[simp] theorem writeDiag_status (d : Option (Half × Half)) (s : State) : (writeDiag d s).status = s.status := by
  cases d <;> rfl
@[simp] theorem writeDiag_mem (d : Option (Half × Half)) (s : State) : (writeDiag d s).mem = s.mem := by
  cases d <;> rfl
@[simp] theorem writeDiag_phase (d : Option (Half × Half)) (s : State) : (writeDiag d s).phase = s.phase := by
  cases d <;> rfl
@[simp] theorem writeDiag_latch (d : Option (Half × Half)) (s : State) : (writeDiag d s).latch = s.latch := by
  cases d <;> rfl
@[simp] theorem writeDiag_phaseAt (d : Option (Half × Half)) (s : State) : (writeDiag d s).phaseAt = s.phaseAt := by
  cases d <;> rfl
@[simp] theorem writeDiag_port (d : Option (Half × Half)) (s : State) : (writeDiag d s).port = s.port := by
  cases d <;> rfl
@[simp] theorem writeDiag_now (d : Option (Half × Half)) (s : State) : (writeDiag d s).now = s.now := by
  cases d <;> rfl
@[simp] theorem writeDiag_rst (d : Option (Half × Half)) (s : State) : (writeDiag d s).rst = s.rst := by
  cases d <;> rfl
@[simp] theorem writeDiag_resets (d : Option (Half × Half)) (s : State) : (writeDiag d s).resets = s.resets := by
  cases d <;> rfl
@[simp] theorem writeDiag_line (d : Option (Half × Half)) (s : State) : (writeDiag d s).line = s.line := by
  cases d <;> rfl
@[simp] theorem writeDiag_env (d : Option (Half × Half)) (s : State) : (writeDiag d s).env = s.env := by
  cases d <;> rfl
@[simp] theorem writeDiag_params (d : Option (Half × Half)) (s : State) : (writeDiag d s).params = s.params := by
  cases d <;> rfl
@[simp] theorem writeDiag_draws (d : Option (Half × Half)) (s : State) : (writeDiag d s).draws = s.draws := by
  cases d <;> rfl
@[simp] theorem writeDiag_seen (d : Option (Half × Half)) (s : State) : (writeDiag d s).seen = s.seen := by
  cases d <;> rfl

/-! writeResultCount -/

@[simp] theorem writeResultCount_status (n : Nat) (s : State) : (writeResultCount n s).status = s.status := rfl
@[simp] theorem writeResultCount_regs (n : Nat) (s : State) : (writeResultCount n s).regs = { s.regs with resultCount := BitVec.ofNat 8 n } := rfl
@[simp] theorem writeResultCount_mem (n : Nat) (s : State) : (writeResultCount n s).mem = s.mem := rfl
@[simp] theorem writeResultCount_phase (n : Nat) (s : State) : (writeResultCount n s).phase = s.phase := rfl
@[simp] theorem writeResultCount_latch (n : Nat) (s : State) : (writeResultCount n s).latch = s.latch := rfl
@[simp] theorem writeResultCount_phaseAt (n : Nat) (s : State) : (writeResultCount n s).phaseAt = s.phaseAt := rfl
@[simp] theorem writeResultCount_port (n : Nat) (s : State) : (writeResultCount n s).port = s.port := rfl
@[simp] theorem writeResultCount_now (n : Nat) (s : State) : (writeResultCount n s).now = s.now := rfl
@[simp] theorem writeResultCount_rst (n : Nat) (s : State) : (writeResultCount n s).rst = s.rst := rfl
@[simp] theorem writeResultCount_resets (n : Nat) (s : State) : (writeResultCount n s).resets = s.resets := rfl
@[simp] theorem writeResultCount_line (n : Nat) (s : State) : (writeResultCount n s).line = s.line := rfl
@[simp] theorem writeResultCount_env (n : Nat) (s : State) : (writeResultCount n s).env = s.env := rfl
@[simp] theorem writeResultCount_params (n : Nat) (s : State) : (writeResultCount n s).params = s.params := rfl
@[simp] theorem writeResultCount_draws (n : Nat) (s : State) : (writeResultCount n s).draws = s.draws := rfl
@[simp] theorem writeResultCount_seen (n : Nat) (s : State) : (writeResultCount n s).seen = s.seen := rfl

/-! writeRxLen -/

@[simp] theorem writeRxLen_status (n : Nat) (s : State) : (writeRxLen n s).status = s.status := rfl
@[simp] theorem writeRxLen_regs (n : Nat) (s : State) : (writeRxLen n s).regs = { s.regs with rxLen := BitVec.ofNat 9 n } := rfl
@[simp] theorem writeRxLen_mem (n : Nat) (s : State) : (writeRxLen n s).mem = s.mem := rfl
@[simp] theorem writeRxLen_phase (n : Nat) (s : State) : (writeRxLen n s).phase = s.phase := rfl
@[simp] theorem writeRxLen_latch (n : Nat) (s : State) : (writeRxLen n s).latch = s.latch := rfl
@[simp] theorem writeRxLen_phaseAt (n : Nat) (s : State) : (writeRxLen n s).phaseAt = s.phaseAt := rfl
@[simp] theorem writeRxLen_port (n : Nat) (s : State) : (writeRxLen n s).port = s.port := rfl
@[simp] theorem writeRxLen_now (n : Nat) (s : State) : (writeRxLen n s).now = s.now := rfl
@[simp] theorem writeRxLen_rst (n : Nat) (s : State) : (writeRxLen n s).rst = s.rst := rfl
@[simp] theorem writeRxLen_resets (n : Nat) (s : State) : (writeRxLen n s).resets = s.resets := rfl
@[simp] theorem writeRxLen_line (n : Nat) (s : State) : (writeRxLen n s).line = s.line := rfl
@[simp] theorem writeRxLen_env (n : Nat) (s : State) : (writeRxLen n s).env = s.env := rfl
@[simp] theorem writeRxLen_params (n : Nat) (s : State) : (writeRxLen n s).params = s.params := rfl
@[simp] theorem writeRxLen_draws (n : Nat) (s : State) : (writeRxLen n s).draws = s.draws := rfl
@[simp] theorem writeRxLen_seen (n : Nat) (s : State) : (writeRxLen n s).seen = s.seen := rfl

/-! writeScale -/

@[simp] theorem writeScale_status (r : ScaleRegs) (s : State) : (writeScale r s).status = s.status := rfl
@[simp] theorem writeScale_regs (r : ScaleRegs) (s : State) : (writeScale r s).regs = { s.regs with scale := r } := rfl
@[simp] theorem writeScale_mem (r : ScaleRegs) (s : State) : (writeScale r s).mem = s.mem := rfl
@[simp] theorem writeScale_phase (r : ScaleRegs) (s : State) : (writeScale r s).phase = s.phase := rfl
@[simp] theorem writeScale_latch (r : ScaleRegs) (s : State) : (writeScale r s).latch = s.latch := rfl
@[simp] theorem writeScale_phaseAt (r : ScaleRegs) (s : State) : (writeScale r s).phaseAt = s.phaseAt := rfl
@[simp] theorem writeScale_port (r : ScaleRegs) (s : State) : (writeScale r s).port = s.port := rfl
@[simp] theorem writeScale_now (r : ScaleRegs) (s : State) : (writeScale r s).now = s.now := rfl
@[simp] theorem writeScale_rst (r : ScaleRegs) (s : State) : (writeScale r s).rst = s.rst := rfl
@[simp] theorem writeScale_resets (r : ScaleRegs) (s : State) : (writeScale r s).resets = s.resets := rfl
@[simp] theorem writeScale_line (r : ScaleRegs) (s : State) : (writeScale r s).line = s.line := rfl
@[simp] theorem writeScale_env (r : ScaleRegs) (s : State) : (writeScale r s).env = s.env := rfl
@[simp] theorem writeScale_params (r : ScaleRegs) (s : State) : (writeScale r s).params = s.params := rfl
@[simp] theorem writeScale_draws (r : ScaleRegs) (s : State) : (writeScale r s).draws = s.draws := rfl
@[simp] theorem writeScale_seen (r : ScaleRegs) (s : State) : (writeScale r s).seen = s.seen := rfl

/-! logRead -/

@[simp] theorem logRead_status (off : BitVec 12) (v : Word) (s : State) : (logRead off v s).status = s.status := rfl
@[simp] theorem logRead_regs (off : BitVec 12) (v : Word) (s : State) : (logRead off v s).regs = s.regs := rfl
@[simp] theorem logRead_mem (off : BitVec 12) (v : Word) (s : State) : (logRead off v s).mem = s.mem := rfl
@[simp] theorem logRead_phase (off : BitVec 12) (v : Word) (s : State) : (logRead off v s).phase = s.phase := rfl
@[simp] theorem logRead_latch (off : BitVec 12) (v : Word) (s : State) : (logRead off v s).latch = s.latch := rfl
@[simp] theorem logRead_phaseAt (off : BitVec 12) (v : Word) (s : State) : (logRead off v s).phaseAt = s.phaseAt := rfl
@[simp] theorem logRead_port (off : BitVec 12) (v : Word) (s : State) : (logRead off v s).port = s.port := rfl
@[simp] theorem logRead_now (off : BitVec 12) (v : Word) (s : State) : (logRead off v s).now = s.now := rfl
@[simp] theorem logRead_rst (off : BitVec 12) (v : Word) (s : State) : (logRead off v s).rst = s.rst := rfl
@[simp] theorem logRead_resets (off : BitVec 12) (v : Word) (s : State) : (logRead off v s).resets = s.resets := rfl
@[simp] theorem logRead_line (off : BitVec 12) (v : Word) (s : State) : (logRead off v s).line = s.line := rfl
@[simp] theorem logRead_env (off : BitVec 12) (v : Word) (s : State) : (logRead off v s).env = s.env := rfl
@[simp] theorem logRead_params (off : BitVec 12) (v : Word) (s : State) : (logRead off v s).params = s.params := rfl
@[simp] theorem logRead_draws (off : BitVec 12) (v : Word) (s : State) : (logRead off v s).draws = s.draws := rfl
@[simp] theorem logRead_seen (off : BitVec 12) (v : Word) (s : State) : (logRead off v s).seen = { s.seen with reads := s.seen.reads ++ [{ off := off, value := v }] } := rfl

/-! lineStep -/

@[simp] theorem lineStep_status (level : Bool) (s : State) : (lineStep level s).status = s.status := rfl
@[simp] theorem lineStep_regs (level : Bool) (s : State) : (lineStep level s).regs = s.regs := rfl
@[simp] theorem lineStep_mem (level : Bool) (s : State) : (lineStep level s).mem = s.mem := rfl
@[simp] theorem lineStep_phase (level : Bool) (s : State) : (lineStep level s).phase = s.phase := rfl
@[simp] theorem lineStep_latch (level : Bool) (s : State) : (lineStep level s).latch = s.latch := rfl
@[simp] theorem lineStep_phaseAt (level : Bool) (s : State) : (lineStep level s).phaseAt = s.phaseAt := rfl
@[simp] theorem lineStep_port (level : Bool) (s : State) : (lineStep level s).port = s.port := rfl
@[simp] theorem lineStep_now (level : Bool) (s : State) : (lineStep level s).now = s.now := rfl
@[simp] theorem lineStep_rst (level : Bool) (s : State) : (lineStep level s).rst = s.rst := rfl
@[simp] theorem lineStep_resets (level : Bool) (s : State) : (lineStep level s).resets = s.resets := rfl
@[simp] theorem lineStep_line (level : Bool) (s : State) : (lineStep level s).line = { s.line with present := level } := rfl
@[simp] theorem lineStep_env (level : Bool) (s : State) : (lineStep level s).env = s.env := rfl
@[simp] theorem lineStep_params (level : Bool) (s : State) : (lineStep level s).params = s.params := rfl
@[simp] theorem lineStep_draws (level : Bool) (s : State) : (lineStep level s).draws = s.draws := rfl
@[simp] theorem lineStep_seen (level : Bool) (s : State) : (lineStep level s).seen = s.seen := rfl

/-! passReset -/

@[simp] theorem passReset_status (s : State) : (passReset s).status = s.status := by
  unfold passReset; split <;> rfl
@[simp] theorem passReset_regs (s : State) : (passReset s).regs = s.regs := by
  unfold passReset; split <;> rfl
@[simp] theorem passReset_mem (s : State) : (passReset s).mem = s.mem := by
  unfold passReset; split <;> rfl
@[simp] theorem passReset_phase (s : State) : (passReset s).phase = s.phase := by
  unfold passReset; split <;> rfl
@[simp] theorem passReset_latch (s : State) : (passReset s).latch = s.latch := by
  unfold passReset; split <;> rfl
@[simp] theorem passReset_phaseAt (s : State) : (passReset s).phaseAt = s.phaseAt := by
  unfold passReset; split <;> rfl
@[simp] theorem passReset_port (s : State) : (passReset s).port = s.port := by
  unfold passReset; split <;> rfl
@[simp] theorem passReset_now (s : State) : (passReset s).now = s.now := by
  unfold passReset; split <;> rfl
@[simp] theorem passReset_rst (s : State) : (passReset s).rst = s.rst := by
  unfold passReset; split <;> rfl
@[simp] theorem passReset_line (s : State) : (passReset s).line = s.line := by
  unfold passReset; split <;> rfl
@[simp] theorem passReset_env (s : State) : (passReset s).env = s.env := by
  unfold passReset; split <;> rfl
@[simp] theorem passReset_params (s : State) : (passReset s).params = s.params := by
  unfold passReset; split <;> rfl
@[simp] theorem passReset_draws (s : State) : (passReset s).draws = s.draws := by
  unfold passReset; split <;> rfl
@[simp] theorem passReset_seen (s : State) : (passReset s).seen = s.seen := by
  unfold passReset; split <;> rfl

/-! passLine -/

@[simp] theorem passLine_status (s : State) : (passLine s).status = s.status := by
  unfold passLine; split <;> rfl
@[simp] theorem passLine_regs (s : State) : (passLine s).regs = s.regs := by
  unfold passLine; split <;> rfl
@[simp] theorem passLine_mem (s : State) : (passLine s).mem = s.mem := by
  unfold passLine; split <;> rfl
@[simp] theorem passLine_phase (s : State) : (passLine s).phase = s.phase := by
  unfold passLine; split <;> rfl
@[simp] theorem passLine_latch (s : State) : (passLine s).latch = s.latch := by
  unfold passLine; split <;> rfl
@[simp] theorem passLine_phaseAt (s : State) : (passLine s).phaseAt = s.phaseAt := by
  unfold passLine; split <;> rfl
@[simp] theorem passLine_port (s : State) : (passLine s).port = s.port := by
  unfold passLine; split <;> rfl
@[simp] theorem passLine_now (s : State) : (passLine s).now = s.now := by
  unfold passLine; split <;> rfl
@[simp] theorem passLine_rst (s : State) : (passLine s).rst = s.rst := by
  unfold passLine; split <;> rfl
@[simp] theorem passLine_resets (s : State) : (passLine s).resets = s.resets := by
  unfold passLine; split <;> rfl
@[simp] theorem passLine_env (s : State) : (passLine s).env = s.env := by
  unfold passLine; split <;> rfl
@[simp] theorem passLine_params (s : State) : (passLine s).params = s.params := by
  unfold passLine; split <;> rfl
@[simp] theorem passLine_draws (s : State) : (passLine s).draws = s.draws := by
  unfold passLine; split <;> rfl
@[simp] theorem passLine_seen (s : State) : (passLine s).seen = s.seen := by
  unfold passLine; split <;> rfl

/-! passHost -/

@[simp] theorem passHost_status (s : State) : (passHost s).status = s.status := by
  unfold passHost; split <;> rfl
@[simp] theorem passHost_regs (s : State) : (passHost s).regs = s.regs := by
  unfold passHost; split <;> rfl
@[simp] theorem passHost_mem (s : State) : (passHost s).mem = s.mem := by
  unfold passHost; split <;> rfl
@[simp] theorem passHost_phase (s : State) : (passHost s).phase = s.phase := by
  unfold passHost; split <;> rfl
@[simp] theorem passHost_latch (s : State) : (passHost s).latch = s.latch := by
  unfold passHost; split <;> rfl
@[simp] theorem passHost_phaseAt (s : State) : (passHost s).phaseAt = s.phaseAt := by
  unfold passHost; split <;> rfl
@[simp] theorem passHost_port (s : State) : (passHost s).port = s.port := by
  unfold passHost; split <;> rfl
@[simp] theorem passHost_now (s : State) : (passHost s).now = s.now := by
  unfold passHost; split <;> rfl
@[simp] theorem passHost_rst (s : State) : (passHost s).rst = s.rst := by
  unfold passHost; split <;> rfl
@[simp] theorem passHost_resets (s : State) : (passHost s).resets = s.resets := by
  unfold passHost; split <;> rfl
@[simp] theorem passHost_line (s : State) : (passHost s).line = s.line := by
  unfold passHost; split <;> rfl
@[simp] theorem passHost_params (s : State) : (passHost s).params = s.params := by
  unfold passHost; split <;> rfl
@[simp] theorem passHost_draws (s : State) : (passHost s).draws = s.draws := by
  unfold passHost; split <;> rfl
@[simp] theorem passHost_seen (s : State) : (passHost s).seen = s.seen := by
  unfold passHost; split <;> rfl

/-- A yield of `line_present` leaves the line alone but for its changes. -/
@[simp] theorem passLine_present (s : State) : (passLine s).line.present = s.line.present := by
  unfold passLine; split <;> rfl
@[simp] theorem passLine_chars (s : State) : (passLine s).line.chars = s.line.chars := by
  unfold passLine; split <;> rfl
@[simp] theorem passLine_txChoices (s : State) : (passLine s).line.txChoices = s.line.txChoices := by
  unfold passLine; split <;> rfl
@[simp] theorem passLine_rxChoices (s : State) : (passLine s).line.rxChoices = s.line.rxChoices := by
  unfold passLine; split <;> rfl

/-! atReset -/

@[simp] theorem atReset_status (s : State) : (atReset s).status = s.status := rfl
@[simp] theorem atReset_regs (s : State) : (atReset s).regs = s.regs := rfl
@[simp] theorem atReset_mem (s : State) : (atReset s).mem = s.mem := rfl
@[simp] theorem atReset_phase (s : State) : (atReset s).phase = s.phase := rfl
@[simp] theorem atReset_latch (s : State) : (atReset s).latch = s.latch := rfl
@[simp] theorem atReset_phaseAt (s : State) : (atReset s).phaseAt = s.phaseAt := rfl
@[simp] theorem atReset_port (s : State) : (atReset s).port = s.port := rfl
@[simp] theorem atReset_now (s : State) : (atReset s).now = s.now := rfl
@[simp] theorem atReset_rst (s : State) : (atReset s).rst = s.rst := rfl
@[simp] theorem atReset_resets (s : State) : (atReset s).resets = s.resets.tail := rfl
@[simp] theorem atReset_line (s : State) : (atReset s).line = s.line := rfl
@[simp] theorem atReset_env (s : State) : (atReset s).env = s.env := rfl
@[simp] theorem atReset_params (s : State) : (atReset s).params = s.params := rfl
@[simp] theorem atReset_draws (s : State) : (atReset s).draws = s.draws := rfl
@[simp] theorem atReset_seen (s : State) : (atReset s).seen = s.seen := rfl

/-! atLine -/

@[simp] theorem atLine_status (s : State) : (atLine s).status = s.status := by simp [atLine]
@[simp] theorem atLine_regs (s : State) : (atLine s).regs = s.regs := by simp [atLine]
@[simp] theorem atLine_mem (s : State) : (atLine s).mem = s.mem := by simp [atLine]
@[simp] theorem atLine_phase (s : State) : (atLine s).phase = s.phase := by simp [atLine]
@[simp] theorem atLine_latch (s : State) : (atLine s).latch = s.latch := by simp [atLine]
@[simp] theorem atLine_phaseAt (s : State) : (atLine s).phaseAt = s.phaseAt := by simp [atLine]
@[simp] theorem atLine_port (s : State) : (atLine s).port = s.port := by simp [atLine]
@[simp] theorem atLine_now (s : State) : (atLine s).now = s.now := by simp [atLine]
@[simp] theorem atLine_rst (s : State) : (atLine s).rst = s.rst := by simp [atLine]
@[simp] theorem atLine_line (s : State) : (atLine s).line = { s.line with changes := s.line.changes.tail } := by simp [atLine]
@[simp] theorem atLine_env (s : State) : (atLine s).env = s.env := by simp [atLine]
@[simp] theorem atLine_params (s : State) : (atLine s).params = s.params := by simp [atLine]
@[simp] theorem atLine_draws (s : State) : (atLine s).draws = s.draws := by simp [atLine]
@[simp] theorem atLine_seen (s : State) : (atLine s).seen = s.seen := by simp [atLine]

/-! atHost -/

@[simp] theorem atHost_status (s : State) : (atHost s).status = s.status := by simp [atHost]
@[simp] theorem atHost_regs (s : State) : (atHost s).regs = s.regs := by simp [atHost]
@[simp] theorem atHost_mem (s : State) : (atHost s).mem = s.mem := by simp [atHost]
@[simp] theorem atHost_phase (s : State) : (atHost s).phase = s.phase := by simp [atHost]
@[simp] theorem atHost_latch (s : State) : (atHost s).latch = s.latch := by simp [atHost]
@[simp] theorem atHost_phaseAt (s : State) : (atHost s).phaseAt = s.phaseAt := by simp [atHost]
@[simp] theorem atHost_port (s : State) : (atHost s).port = s.port := by simp [atHost]
@[simp] theorem atHost_now (s : State) : (atHost s).now = s.now := by simp [atHost]
@[simp] theorem atHost_rst (s : State) : (atHost s).rst = s.rst := by simp [atHost]
@[simp] theorem atHost_env (s : State) : (atHost s).env = s.env.tail := by simp [atHost]
@[simp] theorem atHost_params (s : State) : (atHost s).params = s.params := by simp [atHost]
@[simp] theorem atHost_draws (s : State) : (atHost s).draws = s.draws := by simp [atHost]
@[simp] theorem atHost_seen (s : State) : (atHost s).seen = s.seen := by simp [atHost]

/-! atSequencer -/

@[simp] theorem atSequencer_status (s : State) : (atSequencer s).status = s.status := by simp [atSequencer]
@[simp] theorem atSequencer_regs (s : State) : (atSequencer s).regs = s.regs := by simp [atSequencer]
@[simp] theorem atSequencer_mem (s : State) : (atSequencer s).mem = s.mem := by simp [atSequencer]
@[simp] theorem atSequencer_phase (s : State) : (atSequencer s).phase = s.phase := by simp [atSequencer]
@[simp] theorem atSequencer_latch (s : State) : (atSequencer s).latch = s.latch := by simp [atSequencer]
@[simp] theorem atSequencer_phaseAt (s : State) : (atSequencer s).phaseAt = s.phaseAt := by simp [atSequencer]
@[simp] theorem atSequencer_port (s : State) : (atSequencer s).port = s.port := by simp [atSequencer]
@[simp] theorem atSequencer_now (s : State) : (atSequencer s).now = s.now := by simp [atSequencer]
@[simp] theorem atSequencer_rst (s : State) : (atSequencer s).rst = s.rst := by simp [atSequencer]
@[simp] theorem atSequencer_params (s : State) : (atSequencer s).params = s.params := by simp [atSequencer]
@[simp] theorem atSequencer_draws (s : State) : (atSequencer s).draws = s.draws := by simp [atSequencer]
@[simp] theorem atSequencer_seen (s : State) : (atSequencer s).seen = s.seen := by simp [atSequencer]

@[simp] theorem atHost_present (s : State) : (atHost s).line.present = s.line.present := by simp [atHost]
@[simp] theorem atHost_chars (s : State) : (atHost s).line.chars = s.line.chars := by simp [atHost]
@[simp] theorem atHost_txChoices (s : State) : (atHost s).line.txChoices = s.line.txChoices := by simp [atHost]
@[simp] theorem atHost_rxChoices (s : State) : (atHost s).line.rxChoices = s.line.rxChoices := by simp [atHost]

@[simp] theorem atSequencer_present (s : State) : (atSequencer s).line.present = s.line.present := by simp [atSequencer]
@[simp] theorem atSequencer_chars (s : State) : (atSequencer s).line.chars = s.line.chars := by simp [atSequencer]
@[simp] theorem atSequencer_txChoices (s : State) : (atSequencer s).line.txChoices = s.line.txChoices := by simp [atSequencer]
@[simp] theorem atSequencer_rxChoices (s : State) : (atSequencer s).line.rxChoices = s.line.rxChoices := by simp [atSequencer]

/-! advance -/

@[simp] theorem advance_status (t : Time) (s : State) : (advance t s).status = s.status := rfl
@[simp] theorem advance_regs (t : Time) (s : State) : (advance t s).regs = s.regs := rfl
@[simp] theorem advance_mem (t : Time) (s : State) : (advance t s).mem = s.mem := rfl
@[simp] theorem advance_phase (t : Time) (s : State) : (advance t s).phase = s.phase := rfl
@[simp] theorem advance_latch (t : Time) (s : State) : (advance t s).latch = s.latch := rfl
@[simp] theorem advance_phaseAt (t : Time) (s : State) : (advance t s).phaseAt = s.phaseAt := rfl
@[simp] theorem advance_port (t : Time) (s : State) : (advance t s).port = s.port := rfl
@[simp] theorem advance_now (t : Time) (s : State) : (advance t s).now = t := rfl
@[simp] theorem advance_rst (t : Time) (s : State) : (advance t s).rst = s.rst := rfl
@[simp] theorem advance_resets (t : Time) (s : State) : (advance t s).resets = s.resets := rfl
@[simp] theorem advance_line (t : Time) (s : State) : (advance t s).line = s.line := rfl
@[simp] theorem advance_env (t : Time) (s : State) : (advance t s).env = s.env := rfl
@[simp] theorem advance_params (t : Time) (s : State) : (advance t s).params = s.params := rfl
@[simp] theorem advance_draws (t : Time) (s : State) : (advance t s).draws = s.draws := rfl
@[simp] theorem advance_seen (t : Time) (s : State) : (advance t s).seen = s.seen := rfl

/-- A decode that reached D3 writes DIAG_CRC (R156). -/
@[simp] theorem writeDiag_some_regs (recv comp : Half) (s : State) :
    (writeDiag (some (recv, comp)) s).regs = { s.regs with diagRecv := recv, diagCalc := comp } := rfl

/-- A decode that stopped before D3 leaves it (R156). -/
@[simp] theorem writeDiag_none (s : State) : writeDiag none s = s := rfl

/-- With nothing of the inputs and the host to come, nothing yields. -/
theorem atSequencer_alone {s : State} (hr : s.resets = []) (hl : s.line.changes = []) (hh : s.env = []) :
    atSequencer s = s := by
  have a : passHost s = s := by simp [passHost, hostDue, nextHost, hh]
  have b : passLine s = s := by
    unfold passLine lineDue nextLine
    split <;> [(rename_i h; split at h <;> simp [hl] at h); rfl]
  have c : passReset s = s := by simp [passReset, resetDue, nextReset, hr]
  rw [atSequencer, a, b, c]

end Sys2Proof.Machine
end

