-- ==== Sys2Proof/Laws/Memory.lean ====
section
/-! SUPPORT. The laws of the buffers: read after write, and the canonical form. -/

namespace Sys2Proof.Machine

namespace Memory

@[simp] theorem read_nil (a : Nat) : Memory.read [] a = none := rfl

theorem read_write_same (m : Memory) (a : Nat) (v : Byte) : Memory.read (Memory.write m a v) a = some v := by
  induction m with
  | nil => simp [Memory.write, Memory.read]
  | cons c m ih =>
    obtain ⟨k, x⟩ := c
    simp only [Memory.write]
    split
    · simp [Memory.read]
    · split
      · simp [Memory.read]
      · rename_i _ h
        simpa [Memory.read, h] using ih

theorem read_write_other (m : Memory) {a b : Nat} (v : Byte) (h : b ≠ a) :
    Memory.read (Memory.write m a v) b = Memory.read m b := by
  induction m with
  | nil => simp [Memory.write, Memory.read, h]
  | cons c m ih =>
    obtain ⟨k, x⟩ := c
    simp only [Memory.write]
    split
    · simp [Memory.read, h]
    · split
      · rename_i _ hk
        subst hk
        simp [Memory.read, h]
      · simp only [Memory.read, ih]

/-- One write, as one lemma. -/
theorem read_write (m : Memory) (a b : Nat) (v : Byte) :
    Memory.read (Memory.write m a v) b = if b = a then some v else Memory.read m b := by
  split
  · rename_i h
    subst h
    exact read_write_same m b v
  · rename_i h
    exact read_write_other m v h

/-- A written cell stays written. -/
theorem read_write_isSome (m : Memory) (a b : Nat) (v : Byte) (h : (Memory.read m b).isSome = true) :
    (Memory.read (Memory.write m a v) b).isSome = true := by
  rw [read_write]
  split <;> simp [h]

theorem mem_write {m : Memory} {a : Nat} {v : Byte} {c : Host.Cell} (h : c ∈ Memory.write m a v) :
    c = (a, v) ∨ c ∈ m := by
  induction m with
  | nil => simpa [Memory.write] using h
  | cons d m ih =>
    obtain ⟨k, x⟩ := d
    simp only [Memory.write] at h
    split at h
    · simpa [List.mem_cons] using h
    · split at h
      · rcases List.mem_cons.1 h with h | h
        · exact .inl h
        · exact .inr (List.mem_cons_of_mem _ h)
      · rcases List.mem_cons.1 h with h | h
        · exact .inr (h ▸ List.mem_cons_self)
        · exact (ih h).imp_right (List.mem_cons_of_mem _)

/-- A write keeps the canonical form. -/
theorem write_wf {m : Memory} (h : Memory.wf m) (a : Nat) (v : Byte) : Memory.wf (Memory.write m a v) := by
  induction m with
  | nil => simp [Memory.write, Memory.wf]
  | cons c m ih =>
    obtain ⟨k, x⟩ := c
    obtain ⟨hk, hm⟩ := List.pairwise_cons.1 h
    simp only [Memory.write]
    split
    · rename_i hlt
      refine List.pairwise_cons.2 ⟨fun d hd => ?_, h⟩
      rcases List.mem_cons.1 hd with rfl | hd
      · exact hlt
      · exact lt_trans hlt (hk d hd)
    · split
      · rename_i _ heq
        subst heq
        exact List.pairwise_cons.2 ⟨hk, hm⟩
      · refine List.pairwise_cons.2 ⟨fun d hd => ?_, ih hm⟩
        rcases mem_write hd with rfl | hd
        · show k < a
          omega
        · exact hk d hd

/-- Writing byte cells keeps the canonical form. -/
theorem writeCells_wf (bs : List Byte) : ∀ {m : Memory} (_ : Memory.wf m) (a : Nat), Memory.wf (Memory.writeCells m a bs) := by
  induction bs with
  | nil => intro m h a; exact h
  | cons b bs ih => intro m h a; exact ih (write_wf h a b) (a + 4)

/-- Writing RESULT cells keeps the canonical form. -/
theorem writeHalves_wf (hs : List Half) :
    ∀ {m : Memory} (_ : Memory.wf m) (a : Nat), Memory.wf (Memory.writeHalves m a hs) := by
  induction hs with
  | nil => intro m h a; exact h
  | cons x hs ih => intro m h a; exact ih (write_wf (write_wf h a _) (a + 1) _) (a + 4)

/-- Writing cells from `a` on leaves an address below `a` alone. -/
theorem read_writeCells_below (bs : List Byte) :
    ∀ (m : Memory) (a b : Nat), b < a → Memory.read (Memory.writeCells m a bs) b = Memory.read m b := by
  induction bs with
  | nil => intro m a b _; rfl
  | cons x bs ih =>
    intro m a b h
    rw [Memory.writeCells, ih _ _ _ (by omega), read_write_other m x (by omega)]

/-- Writing cells from `a` on leaves every address alone that is no cell of them. -/
theorem read_writeCells_other (bs : List Byte) :
    ∀ (m : Memory) (a b : Nat), (∀ i, i < bs.length → b ≠ a + 4 * i) →
      Memory.read (Memory.writeCells m a bs) b = Memory.read m b := by
  induction bs with
  | nil => intro m a b _; rfl
  | cons x bs ih =>
    intro m a b h
    have h0 : b ≠ a := by simpa using h 0 (by simp)
    rw [Memory.writeCells, ih _ _ _ ?_, read_write_other m x h0]
    intro i hi
    have := h (i + 1) (by simpa using hi)
    omega

/-- Cell `i` of the written bytes reads back. -/
theorem read_writeCells_get (bs : List Byte) :
    ∀ (m : Memory) (a i : Nat) (h : i < bs.length),
      Memory.read (Memory.writeCells m a bs) (a + 4 * i) = some bs[i] := by
  induction bs with
  | nil => intro m a i h; simp at h
  | cons x bs ih =>
    intro m a i h
    cases i with
    | zero => rw [Memory.writeCells, read_writeCells_below _ _ _ _ (by omega)]; simpa using read_write_same m a x
    | succ i =>
      have := ih (Memory.write m a x) (a + 4) i (by simpa using h)
      rw [Memory.writeCells, show a + 4 * (i + 1) = a + 4 + 4 * i by omega]
      simpa using this

theorem read_writeCells_isSome (bs : List Byte) :
    ∀ (m : Memory) (a b : Nat), (Memory.read m b).isSome = true →
      (Memory.read (Memory.writeCells m a bs) b).isSome = true := by
  induction bs with
  | nil => intro m a b h; exact h
  | cons x bs ih => intro m a b h; exact ih _ _ _ (read_write_isSome m a b x h)

/-- Reading `n` cells, as a map over their indices. -/
theorem readCells_eq (m : Memory) (n : Nat) :
    ∀ a, Memory.readCells m a n = (List.range n).map (fun i => Memory.read m (a + 4 * i)) := by
  induction n with
  | zero => intro a; rfl
  | succ n ih =>
    intro a
    rw [Memory.readCells, ih (a + 4), List.range_succ_eq_map, List.map_cons, List.map_map]
    congr 1
    apply List.map_congr_left
    intro i _
    simp only [Function.comp]
    congr 1
    omega

@[simp] theorem readCells_length (m : Memory) (a n : Nat) : (Memory.readCells m a n).length = n := by
  simp [readCells_eq]

/-- The cells just written read back whole. -/
theorem readCells_writeCells (bs : List Byte) (m : Memory) (a : Nat) :
    Memory.readCells (Memory.writeCells m a bs) a bs.length = bs.map some := by
  rw [readCells_eq]
  apply List.ext_getElem
  · simp
  · intro i h1 h2
    simp only [List.length_map, List.length_range] at h1
    simp [read_writeCells_get bs m a i h1]

theorem mem_writeCells (bs : List Byte) :
    ∀ {m : Memory} {a : Nat} {c : Host.Cell}, c ∈ Memory.writeCells m a bs →
      c ∈ m ∨ ∃ i, i < bs.length ∧ c.1 = a + 4 * i := by
  induction bs with
  | nil => intro m a c h; exact .inl h
  | cons x bs ih =>
    intro m a c h
    rcases ih h with h | ⟨i, hi, hc⟩
    · rcases mem_write h with rfl | h
      · exact .inr ⟨0, by simp, by simp⟩
      · exact .inl h
    · exact .inr ⟨i + 1, by simpa using hi, by omega⟩

theorem mem_writeHalves (hs : List Half) :
    ∀ {m : Memory} {a : Nat} {c : Host.Cell}, c ∈ Memory.writeHalves m a hs →
      c ∈ m ∨ ∃ i, i < hs.length ∧ (c.1 = a + 4 * i ∨ c.1 = a + 4 * i + 1) := by
  induction hs with
  | nil => intro m a c h; exact .inl h
  | cons x hs ih =>
    intro m a c h
    rcases ih h with h | ⟨i, hi, hc⟩
    · rcases mem_write h with rfl | h
      · exact .inr ⟨0, by simp, by simp⟩
      · rcases mem_write h with rfl | h
        · exact .inr ⟨0, by simp, by simp⟩
        · exact .inl h
    · exact .inr ⟨i + 1, by simpa using hi, by omega⟩

/-- Writing RESULT cells from `a` on leaves an address below `a` alone. -/
theorem read_writeHalves_below (hs : List Half) :
    ∀ (m : Memory) (a b : Nat), b < a → Memory.read (Memory.writeHalves m a hs) b = Memory.read m b := by
  induction hs with
  | nil => intro m a b _; rfl
  | cons x hs ih =>
    intro m a b h
    rw [Memory.writeHalves, ih _ _ _ (by omega), Memory.writeHalf, read_write_other _ _ (by omega),
      read_write_other _ _ (by omega)]

/-- A byte outside the written RESULT cells is unchanged. -/
theorem read_writeHalves_other (hs : List Half) :
    ∀ (m : Memory) (a b : Nat), (∀ i, i < hs.length → b ≠ a + 4 * i ∧ b ≠ a + 4 * i + 1) →
      Memory.read (Memory.writeHalves m a hs) b = Memory.read m b := by
  induction hs with
  | nil => intro m a b _; rfl
  | cons x hs ih =>
    intro m a b h
    have h0 := h 0 (by simp)
    rw [Memory.writeHalves, ih _ _ _ ?_, Memory.writeHalf, read_write_other _ _ (by omega),
      read_write_other _ _ (by omega)]
    intro i hi
    have := h (i + 1) (by simpa using hi)
    omega

theorem joinBytes_hi_lo (h : Half) : joinBytes (hiByte h) (loByte h) = h := by
  simp only [joinBytes, hiByte, loByte]
  ext i hi
  simp only [BitVec.getElem_append, BitVec.getElem_extractLsb']
  split
  · simp [BitVec.getLsbD_eq_getElem hi]
  · rename_i h8
    rw [show 8 + (i - 8) = i by omega, BitVec.getLsbD_eq_getElem hi]

theorem readHalf_writeHalf (m : Memory) (a : Nat) (h : Half) : Memory.readHalf (Memory.writeHalf m a h) a = some h := by
  simp [Memory.readHalf, Memory.writeHalf, read_write, joinBytes_hi_lo]

/-- RESULT cell `i` of the written values reads back. -/
theorem readHalf_writeHalves (hs : List Half) :
    ∀ (m : Memory) (a i : Nat) (h : i < hs.length),
      Memory.readHalf (Memory.writeHalves m a hs) (a + 4 * i) = some hs[i] := by
  induction hs with
  | nil => intro m a i h; simp at h
  | cons x hs ih =>
    intro m a i h
    cases i with
    | zero =>
      have e : ∀ b, b < a + 4 → Memory.read (Memory.writeHalves (Memory.writeHalf m a x) (a + 4) hs) b =
          Memory.read (Memory.writeHalf m a x) b := fun b hb => read_writeHalves_below hs _ _ _ hb
      have := readHalf_writeHalf m a x
      simp only [Memory.readHalf, Memory.writeHalves, Nat.mul_zero, Nat.add_zero, e a (by omega), e (a + 1) (by omega),
        List.getElem_cons_zero] at this ⊢
      exact this
    | succ i =>
      have := ih (Memory.writeHalf m a x) (a + 4) i (by simpa using h)
      rw [Memory.writeHalves, show a + 4 * (i + 1) = a + 4 + 4 * i by omega]
      simpa using this

end Memory

theorem allWritten_map_some (b : List Byte) : allWritten (b.map some) = some b := by
  induction b with
  | nil => rfl
  | cons x b ih => simp [allWritten, ih]

theorem allWritten_eq_some {l : List (Option Byte)} {b : List Byte} (h : allWritten l = some b) : l = b.map some := by
  induction l generalizing b with
  | nil => simp only [allWritten, Option.some.injEq] at h; subst h; rfl
  | cons c l ih =>
    cases c with
    | none => simp [allWritten] at h
    | some x =>
      simp only [allWritten] at h
      split at h
      · rename_i bs hb
        simp only [Option.some.injEq] at h
        subst h
        simp [ih hb]
      · simp at h

end Sys2Proof.Machine
end

