-- ==== Sys2Proof/Laws/Ops.lean ====
section
/-! SUPPORT. What each shared operation can do, said once: the steps of the UART, the decode function's results, and a
command's step. -/

namespace Sys2Proof.Machine

/-- What no instruction changes: the time, the inputs, the environment's future, the parameters, the host's reads, CFG_*, ARG_*
and REJECT. -/
structure Untouched (s t : State) : Prop where
  now : t.now = s.now
  rst : t.rst = s.rst
  resets : t.resets = s.resets
  changes : t.line.changes = s.line.changes
  env : t.env = s.env
  params : t.params = s.params
  draws : t.draws = s.draws
  reads : t.seen.reads = s.seen.reads
  present : t.line.present = s.line.present
  reject : t.status.reject = s.status.reject
  hostRegs : keepsHostRegs s.regs t.regs

theorem Untouched.refl (s : State) : Untouched s s := by
  constructor <;> simp [keepsHostRegs]

theorem Untouched.trans {s t u : State} (h : Untouched s t) (k : Untouched t u) : Untouched s u := by
  obtain ⟨h1, h2, h3, h4, h5, h6, h7, h8, h9, h10, h11⟩ := h
  obtain ⟨k1, k2, k3, k4, k5, k6, k7, k8, k9, k10, k11⟩ := k
  constructor <;> simp_all [keepsHostRegs]

/-- What a step of the transmit engine leaves alone, beside `Untouched`. -/
structure TxKeeps (s t : State) : Prop where
  status : t.status = s.status
  regs : t.regs = s.regs
  mem : t.mem = s.mem
  phase : t.phase = s.phase
  latch : t.latch = s.latch
  phaseAt : t.phaseAt = s.phaseAt
  isOpen : t.port.isOpen = s.port.isOpen
  rxN : t.port.rxN = s.port.rxN
  deadline : t.port.deadline = s.port.deadline
  chars : t.line.chars = s.line.chars
  rest : Untouched s t

theorem TxKeeps.refl (s : State) : TxKeeps s s := by
  constructor <;> first | rfl | exact Untouched.refl s

theorem TxKeeps.trans {s t u : State} (h : TxKeeps s t) (k : TxKeeps t u) : TxKeeps s u := by
  obtain ⟨h1, h2, h3, h4, h5, h6, h7, h8, h9, h10, h11⟩ := h
  obtain ⟨k1, k2, k3, k4, k5, k6, k7, k8, k9, k10, k11⟩ := k
  constructor <;> first | (exact h11.trans k11) | simp_all

theorem putWire_txKeeps (c : TxChar) (s : State) : TxKeeps s (putWire c s) := by
  constructor <;> first | rfl | (constructor <;> simp [keepsHostRegs])

theorem sendChar_txKeeps (b : Byte) (s : State) : TxKeeps s (sendChar b s) := by
  constructor <;> first | rfl | (constructor <;> simp [keepsHostRegs])

theorem cutOff_txKeeps {s t : State} (h : cutOff s = .ok t) : TxKeeps s t ∧ t.port = s.port := by
  unfold cutOff at h
  split at h
  · split at h
    · cases h; exact ⟨putWire_txKeeps _ s, rfl⟩
    · cases h
  · cases h; exact ⟨TxKeeps.refl s, rfl⟩

theorem except_map_ok {ε α β : Type} {x : Except ε α} {f : α → β} {y : β} (h : x.map f = .ok y) :
    ∃ a, x = .ok a ∧ f a = y := by
  cases x with
  | error e => simp [Except.map] at h
  | ok a => exact ⟨a, rfl, by simpa [Except.map] using h⟩

theorem popTxChoice_txKeeps (s : State) : TxKeeps s (popTxChoice s) := by
  constructor <;> first | rfl | (constructor <;> simp [keepsHostRegs])

/-- One more character: its cell is written, and the phase is over after the last one. -/
theorem sendNext_cases {s t : State} {o : Option TxOutcome} (h : sendNext s = .ok (o, t)) :
    ∃ b, Memory.read s.mem (txAddr s.port.txK) = some b ∧ t = sendChar b s ∧
      o = if txTotal s.latch ≤ s.port.txK + 1 then some .ok else none := by
  unfold sendNext at h
  split at h
  · rename_i b hb; cases h; exact ⟨b, hb, rfl, rfl⟩
  · cases h

/-- Everything a step of an untimed TX phase can do (R119): one more character, or the end the line has chosen. -/
theorem txChosen_cases {s t : State} {o : Option TxOutcome} (h : txChosen s = .ok (o, t)) :
    ∃ u, TxKeeps s u ∧ t = (if o = none then u else popTxChoice u) ∧
      ((s.port.txK < txLimit s ∧ sendNext s = .ok (o, u)) ∨
       (txLimit s ≤ s.port.txK ∧ o = some (txEnding s) ∧ cutOff s = .ok u ∧ u.port = s.port)) := by
  unfold txChosen at h
  obtain ⟨⟨o', u⟩, hu, hf⟩ := except_map_ok h
  cases hf
  split at hu
  · rename_i hk
    obtain ⟨b, -, rfl, -⟩ := sendNext_cases hu
    exact ⟨_, sendChar_txKeeps b s, rfl, .inl ⟨hk, hu⟩⟩
  · rename_i hk
    obtain ⟨v, hv, hf⟩ := except_map_ok hu
    cases hf
    exact ⟨_, (cutOff_txKeeps hv).1, rfl, .inr ⟨not_lt.1 hk, rfl, hv, (cutOff_txKeeps hv).2⟩⟩

/-- Everything a step of the transmit engine can do. -/
theorem txStep_cases {s t : State} {o : Option TxOutcome} (h : txStep s = .ok (o, t)) :
    TxKeeps s t ∧
    ((isTimed s = false ∧ t.port.tLast = (if s.port.txK < txLimit s then s.now else s.port.tLast) ∧
        (o = none → t.port.txK = s.port.txK + 1 ∧ t.port.txK < txTotal s.latch)) ∨
     (isTimed s = true ∧ s.line.present = false ∧ o = some .writeFailed ∧ t.port = s.port) ∨
     (isTimed s = true ∧ s.line.present = true ∧ txInTime s = false ∧ o = some .writeTimeout ∧ t = s) ∨
     (isTimed s = true ∧ s.line.present = true ∧ txInTime s = true ∧
       ∃ b, Memory.read s.mem (txAddr s.port.txK) = some b ∧ t = sendChar b s ∧
         o = if txTotal s.latch ≤ s.port.txK + 1 then some .ok else none)) := by
  unfold txStep at h
  split at h
  · rename_i ht
    obtain ⟨u, hu, rfl, hc⟩ := txChosen_cases h
    have pops : ∀ c : Prop, ∀ _ : Decidable c, TxKeeps u (if c then u else popTxChoice u) ∧
        (if c then u else popTxChoice u).port = u.port := by
      intro c _; split
      · exact ⟨TxKeeps.refl u, rfl⟩
      · exact ⟨popTxChoice_txKeeps u, rfl⟩
    refine ⟨hu.trans (pops _ _).1, .inl ⟨ht, ?_, ?_⟩⟩
    · rw [(pops _ _).2]
      rcases hc with ⟨hk, hs⟩ | ⟨hk, -, -, hp⟩
      · obtain ⟨b, -, rfl, -⟩ := sendNext_cases hs
        simp [hk, txCharEnd, ht]
      · rw [hp, if_neg (not_lt.2 hk)]
    · rintro rfl
      rw [(pops _ _).2]
      rcases hc with ⟨-, hs⟩ | ⟨-, ho, -⟩
      · obtain ⟨b, -, rfl, ho⟩ := sendNext_cases hs
        split at ho
        · cases ho
        · rename_i hn; exact ⟨rfl, not_le.1 hn⟩
      · cases ho
  · rename_i ht
    replace ht : isTimed s = true := by simpa using ht
    split at h
    · rename_i hp
      obtain ⟨u, hu, hf⟩ := except_map_ok h
      cases hf
      exact ⟨(cutOff_txKeeps hu).1, .inr (.inl ⟨ht, hp, rfl, (cutOff_txKeeps hu).2⟩)⟩
    · rename_i hp
      replace hp : s.line.present = true := by simpa using hp
      split at h
      · rename_i hi
        cases h
        exact ⟨TxKeeps.refl s, .inr (.inr (.inl ⟨ht, hp, hi, rfl, rfl⟩))⟩
      · rename_i hi
        replace hi : txInTime s = true := by simpa using hi
        obtain ⟨b, hb, rfl, ho⟩ := sendNext_cases h
        exact ⟨sendChar_txKeeps b s, .inr (.inr (.inr ⟨ht, hp, hi, b, hb, rfl, ho⟩))⟩

/-- What a step of the receive arbiter leaves alone, beside `Untouched`. The buffers change in RXBUF only. -/
structure RxKeeps (s t : State) : Prop where
  status : t.status = s.status
  regs : t.regs = s.regs
  latch : t.latch = s.latch
  phaseAt : t.phaseAt = s.phaseAt
  isOpen : t.port.isOpen = s.port.isOpen
  txK : t.port.txK = s.port.txK
  deadline : t.port.deadline = s.port.deadline
  wire : t.seen = s.seen
  rest : Untouched s t

theorem RxKeeps.refl (s : State) : RxKeeps s s := by
  constructor <;> first | rfl | exact Untouched.refl s

theorem recvChar_rxKeeps (c : LineChar) (s : State) : RxKeeps s (recvChar c s) := by
  constructor <;> first | rfl | (constructor <;> simp [keepsHostRegs])

theorem recvByte_rxKeeps (b : Byte) (e : Time) (s : State) : RxKeeps s (recvByte b e s) := by
  constructor <;> first | rfl | (constructor <;> simp [keepsHostRegs])

/-- The bytes of an untimed RX phase are at most M, and those of a COMPLETE at least one (R119). -/
theorem rxChosenBytes_length (s : State) :
    (rxChosenBytes s).length ≤ rxMax s.latch ∧
      (rxEnding s = .complete → 1 ≤ rxMax s.latch → 1 ≤ (rxChosenBytes s).length) := by
  unfold rxChosenBytes rxEnding
  match s.line.rxChoices.head? with
  | none => simp
  | some (.complete []) => simp
  | some (.complete (b :: bs)) => simp [List.length_take]
  | some (.timeout bs) => simp [List.length_take]
  | some (.failed bs) => simp [List.length_take]

/-- Everything a step of an untimed RX phase can do (R119): one more byte, or the end the line has chosen. -/
theorem rxChosen_cases {s t : State} {o : Option RxOutcome} (h : rxChosen s = (o, t)) :
    ∃ u, RxKeeps s u ∧ t = (if o = none then u else popRxChoice u) ∧
      ((∃ b, (rxChosenBytes s)[s.port.rxN]? = some b ∧ s.port.rxN < rxMax s.latch ∧ u = recvByte b s.now s ∧
          o = if s.port.rxN + 1 = rxMax s.latch then some .complete else none) ∨
       ((rxChosenBytes s).length ≤ s.port.rxN ∧ u = s ∧ o = some (rxEnding s))) := by
  unfold rxChosen at h
  split at h
  · rename_i b hb
    have hk : s.port.rxN < rxMax s.latch :=
      lt_of_lt_of_le (List.getElem?_eq_some_iff.1 hb).1 (rxChosenBytes_length s).1
    split at h <;> (rename_i hm; cases h)
    · exact ⟨_, recvByte_rxKeeps b s.now s, by simp, .inl ⟨b, hb, hk, rfl, by simp [hm]⟩⟩
    · exact ⟨_, recvByte_rxKeeps b s.now s, by simp, .inl ⟨b, hb, hk, rfl, by simp [hm]⟩⟩
  · rename_i hb
    cases h
    exact ⟨s, RxKeeps.refl s, by simp, .inr ⟨List.getElem?_eq_none_iff.1 hb, rfl, rfl⟩⟩

theorem popRxChoice_rxKeeps (s : State) : RxKeeps s (popRxChoice s) := by
  constructor <;> first | rfl | (constructor <;> simp [keepsHostRegs])

/-- Everything a step of the receive arbiter can do. -/
theorem rxStep_cases {s t : State} {o : Option RxOutcome} (h : rxStep s = (o, t)) :
    RxKeeps s t ∧
    ((isTimed s = false ∧
       ((∃ b, (rxChosenBytes s)[s.port.rxN]? = some b ∧ s.port.rxN < rxMax s.latch ∧ t.port = (recvByte b s.now s).port ∧
          t.mem = (recvByte b s.now s).mem ∧ t.phase = .rxFrame ∧
          o = if s.port.rxN + 1 = rxMax s.latch then some .complete else none) ∨
        ((rxChosenBytes s).length ≤ s.port.rxN ∧ t.port = s.port ∧ t.mem = s.mem ∧ t.phase = s.phase ∧
          o = some (rxEnding s)))) ∨
     (isTimed s = true ∧ s.line.present = false ∧ o = some .failed ∧ t = s) ∨
     (isTimed s = true ∧ s.line.present = true ∧ ∃ oc tm, rxPlan s = .finish oc tm ∧ o = some oc ∧ t = s) ∨
     (isTimed s = true ∧ s.line.present = true ∧ ∃ tm, rxPlan s = .charFail tm ∧ o = some .failed ∧
       t = { s with line := { s.line with chars := s.line.chars.tail } }) ∨
     (isTimed s = true ∧ s.line.present = true ∧ ∃ c tm, rxPlan s = .store c tm ∧ t = recvChar c s ∧
       o = if s.port.rxN + 1 = rxMax s.latch then some .complete else none)) := by
  unfold rxStep at h
  split at h
  · rename_i ht
    obtain ⟨u, hu, rfl, hc⟩ := rxChosen_cases h
    refine ⟨?_, .inl ⟨ht, ?_⟩⟩
    · split
      · exact hu
      · obtain ⟨h1, h2, h3, h4, h5, h6, h7, h8, h9⟩ := hu
        constructor <;> first | assumption | exact h9.trans (popRxChoice_rxKeeps u).rest
    · rcases hc with ⟨b, hb, hk, rfl, ho⟩ | ⟨hb, rfl, ho⟩
      · exact .inl ⟨b, hb, hk, by split <;> rfl, by split <;> rfl, by split <;> rfl, ho⟩
      · exact .inr ⟨hb, by split <;> rfl, by split <;> rfl, by split <;> rfl, ho⟩
  · rename_i ht
    replace ht : isTimed s = true := by simpa using ht
    split at h
    · rename_i hp
      cases h
      exact ⟨RxKeeps.refl s, .inr (.inl ⟨ht, hp, rfl, rfl⟩)⟩
    · rename_i hp
      replace hp : s.line.present = true := by simpa using hp
      split at h
      · rename_i oc tm hplan
        cases h
        exact ⟨RxKeeps.refl s, .inr (.inr (.inl ⟨ht, hp, oc, tm, hplan, rfl, rfl⟩))⟩
      · rename_i tm hplan
        cases h
        refine ⟨?_, .inr (.inr (.inr (.inl ⟨ht, hp, tm, hplan, rfl, rfl⟩)))⟩
        constructor <;> first | rfl | (constructor <;> simp [keepsHostRegs])
      · rename_i c tm hplan
        cases h
        exact ⟨recvChar_rxKeeps c s, .inr (.inr (.inr (.inr ⟨ht, hp, c, tm, hplan, rfl, rfl⟩)))⟩

/-- A round that stores a character takes the next one, and ends by the deadline. -/
theorem rxRound_store {r : Regs} {tc tEof deadline tLast tm : Time} {n : Nat} {oc : Option LineChar} {c : LineChar}
    (h : rxRound r tc tEof deadline n tLast oc = .store c tm) :
    oc = some c ∧ tm = c.start + tc ∧ tm ≤ deadline ∧ charErr r c = false := by
  unfold rxRound at h
  cases oc with
  | none => simp at h; split at h <;> [(split at h <;> cases h); cases h]
  | some d =>
    simp only at h
    split at h
    · split at h <;> cases h
    · split at h
      · cases h
      · split at h
        · cases h
        · rename_i hd
          split at h
          · cases h
          · rename_i he
            cases h
            exact ⟨rfl, rfl, not_lt.1 hd, by simpa using he⟩

/-- The arbiter's next act comes no later than the deadline (R116). -/
theorem rxRound_time_le (r : Regs) (tc tEof deadline tLast : Time) (n : Nat) (oc : Option LineChar) :
    (rxRound r tc tEof deadline n tLast oc).time ≤ deadline := by
  unfold rxRound
  cases oc with
  | none =>
    simp only
    split
    · split <;> simp_all [RxPlan.time]
    · simp [RxPlan.time]
  | some d =>
    simp only
    split
    · split <;> simp_all [RxPlan.time]
    · split
      · simp [RxPlan.time]
      · split
        · simp [RxPlan.time]
        · split <;> simp_all [RxPlan.time]

/-! The decode function. -/

/-- A checked frame that is Ok has the expected length and count. -/
theorem checkFrame_ok {b : List Byte} {eS eF : Byte} {eC : Half} {vs : List Half} (h : checkFrame b eS eF eC = .ok vs) :
    b.getD 0 0 = eS ∧ b.getD 1 0 = eF ∧ b.getD 1 0 ≠ (eF ||| 0x80) ∧ (b.getD 2 0).toNat = 2 * eC.toNat ∧
      b.length = 5 + 2 * eC.toNat ∧ vs = respRegs b eC.toNat := by
  unfold checkFrame at h
  split at h
  · cases h
  · split at h
    · cases h
    · split at h
      · cases h
      · split at h
        · cases h
        · cases h
          simp_all

@[simp] theorem respRegs_length (b : List Byte) (n : Nat) : (respRegs b n).length = n := by simp [respRegs]

/-- What a decode that is Ok has seen (R155 D8). -/
theorem decodeCells_ok {b : List (Option Byte)} {eS eF : Byte} {eC : Half} {out : DecodeOut} {vs : List Half}
    (h : decodeCells b eS eF eC = some out) (hv : out.res = .ok vs) :
    ∃ bs, b = bs.map some ∧ out = checkCrc bs eS eF eC ∧ calcCrc bs = recvCrc bs ∧
      checkFrame bs eS eF eC = .ok vs := by
  unfold decodeCells at h
  split at h
  · cases h; cases hv
  · split at h
    · cases h
    · split at h
      · cases h; cases hv
      · split at h
        · rename_i bs hbs
          cases h
          refine ⟨bs, allWritten_eq_some hbs, rfl, ?_⟩
          simp only [checkCrc] at hv
          split at hv
          · cases hv
          · rename_i hc
            exact ⟨by simpa using hc, hv⟩
        · cases h

/-- On cells that all hold a byte the decode answers. -/
theorem decodeCells_written (bs : List Byte) (eS eF : Byte) (eC : Half) :
    (decodeCells (bs.map some) eS eF eC).isSome = true := by
  unfold decodeCells
  split
  · rfl
  · rename_i hlen
    simp only [List.length_map] at hlen
    have : (bs.map some).getD 1 none = some (bs[1]'(by omega)) := by
      simp [List.getElem?_eq_getElem (show 1 < bs.length by omega)]
    rw [this, allWritten_map_some]
    simp only
    split <;> rfl

/-- A decode's results: DIAG_CRC, RESULT and RESULT_COUNT, and the completion. -/
theorem finishDecode_keeps (out : DecodeOut) (s : State) :
    Untouched s (finishDecode out s) ∧ (finishDecode out s).phase = .idle ∧ (finishDecode out s).latch = s.latch ∧
      (finishDecode out s).port = s.port ∧ (finishDecode out s).seen = s.seen ∧ (finishDecode out s).line = s.line ∧
      (finishDecode out s).phaseAt = s.phaseAt ∧ (finishDecode out s).regs.crcAcc = s.regs.crcAcc ∧
      (finishDecode out s).regs.rxLen = s.regs.rxLen ∧ (finishDecode out s).regs.scale = s.regs.scale ∧
      (finishDecode out s).status.lastOp = s.status.lastOp := by
  obtain ⟨d, r⟩ := out
  rcases d with _ | ⟨recv, comp⟩ <;> cases r <;>
  · refine ⟨?_, ?_⟩
    · constructor <;> simp [finishDecode, keepsHostRegs]
    · simp [finishDecode]

/-- Everything a decode and its completion can do. -/
theorem decodeAndFinish_cases {b : List (Option Byte)} {eF : Byte} {s t : State}
    (h : decodeAndFinish b eF s = .next t) :
    ∃ out, decodeCells b s.latch.slave eF s.latch.count = some out ∧ t = finishDecode out s := by
  unfold decodeAndFinish at h
  split at h
  · rename_i out ho
    cases h
    exact ⟨out, ho, rfl⟩
  · cases h

/-- A command that uses no wire: acceptance when idle, its body in EXEC, no transition elsewhere. -/
theorem plainCommand_cases {w : Word} {body : State → Host.Outcome State Fault Refusal} {s t : State}
    (h : plainCommand w body s = .next t) :
    (s.phase = .idle ∧ t = accept w .exec s) ∨ (s.phase = .exec ∧ body s = .next t) ∨
      (s.phase ≠ .idle ∧ s.phase ≠ .exec ∧ t = s) := by
  unfold plainCommand at h
  split at h
  case h_1 hp => cases h; exact .inl ⟨hp, rfl⟩
  case h_2 hp => exact .inr (.inl ⟨hp, h⟩)
  all_goals
    rename_i hp
    cases h
    exact .inr (.inr ⟨by simp [hp], by simp [hp], rfl⟩)

theorem accept_untouched (v : Word) (p : Phase) (s : State) : Untouched s (accept v p s) := by
  constructor <;> simp [keepsHostRegs]

theorem complete_untouched (r : Result) (s : State) : Untouched s (complete r s) := by
  constructor <;> simp [keepsHostRegs]

theorem enterTx_untouched (s : State) : Untouched s (enterTx s) := by
  constructor <;> simp [keepsHostRegs]

theorem enterRx_untouched (s : State) : Untouched s (enterRx s) := by
  constructor <;> simp [keepsHostRegs]

theorem enterPhase_untouched (p : Phase) (s : State) : Untouched s (enterPhase p s) := by
  constructor <;> simp [keepsHostRegs]

theorem storeTx_untouched (b : List Byte) (s : State) : Untouched s (storeTx b s) := by
  constructor <;> simp [keepsHostRegs]

theorem writeRxLen_untouched (n : Nat) (s : State) : Untouched s (writeRxLen n s) := by
  constructor <;> simp [keepsHostRegs]

/-! The conditions the commands test, as propositions. -/

theorem lenTooBig_iff (l : Latch) : lenTooBig l = true ↔ 256 < l.len.toNat := by
  unfold lenTooBig; exact decide_eq_true_iff

theorem not_lenTooBig_iff (l : Latch) : lenTooBig l = false ↔ l.len.toNat ≤ 256 := by
  unfold lenTooBig; rw [decide_eq_false_iff_not, not_lt]

theorem not_rirBadArg_iff (l : Latch) :
    rirBadArg l = false ↔ 1 ≤ l.slave.toNat ∧ l.slave.toNat ≤ 247 ∧ 1 ≤ l.count.toNat ∧ l.count.toNat ≤ 125 := by
  unfold rirBadArg
  rw [Bool.or_eq_false_iff, Bool.or_eq_false_iff, Bool.or_eq_false_iff, decide_eq_false_iff_not, decide_eq_false_iff_not,
    decide_eq_false_iff_not, decide_eq_false_iff_not, show Config.maxCount = 125 from rfl]
  omega

theorem isRir_iff (l : Latch) : isRir l = true ↔ l.op = 0x00000007 := by
  unfold isRir; rw [beq_iff_eq]; exact Iff.rfl

theorem txInTime_iff (s : State) : txInTime s = true ↔ txCharEnd s ≤ s.port.deadline := by
  unfold txInTime; exact decide_eq_true_iff

theorem not_txInTime_iff (s : State) : txInTime s = false ↔ s.port.deadline < txCharEnd s := by
  unfold txInTime; rw [decide_eq_false_iff_not, not_le]

theorem charInProgress_iff {s : State} (h : isTimed s = true) :
    charInProgress s = true ↔ txCharEnd s ≤ s.port.deadline ∧ txCharStart s < s.now := by
  unfold charInProgress; rw [if_pos h, Bool.and_eq_true, txInTime_iff, decide_eq_true_iff]

/-- The character times of the timed model (R114). -/
theorem txCharStart_timed {s : State} (h : isTimed s = true) :
    txCharStart s = s.phaseAt + (s.port.txK : Time) * charTime s := by
  rw [txCharStart, if_pos h]

theorem txCharEnd_timed {s : State} (h : isTimed s = true) :
    txCharEnd s = s.phaseAt + (s.port.txK : Time) * charTime s + charTime s := by
  rw [txCharEnd, if_pos h, txCharStart_timed h]

theorem writeAtOnce_none_iff (s : State) :
    writeAtOnce s = none ↔ s.latch.len.toNat ≤ 256 ∧ s.port.isOpen = true ∧ s.latch.len ≠ 0 := by
  unfold writeAtOnce
  rw [← not_lenTooBig_iff]
  cases lenTooBig s.latch <;> cases s.port.isOpen <;> by_cases h : s.latch.len = 0 <;> simp [h]

theorem readAtOnce_none_iff (s : State) :
    readAtOnce s = none ↔ s.latch.len.toNat ≤ 256 ∧ s.port.isOpen = true ∧ s.latch.len ≠ 0 := by
  unfold readAtOnce
  rw [← not_lenTooBig_iff]
  cases lenTooBig s.latch <;> cases s.port.isOpen <;> by_cases h : s.latch.len = 0 <;> simp [h]

theorem rirAtOnce_none_iff (s : State) : rirAtOnce s = none ↔ rirBadArg s.latch = false ∧ s.port.isOpen = true := by
  unfold rirAtOnce
  cases rirBadArg s.latch <;> cases s.port.isOpen <;> simp

/-- A round of the arbiter with no character before the silence ends (R116). -/
theorem rxRound_silent {r : Regs} {tc tEof deadline tLast : Time} {n : Nat} {oc : Option LineChar} (hn : 1 ≤ n)
    (h : ∀ c, oc = some c → tLast + tEof ≤ c.start) :
    rxRound r tc tEof deadline n tLast oc =
      if tLast + tEof ≤ deadline then .finish .complete (tLast + tEof) else .finish .timeout deadline := by
  cases oc with
  | none => simp [rxRound, hn]
  | some c => simp [rxRound, hn, h c rfl]

/-- A round of the arbiter with a character that the silence does not cut off (R116). -/
theorem rxRound_char {r : Regs} {tc tEof deadline tLast : Time} {n : Nat} {c : LineChar}
    (h : 1 ≤ n → c.start < tLast + tEof) :
    rxRound r tc tEof deadline n tLast (some c) =
      if deadline ≤ c.start then .finish .timeout deadline
      else if deadline < c.start + tc then .finish .timeout deadline
      else if charErr r c then .charFail (c.start + tc)
      else .store c (c.start + tc) := by
  unfold rxRound
  simp only [decide_eq_true_eq]
  rw [if_neg]
  rintro ⟨hn, hs⟩
  exact absurd (h hn) (not_lt.2 hs)

/-! Where a buffer cell's offset is (R41, R42). -/

theorem ite_reg {c : Prop} [Decidable c] {a b r : Reg} (h : (if c then a else b) = r) (hne : a ≠ r) : b = r := by
  split at h
  · exact absurd h hne
  · exact h

theorem regAt_txbuf {off : BitVec 12} {i : Nat} (h : regAt off = .txbuf i) : off.toNat / 4 = 0x40 + i ∧ i < 256 := by
  unfold regAt at h
  simp only at h
  generalize off.toNat = o at h ⊢
  iterate 23 (replace h := ite_reg h (by simp))
  split at h
  · cases h; omega
  · iterate 2 (replace h := ite_reg h (by simp))
    cases h

theorem regAt_rxbuf {off : BitVec 12} {i : Nat} (h : regAt off = .rxbuf i) : off.toNat / 4 = 0x140 + i ∧ i < 256 := by
  unfold regAt at h
  simp only at h
  generalize off.toNat = o at h ⊢
  iterate 24 (replace h := ite_reg h (by simp))
  split at h
  · cases h; omega
  · replace h := ite_reg h (by simp)
    cases h

end Sys2Proof.Machine
end

