-- ==== Sys2Proof/Laws/PerInstr.lean ====
section
/-! SUPPORT. The statements made per instruction: the shape of each instruction's words. -/

namespace Sys2Proof.Laws.EncodedForm

/-- A well-formed instruction's words have the form its kind gives them (spec/30_encoding.md R90, R92, R93, R95 to R97): a command
is a word of the command map, BADCMD is a word outside it, and a frame has 5 to 255 bytes, the second of them 0x04 or 0x84. -/
def Statement (i : Instr) : Prop :=
  i.wf = true →
    match encode i with
    | .cmd w => isIllegalWord w = true ↔ i = .badCmd w
    | .frame b => 5 ≤ b.length ∧ b.length ≤ 255 ∧ (b.getD 1 0 = 0x04 ∨ b.getD 1 0 = 0x84)

theorem regBytes_length (regs : List Half) : (regBytes regs).length = 2 * regs.length := by
  induction regs with
  | nil => rfl
  | cons r regs ih => simp only [regBytes, List.length_cons, ih]; omega

theorem openCmd : Statement .openCmd := fun _ => by simp [encode]; decide
theorem closeCmd : Statement .closeCmd := fun _ => by simp [encode]; decide
theorem writeBytes : Statement .writeBytes := fun _ => by simp [encode]; decide
theorem readBytes : Statement .readBytes := fun _ => by simp [encode]; decide
theorem encodeRir : Statement .encodeRir := fun _ => by simp [encode]; decide
theorem decodeResp : Statement .decodeResp := fun _ => by simp [encode]; decide
theorem readInputRegs : Statement .readInputRegs := fun _ => by simp [encode]; decide
theorem decodeTemp : Statement .decodeTemp := fun _ => by simp [encode]; decide
theorem decodeHum : Statement .decodeHum := fun _ => by simp [encode]; decide
theorem crcInit : Statement .crcInit := fun _ => by simp [encode]; decide
theorem crcUpdate : Statement .crcUpdate := fun _ => by simp [encode]; decide

theorem badCmd (w : Word) : Statement (.badCmd w) := fun h => by
  have h : isIllegalWord w = true := h
  simp [encode, h]

theorem rtuReqReadInputRegs (slave : Byte) (start count crc : Half) :
    Statement (.rtuReqReadInputRegs slave start count crc) := fun _ => by
  simp [encode, requestBytes, requestBody, crcBytes]

theorem rtuRspNormal (slave byteCount : Byte) (regs : List Half) (crc : Half) :
    Statement (.rtuRspNormal slave byteCount regs crc) := fun h => by
  have h : regs.length ≤ 125 := by
    simp only [Instr.wf, regsFit, Bool.and_eq_true, decide_eq_true_eq] at h
    exact h.2
  simp only [encode, normalBytes, normalBody, crcBytes, List.length_append, List.length_cons, List.length_nil,
    regBytes_length]
  refine ⟨by omega, by omega, .inl ?_⟩
  simp

theorem rtuRspException (slave excCode : Byte) (crc : Half) : Statement (.rtuRspException slave excCode crc) := fun _ => by
  simp [encode, exceptionBytes, crcBytes]

end Sys2Proof.Laws.EncodedForm
end

