-- ==== Sys2Proof/Laws/Step.lean ====
section
/-! SUPPORT. What exec and step can do, said once: exec's frame over every instruction, and step as one of the seven turns. -/

namespace Sys2Proof.Machine

theorem rirAccept_untouched (s : State) : Untouched s (rirAccept s) := by
  unfold rirAccept
  have h := accept_untouched (opcodeWord 0x07) .exec s
  simp only
  split
  · exact h
  · split
    · exact h.trans (storeTx_untouched _ _)
    · exact (h.trans (storeTx_untouched _ _)).trans (enterPhase_untouched _ _)

theorem gapStep_untouched (s : State) : Untouched s (gapStep s) := by
  unfold gapStep
  split
  · exact complete_untouched _ s
  · exact enterTx_untouched s

theorem rxStep_untouched {s t : State} {o : Option RxOutcome} (h : rxStep s = (o, t)) : Untouched s t :=
  (rxStep_cases h).1.rest

theorem rirReceived_untouched (s : State) : Untouched s (rirReceived s) := by
  unfold rirReceived
  split <;> rename_i t h <;> have k := rxStep_untouched h
  · exact k.trans (enterPhase_untouched _ _)
  · exact (k.trans (writeRxLen_untouched _ _)).trans (complete_untouched _ _)
  · exact (k.trans (writeRxLen_untouched _ _)).trans (complete_untouched _ _)
  · exact k

theorem decodeAndFinish_untouched {b : List (Option Byte)} {eF : Byte} {s t : State}
    (h : decodeAndFinish b eF s = .next t) : Untouched s t := by
  obtain ⟨out, -, rfl⟩ := decodeAndFinish_cases h
  exact (finishDecode_keeps out s).1

theorem rirDecode_untouched {b : List (Option Byte)} {s t : State} (h : rirDecode b s = .next t) : Untouched s t :=
  (writeRxLen_untouched _ s).trans (decodeAndFinish_untouched h)

theorem frameReceived_untouched {b : List Byte} {s t : State} (h : frameReceived b s = .next t) : Untouched s t := by
  unfold frameReceived at h
  split at h
  · split at h
    · exact rirDecode_untouched h
    · exact decodeAndFinish_untouched h
  · cases h; exact Untouched.refl s

/-- A plain command leaves alone what its body leaves alone. -/
theorem plainCommand_untouched {w : Word} {body : State → Host.Outcome State Fault Refusal} {s t : State}
    (hb : ∀ u, body s = .next u → Untouched s u) (h : plainCommand w body s = .next t) : Untouched s t := by
  rcases plainCommand_cases h with ⟨-, rfl⟩ | ⟨-, h⟩ | ⟨-, -, rfl⟩
  · exact accept_untouched _ _ s
  · exact hb t h
  · exact Untouched.refl t

theorem execOpen_untouched {s t : State} (h : execOpen s = .next t) : Untouched s t := by
  refine plainCommand_untouched (fun u hu => ?_) h
  simp only at hu
  split at hu
  · cases hu; exact complete_untouched _ s
  · split at hu
    · cases hu; exact complete_untouched _ s
    · split at hu
      · cases hu; exact complete_untouched _ s
      · cases hu; constructor <;> simp [keepsHostRegs]

theorem execClose_untouched {s t : State} (h : execClose s = .next t) : Untouched s t :=
  plainCommand_untouched (fun u hu => by cases hu; constructor <;> simp [keepsHostRegs]) h

theorem execWriteBytes_untouched {s t : State} (h : execWriteBytes s = .next t) : Untouched s t := by
  simp only [execWriteBytes] at h
  split at h
  · cases h
    split
    · exact (accept_untouched _ _ s).trans (enterPhase_untouched _ _)
    · exact accept_untouched _ _ s
  · split at h
    · cases h; exact complete_untouched _ s
    · cases h; exact Untouched.refl s
  · cases h; exact gapStep_untouched s
  · split at h
    · rename_i o u hu
      cases h; exact (txStep_cases hu).1.rest.trans (complete_untouched _ u)
    · rename_i u hu
      cases h; exact (txStep_cases hu).1.rest
    · cases h
  all_goals cases h; exact Untouched.refl s

theorem execReadBytes_untouched {s t : State} (h : execReadBytes s = .next t) : Untouched s t := by
  simp only [execReadBytes] at h
  split at h
  · cases h
    split
    · exact (accept_untouched _ _ s).trans (enterRx_untouched _)
    · exact accept_untouched _ _ s
  · split at h
    · cases h; exact (writeRxLen_untouched _ s).trans (complete_untouched _ _)
    · cases h; exact complete_untouched _ s
    · cases h; exact Untouched.refl s
  · cases h; exact Untouched.refl s
  · cases h; exact Untouched.refl s
  · split at h
    · rename_i o u hu
      cases h; exact ((rxStep_untouched hu).trans (writeRxLen_untouched _ _)).trans (complete_untouched _ _)
    · rename_i u hu
      cases h; exact rxStep_untouched hu
  · split at h
    · rename_i o u hu
      cases h; exact ((rxStep_untouched hu).trans (writeRxLen_untouched _ _)).trans (complete_untouched _ _)
    · rename_i u hu
      cases h; exact rxStep_untouched hu
  · cases h; exact Untouched.refl s

theorem execEncodeRir_untouched {s t : State} (h : execEncodeRir s = .next t) : Untouched s t :=
  plainCommand_untouched (fun u hu => by cases hu; exact (storeTx_untouched _ s).trans (complete_untouched _ _)) h

theorem execDecodeResp_untouched {s t : State} (h : execDecodeResp s = .next t) : Untouched s t := by
  refine plainCommand_untouched (fun u hu => ?_) h
  split at hu
  · cases hu; exact complete_untouched _ s
  · exact decodeAndFinish_untouched hu

theorem execReadInputRegs_untouched {s t : State} (h : execReadInputRegs s = .next t) : Untouched s t := by
  simp only [execReadInputRegs] at h
  split at h
  · cases h; exact rirAccept_untouched s
  · split at h
    · cases h; exact complete_untouched _ s
    · cases h; exact Untouched.refl s
  · cases h; exact gapStep_untouched s
  · split at h
    · rename_i u hu
      cases h; exact (txStep_cases hu).1.rest.trans (enterRx_untouched u)
    · rename_i u hu
      cases h; exact (txStep_cases hu).1.rest.trans (complete_untouched _ u)
    · rename_i u hu
      cases h; exact (txStep_cases hu).1.rest.trans (complete_untouched _ u)
    · rename_i u hu
      cases h; exact (txStep_cases hu).1.rest
    · cases h
  · cases h; exact rirReceived_untouched s
  · cases h; exact rirReceived_untouched s
  · exact rirDecode_untouched h

theorem execDecodeTemp_untouched {s t : State} (h : execDecodeTemp s = .next t) : Untouched s t :=
  plainCommand_untouched (fun u hu => by cases hu; constructor <;> simp [keepsHostRegs]) h

theorem execDecodeHum_untouched {s t : State} (h : execDecodeHum s = .next t) : Untouched s t :=
  plainCommand_untouched (fun u hu => by cases hu; constructor <;> simp [keepsHostRegs]) h

theorem execCrcInit_untouched {s t : State} (h : execCrcInit s = .next t) : Untouched s t :=
  plainCommand_untouched (fun u hu => by cases hu; constructor <;> simp [keepsHostRegs]) h

theorem execCrcUpdate_untouched {s t : State} (h : execCrcUpdate s = .next t) : Untouched s t :=
  plainCommand_untouched (fun u hu => by cases hu; constructor <;> simp [keepsHostRegs]) h

theorem execBadCmd_untouched {w : Word} {s t : State} (h : execBadCmd w s = .next t) : Untouched s t :=
  plainCommand_untouched (fun u hu => by cases hu; exact complete_untouched _ s) h

theorem execRtuReqReadInputRegs_untouched {slave : Byte} {start count crc : Half} {s t : State}
    (h : execRtuReqReadInputRegs slave start count crc s = .next t) : Untouched s t := by
  unfold execRtuReqReadInputRegs at h
  split at h
  · exact frameReceived_untouched h
  · cases h; exact storeTx_untouched _ s

/-- No instruction touches the time, the inputs, the environment, CFG_*, ARG_* or REJECT. -/
theorem exec_untouched (i : Instr) {s t : State} (h : exec i s = .next t) : Untouched s t :=
  match i with
  | .openCmd => execOpen_untouched h
  | .closeCmd => execClose_untouched h
  | .writeBytes => execWriteBytes_untouched h
  | .readBytes => execReadBytes_untouched h
  | .encodeRir => execEncodeRir_untouched h
  | .decodeResp => execDecodeResp_untouched h
  | .readInputRegs => execReadInputRegs_untouched h
  | .decodeTemp => execDecodeTemp_untouched h
  | .decodeHum => execDecodeHum_untouched h
  | .crcInit => execCrcInit_untouched h
  | .crcUpdate => execCrcUpdate_untouched h
  | .badCmd _ => execBadCmd_untouched h
  | .rtuReqReadInputRegs _ _ _ _ => execRtuReqReadInputRegs_untouched h
  | .rtuRspNormal _ _ _ _ => frameReceived_untouched h
  | .rtuRspException _ _ _ => frameReceived_untouched h

/-! Whose turn it is. -/

theorem yieldTo_cases (n : Nat) (o : Option Turn) (mine : Turn) :
    yieldTo n o mine = mine ∨ o = some (yieldTo n o mine) := by
  cases o with
  | none => exact .inl rfl
  | some p => simp only [yieldTo]; split <;> simp

/-- What may go now is due, and in a timed wire phase the sequencer goes only when no change of the line is due (R117 (d)). -/
theorem turnNow_cases {s : State} {turn : Turn} (h : turnNow s = some turn) :
    (∃ c, resetDue s = some c ∧ turn = .reset c.level) ∨ (∃ c, lineDue s = some c ∧ turn = .line c.level) ∨
      (∃ e, hostDue s = some e ∧ turn = hostTurn e.act s) ∨
      (sequencerDue s = true ∧ turn = .sequencer ∧
        (isTimed s = true → wirePhase s.phase = true → lineDue s = none)) := by
  have seq : ∀ {p}, sequencerTurn s = some p → sequencerDue s = true ∧ p = .sequencer := by
    intro p hp
    unfold sequencerTurn at hp
    split at hp
    · rename_i hd; cases hp; exact ⟨hd, rfl⟩
    · cases hp
  have others : ∀ {p}, hostOrSequencer s = some p → (∃ e, hostDue s = some e ∧ p = hostTurn e.act s) ∨
      (sequencerDue s = true ∧ p = .sequencer) := by
    intro p hp
    unfold hostOrSequencer at hp
    split at hp
    · rename_i e he
      rcases yieldTo_cases e.yields (sequencerTurn s) (hostTurn e.act s) with hy | hy
      · rw [hy] at hp; cases hp; exact .inl ⟨e, he, rfl⟩
      · rw [← hy] at hp; exact .inr (seq hp)
    · exact .inr (seq hp)
  have line : ∀ {p}, lineOrOthers s = some p → (∃ c, lineDue s = some c ∧ p = .line c.level) ∨
      (∃ e, hostDue s = some e ∧ p = hostTurn e.act s) ∨
      (sequencerDue s = true ∧ p = .sequencer ∧
        (isTimed s = true → wirePhase s.phase = true → lineDue s = none)) := by
    intro p hp
    unfold lineOrOthers at hp
    split at hp
    · rename_i c hc
      split at hp
      · cases hp; exact .inl ⟨c, hc, rfl⟩
      · rename_i hn
        rcases yieldTo_cases c.yields (hostOrSequencer s) (.line c.level) with hy | hy
        · rw [hy] at hp; cases hp; exact .inl ⟨c, hc, rfl⟩
        · rw [← hy] at hp
          rcases others hp with he | ⟨hd, rfl⟩
          · exact .inr (.inl he)
          · exact .inr (.inr ⟨hd, rfl, fun ht hw => absurd ⟨ht, hw, hp⟩ hn⟩)
    · rename_i hc
      rcases others hp with he | ⟨hd, rfl⟩
      · exact .inr (.inl he)
      · exact .inr (.inr ⟨hd, rfl, fun _ _ => hc⟩)
  unfold turnNow at h
  split at h
  · rename_i c hc
    rcases yieldTo_cases c.yields (lineOrOthers s) (.reset c.level) with hy | hy
    · rw [hy] at h; cases h; exact .inl ⟨c, hc, rfl⟩
    · rw [← hy] at h; exact .inr (line h)
  · exact .inr (line h)

/-- When nothing goes now, nothing is due. -/
theorem turnNow_none {s : State} (h : turnNow s = none) :
    resetDue s = none ∧ lineDue s = none ∧ hostDue s = none ∧ sequencerDue s = false := by
  have some_ne : ∀ {c : Prop} [Decidable c] {a : Turn} {o : Option Turn}, (if c then some a else o) = none → ¬ c := by
    intro c _ a o hc; split at hc
    · cases hc
    · assumption
  unfold turnNow at h
  split at h
  · cases h
  · rename_i hr
    unfold lineOrOthers at h
    split at h
    · split at h <;> cases h
    · rename_i hl
      unfold hostOrSequencer at h
      split at h
      · cases h
      · rename_i hh
        unfold sequencerTurn at h
        exact ⟨hr, hl, hh, by simpa using some_ne h⟩

theorem hostTurn_cases (a : EnvAction) (s : State) : hostTurn a s = .host a ∨ ∃ v, hostTurn a s = .accept v := by
  cases a with
  | write off width v => simp only [hostTurn]; split <;> simp
  | _ => exact .inl rfl

theorem nextTurn_eq {s : State} {turn : Turn} (h : nextTurn s = turn) (hr : turn ≠ .rest) (hc : ∀ t, turn ≠ .clock t) :
    turnNow s = some turn := by
  unfold nextTurn at h
  split at h
  · rename_i u hu; rw [hu, h]
  · split at h
    · exact absurd h.symm (hc _)
    · exact absurd h.symm hr

theorem dueAt_busy {s : State} {d : Time} (h : dueAt s = some d) : busy s = true := by
  unfold dueAt at h
  split at h
  · cases h
  · rename_i hb; simpa using hb

theorem sequencerDue_iff (s : State) : sequencerDue s = true ↔ ∃ d, dueAt s = some d ∧ d ≤ s.now := by
  unfold sequencerDue
  cases dueAt s <;> simp

/-- The sequencer's turn comes only in a command, at an instant it is due; and in a timed wire phase only when no change of the
line is due (R114, R117 (d)). -/
theorem nextTurn_sequencer {s : State} (h : nextTurn s = .sequencer) :
    busy s = true ∧ (∃ d, dueAt s = some d ∧ d ≤ s.now) ∧
      (isTimed s = true → wirePhase s.phase = true → lineDue s = none) := by
  rcases turnNow_cases (nextTurn_eq h (by simp) (by simp)) with ⟨c, -, hc⟩ | ⟨c, -, hc⟩ | ⟨e, -, he⟩ | ⟨hd, -, hl⟩
  · cases hc
  · cases hc
  · rcases hostTurn_cases e.act s with ha | ⟨v, ha⟩ <;> rw [ha] at he <;> cases he
  · obtain ⟨d, hd, hle⟩ := (sequencerDue_iff s).1 hd
    exact ⟨dueAt_busy hd, ⟨d, hd, hle⟩, hl⟩

theorem earlier_eq_some {a b : Option Time} {t : Time} (h : earlier a b = some t) : a = some t ∨ b = some t := by
  unfold earlier at h
  split at h
  · exact .inr h
  · cases h; exact .inl rfl
  · cases h
    rename_i x y
    rcases le_total x y with hxy | hxy
    · left; rw [min_eq_left hxy]
    · right; rw [min_eq_right hxy]

/-- The clock never goes back. -/
theorem nextTurn_clock {s : State} {t : Time} (h : nextTurn s = .clock t) : s.now < t := by
  have none_due : turnNow s = none ∧ nextInstant s = some t := by
    unfold nextTurn at h
    split at h
    · rename_i u hu
      subst h
      rcases turnNow_cases hu with ⟨c, -, hc⟩ | ⟨c, -, hc⟩ | ⟨e, -, he⟩ | ⟨-, hc, -⟩
      · cases hc
      · cases hc
      · rcases hostTurn_cases e.act s with ha | ⟨v, ha⟩ <;> rw [ha] at he <;> cases he
      · cases hc
    · rename_i hn
      split at h
      · rename_i u hu; cases h; exact ⟨hn, hu⟩
      · cases h
  obtain ⟨hn, hi⟩ := none_due
  obtain ⟨hr, hl, hh, hs⟩ := turnNow_none hn
  have late : ∀ {u : Time}, ¬ isDue u s = true → eventTime u s = t → s.now < t := by
    intro u hu he
    rw [← he]
    simpa [isDue] using hu
  rcases earlier_eq_some hi with hi | hi
  · obtain ⟨c, hc, he⟩ := Option.map_eq_some_iff.1 hi
    exact late (fun hd => by simp [resetDue, hc, Option.filter, hd] at hr) he
  · rcases earlier_eq_some hi with hi | hi
    · obtain ⟨c, hc, he⟩ := Option.map_eq_some_iff.1 hi
      exact late (fun hd => by simp [lineDue, hc, Option.filter, hd] at hl) he
    · rcases earlier_eq_some hi with hi | hi
      · obtain ⟨c, hc, he⟩ := Option.map_eq_some_iff.1 hi
        exact late (fun hd => by simp [hostDue, hc, Option.filter, hd] at hh) he
      · simpa [sequencerDue, hi] using hs

/-- A CMD write is accepted only by an idle block out of reset. -/
theorem hostTurn_accept {a : EnvAction} {s : State} {v : Word} (h : hostTurn a s = .accept v) :
    s.phase = .idle ∧ s.rst = false ∧ ∃ off width, a = .write off width v ∧ admitted off width = true ∧ regAt off = .cmd := by
  cases a with
  | write off width w =>
    simp only [hostTurn] at h
    split at h
    · rename_i hc
      cases h
      simp only [Bool.and_eq_true, Bool.not_eq_true', beq_iff_eq] at hc
      obtain ⟨⟨⟨h1, h2⟩, h3⟩, h4⟩ := hc
      refine ⟨?_, h4, off, width, rfl, h1, h2⟩
      simpa [busy] using h3
    · cases h
  | _ => simp [hostTurn] at h

theorem nextTurn_accept {s : State} {v : Word} (h : nextTurn s = .accept v) : s.phase = .idle ∧ s.rst = false := by
  rcases turnNow_cases (nextTurn_eq h (by simp) (by simp)) with ⟨c, -, hc⟩ | ⟨c, -, hc⟩ | ⟨e, -, he⟩ | ⟨-, hc, -⟩
  · cases hc
  · cases hc
  · exact ⟨(hostTurn_accept he.symm).1, (hostTurn_accept he.symm).2.1⟩
  · cases hc

/-- Everything a step can do. -/
theorem step_cases {s t : State} (h : step s = .next t) :
    (nextTurn s = .rest ∧ t = s) ∨
    (∃ tm, nextTurn s = .clock tm ∧ s.now < tm ∧ t = advance tm s) ∨
    (∃ level, nextTurn s = .reset level ∧ resetStep level (atReset s) = .next t) ∨
    (∃ level, nextTurn s = .line level ∧ t = lineStep level (atLine s)) ∨
    (∃ v, nextTurn s = .accept v ∧ s.phase = .idle ∧ s.rst = false ∧ exec (decodeCmd v) (atHost s) = .next t) ∨
    (∃ a, nextTurn s = .host a ∧ hostStep a (atHost s) = .next t) ∨
    (nextTurn s = .sequencer ∧ busy s = true ∧ (∃ d, dueAt s = some d ∧ d ≤ s.now) ∧
      exec (fetchInstr s) (atSequencer s) = .next t) := by
  unfold step at h
  split at h
  · rename_i ht; cases h; exact .inl ⟨ht, rfl⟩
  · rename_i tm ht; cases h; exact .inr (.inl ⟨tm, ht, nextTurn_clock ht, rfl⟩)
  · rename_i level ht; exact .inr (.inr (.inl ⟨level, ht, h⟩))
  · rename_i level ht; cases h; exact .inr (.inr (.inr (.inl ⟨level, ht, rfl⟩)))
  · rename_i v ht
    exact .inr (.inr (.inr (.inr (.inl ⟨v, ht, (nextTurn_accept ht).1, (nextTurn_accept ht).2, h⟩))))
  · rename_i a ht; exact .inr (.inr (.inr (.inr (.inr (.inl ⟨a, ht, h⟩)))))
  · rename_i ht
    exact .inr (.inr (.inr (.inr (.inr (.inr
      ⟨ht, (nextTurn_sequencer ht).1, (nextTurn_sequencer ht).2.1, h⟩)))))

/-! What a turn leaves of the state it starts from: everything but what the environment is still to do. -/

theorem passReset_eq (s : State) : passReset s = { s with resets := (passReset s).resets } := by
  unfold passReset; split <;> rfl

theorem passLine_eq (s : State) : passLine s = { s with line := { s.line with changes := (passLine s).line.changes } } := by
  unfold passLine; split <;> rfl

theorem passHost_eq (s : State) : passHost s = { s with env := (passHost s).env } := by
  unfold passHost; split <;> rfl

theorem atLine_eq (s : State) :
    atLine s = { s with resets := (atLine s).resets, line := { s.line with changes := s.line.changes.tail } } := by
  unfold atLine; rw [passReset_eq s]

theorem atHost_eq (s : State) :
    atHost s = { s with
      env := s.env.tail
      resets := (atHost s).resets
      line := { s.line with changes := (atHost s).line.changes } } := by
  unfold atHost; rw [passReset_eq (passLine s), passLine_eq s]

theorem atSequencer_eq (s : State) :
    atSequencer s = { s with
      env := (atSequencer s).env
      resets := (atSequencer s).resets
      line := { s.line with changes := (atSequencer s).line.changes } } := by
  unfold atSequencer; rw [passReset_eq (passLine (passHost s)), passLine_eq (passHost s), passHost_eq s]
/-! The host. -/

/-- What a host read leaves: everything but the record of reads and the draw counter (R74). -/
theorem hostRead_cases {off : BitVec 12} {s t : State} (h : hostRead off s = .next t) :
    ∃ v n, t = logRead off v { s with draws := n } := by
  unfold hostRead at h
  split at h
  · cases h
  · split at h
    · split at h
      · cases h; exact ⟨_, _, rfl⟩
      · cases h; exact ⟨_, s.draws, rfl⟩
    · cases h; exact ⟨_, s.draws, rfl⟩

end Sys2Proof.Machine
end

