-- ==== Sys2Proof/Tests/Slice0.lean ====
section
/-! SUPPORT. Tests. Expected values come from the spec: the examples of its rules and spec/95_test_vectors.md, or hand
calculation from them. After them, one witness for the hypotheses of each statement of Certificates/Slice0. -/

namespace Sys2Proof.Tests

-- Each `decide +kernel` waits for the kernel; one after another, so that they do not wait in a thread each.
set_option Elab.async false

open Sys2Proof Sys2Proof.Machine

/-! ### Helpers -/

/-- What a field of the next state is, if there is one. -/
def after {α : Type} (o : Host.Outcome State Fault Refusal) (f : State → α) : Option α :=
  match o with
  | .next t => some (f t)
  | .fault _ => none
  | .refused _ => none

/-- The reset machine with a command in progress in a phase. -/
def inPhase (op : Word) (p : Phase) : State :=
  { State.reset with
    status := { Status.reset with lastOp := wordOpcode op }
    phase := p
    latch := { Latch.reset with op := op } }

/-- The same with an open transport. -/
def opened (op : Word) (p : Phase) : State := { inPhase op p with port := { Transport.reset with isOpen := true } }

/-- The same with legal READ_INPUT_REGS arguments latched: slave 1, one register. -/
def polling (p : Phase) : State :=
  { opened 0x00000007 p with latch := { Latch.reset with op := 0x00000007, slave := 1, count := 1 } }

/-- The host's next access, possible at instant `t`. -/
def hostDoes (t : Time) (a : EnvAction) (s : State) : State := { s with env := [{ time := t, yields := 0, act := a }] }

/-- A change of `rst` at the instant `t`. -/
def resetGoes (t : Time) (yields : Nat) (level : Bool) (s : State) : State :=
  { s with resets := [{ time := t, yields := yields, level := level }] }

/-- A change of `line_present` at the instant `t`. -/
def lineGoes (t : Time) (yields : Nat) (level : Bool) (s : State) : State :=
  { s with line := { s.line with changes := [{ time := t, yields := yields, level := level }] } }

/-- The same machine without the exact-time model (R119), and the line's choice for its wire phase. -/
def untimed (tx : List TxChoice) (rx : List RxChoice) (s : State) : State :=
  { s with
    params := { s.params with timing := .untimed }
    line := { s.line with txChoices := tx, rxChoices := rx } }

/-- The normal response of R155's example, one register 0x0190. -/
def okFrame : List Byte := [0x01, 0x04, 0x02, 0x01, 0x90, 0xB8, 0xCC]

/-- The exception response 0x02 of spec/95_test_vectors.md. -/
def excFrame : List Byte := [0x01, 0x84, 0x02, 0xC2, 0xC1]

/-- READ_INPUT_REGS in DECODE, with a frame received. -/
def received (b : List Byte) : State :=
  let s := polling .decode
  { s with mem := Memory.writeCells [] (rxAddr 0) b, port := { s.port with rxN := b.length } }

/-- A character of the line without an error. -/
def ch (t : Time) (b : Byte) : LineChar := { start := t, byte := b, framingErr := false, parityErr := false }

/-! ### WellFormed: an ill-formed term for each check -/

theorem test_wf_badcmd_of_a_command_word : (Instr.badCmd 0x00000007).wf = false := by decide
theorem test_wf_byte_count : (Instr.rtuRspNormal 0x01 0x03 [0x0190] 0xCCB8).wf = false := by decide
theorem test_wf_too_many_registers : (Instr.rtuRspNormal 0x01 0xFC (List.replicate 126 0) 0).wf = false := by
  decide +kernel

/-! ### Decoding: words written out from the spec's encodings (R92, R93, R95 to R97) -/

theorem test_decode_open : decode (.cmd 0b00000000000000000000000000000001#32) = .ok .openCmd := by rfl
theorem test_decode_close : decode (.cmd 0b00000000000000000000000000000010#32) = .ok .closeCmd := by rfl
theorem test_decode_write_bytes : decode (.cmd 0b00000000000000000000000000000011#32) = .ok .writeBytes := by rfl
theorem test_decode_read_bytes : decode (.cmd 0b00000000000000000000000000000100#32) = .ok .readBytes := by rfl
theorem test_decode_encode_rir : decode (.cmd 0b00000000000000000000000000000101#32) = .ok .encodeRir := by rfl
theorem test_decode_decode_resp : decode (.cmd 0b00000000000000000000000000000110#32) = .ok .decodeResp := by rfl
theorem test_decode_read_input_regs : decode (.cmd 0b00000000000000000000000000000111#32) = .ok .readInputRegs := by rfl
theorem test_decode_decode_temp : decode (.cmd 0b00000000000000000000000000001000#32) = .ok .decodeTemp := by rfl
theorem test_decode_decode_hum : decode (.cmd 0b00000000000000000000000000001001#32) = .ok .decodeHum := by rfl
theorem test_decode_crc_init : decode (.cmd 0b00000000000000000000000000001010#32) = .ok .crcInit := by rfl
theorem test_decode_crc_update : decode (.cmd 0b00000000000000000000000000001011#32) = .ok .crcUpdate := by rfl

/-- Opcode 0x0C is illegal, and so is opcode 0x07 with a reserved bit set (R93). -/
theorem test_decode_badcmd :
    decode (.cmd 0b00000000000000000000000000001100#32) = .ok (.badCmd 0x0000000C) ∧
      decode (.cmd 0b10000000000000000000000000000111#32) = .ok (.badCmd 0x80000007) := by
  exact ⟨rfl, rfl⟩

/-- R95: [slave][0x04][startHi][startLo][countHi][countLo][crcLo][crcHi]. -/
theorem test_decode_request :
    decode (.frame [0x01, 0x04, 0x12, 0x34, 0x00, 0x02, 0x3C, 0xBD]) =
      .ok (.rtuReqReadInputRegs 0x01 0x1234 0x0002 0xBD3C) := by
  rfl

/-- R96: [slave][0x04][byteCount][registers, high byte first][crcLo][crcHi]. -/
theorem test_decode_normal_response : decode (.frame okFrame) = .ok (.rtuRspNormal 0x01 0x02 [0x0190] 0xCCB8) := by rfl

/-- R97: [slave][0x84][code][crcLo][crcHi]. -/
theorem test_decode_exception_response : decode (.frame excFrame) = .ok (.rtuRspException 0x01 0x02 0xC1C2) := by rfl

theorem test_decode_rejects_a_short_frame : decode (.frame [0x01, 0x84, 0x02, 0xC2]) = .error .frameShort := by rfl
theorem test_decode_rejects_another_function :
    decode (.frame [0x01, 0x03, 0x02, 0xC2, 0xC1]) = .error .functionUnknown := by
  rfl
theorem test_decode_rejects_a_length : decode (.frame [0x01, 0x84, 0x02, 0x00, 0xC2, 0xC1]) = .error .lengthMismatch := by
  rfl
theorem test_decode_rejects_126_registers :
    (match decode (.frame (0x01 :: 0x04 :: 0xFC :: List.replicate 254 0x00)) with
      | .error e => e == .frameTooLong
      | .ok _ => false) = true := by
  decide +kernel

/-! ### The instructions, one step each -/

/-- R120: after reset OPEN gives STATUS 0x00010006. -/
theorem test_open : after (exec .openCmd (inPhase 0x00000001 .exec)) statusWord = some 0x00010006 := by decide +kernel

/-- R120: an OPEN of an open transport fails with OpenFailed and leaves it open. -/
theorem test_open_twice : after (exec .openCmd (opened 0x00000001 .exec)) statusWord = some 0x00011106 := by decide +kernel

/-- R121: CLOSE gives STATUS 0x00020002. -/
theorem test_close : after (exec .closeCmd (opened 0x00000002 .exec)) statusWord = some 0x00020002 := by decide +kernel

/-- R114: at 9600 8N1 the first character of a WRITE_BYTES occupies 1/960 s from t_start; 0x53 goes out as the start bit, then
1 1 0 0 1 0 1 0 (least significant first), then the stop bit (R78). -/
theorem test_write_bytes_sends :
    after
        (exec .writeBytes
          { opened 0x00000003 .tx with
            latch := { Latch.reset with op := 0x00000003, len := 2 }
            port := { Transport.reset with isOpen := true, deadline := 1 / 2 }
            mem := [(0x100, 0x53)] })
        (fun t => (t.seen.wire, t.port.tLast, t.port.txK, t.phase)) =
      some
        ([{ byte := 0x53, bits := [false, true, true, false, false, true, false, true, false, true], start := 0,
            stop := 1 / 960, whole := true }], 1 / 960, 1, .tx) := by
  decide +kernel

/-- R124: with WTO = 1 ms every WRITE_BYTES ends in WriteTimeout with nothing sent (CLASS 1, CODE 2). -/
theorem test_write_timeout :
    after
        (exec .writeBytes
          { opened 0x00000003 .tx with
            latch := { Latch.reset with op := 0x00000003, len := 1 }
            port := { Transport.reset with isOpen := true, deadline := 1 / 1000 } })
        (fun t => (statusWord t, t.seen.wire)) =
      some (0x00032106, []) := by
  decide +kernel

/-- R116: the last of M characters is stored, and READ_BYTES completes OK with RXLEN = M. -/
theorem test_read_bytes_by_count :
    after
        (exec .readBytes
          { opened 0x00000004 .rxFrame with
            latch := { Latch.reset with op := 0x00000004, len := 2 }
            port := { Transport.reset with isOpen := true, rxN := 1, tLast := 1 / 960, deadline := 1 / 2 }
            line := { State.reset.line with chars := [ch (1 / 960) 0xA5] } })
        (fun t => (statusWord t, t.regs.rxLen, Memory.read t.mem 0x504, t.port.tLast)) =
      some (0x00040006, 2, some 0xA5, 1 / 480) := by
  decide +kernel

/-- R117 (a): a character that starts exactly at the deadline is not received. -/
theorem test_read_bytes_tie :
    after
        (exec .readBytes
          { opened 0x00000004 .rxWait with
            latch := { Latch.reset with op := 0x00000004, len := 2 }
            port := { Transport.reset with isOpen := true, deadline := 1 / 2 }
            line := { State.reset.line with chars := [ch (1 / 2) 0xA5] } })
        (fun t => (statusWord t, t.regs.rxLen, t.mem)) =
      some (0x00044106, 0, []) := by
  decide +kernel

/-- R154: SLAVE 1, START 0x0000, COUNT 1 gives 01 04 00 00 00 01 31 CA. -/
theorem test_encode_rir :
    after
        (exec .encodeRir
          { inPhase 0x00000005 .exec with latch := { Latch.reset with op := 0x00000005, slave := 1, count := 1 } })
        (fun t => Memory.readCells t.mem 0x100 8) =
      some ([0x01, 0x04, 0x00, 0x00, 0x00, 0x01, 0x31, 0xCA].map some) := by
  decide +kernel

/-- R155's example: RESULT[0] = 0x0190, RESULT_COUNT = 1. -/
theorem test_decode_resp :
    after
        (exec .decodeResp
          { inPhase 0x00000006 .exec with
            latch := { Latch.reset with op := 0x00000006, slave := 1, func := 4, count := 1, len := 7 }
            mem := Memory.writeCells [] 0x500 okFrame })
        (fun t => (statusWord t, Memory.readHalf t.mem 0x900, t.regs.resultCount)) =
      some (0x00060002, some 0x0190, 1) := by
  decide +kernel

/-- A flipped payload bit is CrcMismatch (R159 (b)): CLASS 2, CODE 1, and DIAG_CRC shows the CRC the frame carried. -/
theorem test_decode_resp_flip :
    after
        (exec .decodeResp
          { inPhase 0x00000006 .exec with
            latch := { Latch.reset with op := 0x00000006, slave := 1, func := 4, count := 1, len := 7 }
            mem := Memory.writeCells [] 0x500 [0x00, 0x04, 0x02, 0x01, 0x90, 0xB8, 0xCC] })
        (fun t => (statusWord t, t.regs.diagRecv, t.regs.resultCount)) =
      some (0x00061202, 0xCCB8, 0) := by
  decide +kernel

/-- R191: COUNT 126 is BADARG, and nothing is encoded. -/
theorem test_read_input_regs_badarg :
    after
        (exec .readInputRegs
          { opened 0x00000007 .exec with latch := { Latch.reset with op := 0x00000007, slave := 1, count := 126 } })
        (fun t => (statusWord t, t.mem)) =
      some (0x00072306, []) := by
  decide +kernel

/-- R190's example: a response 01 04 02 01 90 B8 CC completes OK with RESULT[0] = 0x0190, RESULT_COUNT = 1, RXLEN = 7. -/
theorem test_read_input_regs :
    after (exec .readInputRegs (received okFrame))
        (fun t => (statusWord t, Memory.readHalf t.mem 0x900, t.regs.resultCount, t.regs.rxLen)) =
      some (0x00070006, some 0x0190, 1, 7) := by
  decide +kernel

/-- R212: 0xFFFF is -0.01, whose sign only NEG shows. -/
theorem test_decode_temp_negative :
    after
        (exec .decodeTemp { inPhase 0x00000008 .exec with latch := { Latch.reset with op := 0x00000008, raw := 0xFFFF } })
        (fun t => (t.regs.scale.x100, t.regs.scale.int, t.regs.scale.frac, t.regs.scale.neg, t.regs.scale.kind)) =
      some (0xFFFFFFFF, 0, 1, true, false) := by
  decide +kernel

/-- R212: 0x0190 is 4.0, 0x4010000000000000. -/
theorem test_decode_temp :
    after
        (exec .decodeTemp { inPhase 0x00000008 .exec with latch := { Latch.reset with op := 0x00000008, raw := 0x0190 } })
        (fun t => (statusWord t, t.regs.scale)) =
      some
        (0x00080002,
          { x100 := 400, int := 4, frac := 0, neg := false, kind := false, f64Lo := 0, f64Hi := 0x40100000 }) := by
  decide +kernel

/-- R213: 0xFFFF is 655.35, 0x40847ACCCCCCCCCD. -/
theorem test_decode_hum :
    after
        (exec .decodeHum { inPhase 0x00000009 .exec with latch := { Latch.reset with op := 0x00000009, raw := 0xFFFF } })
        (fun t => t.regs.scale) =
      some
        { x100 := 65535, int := 655, frac := 35, neg := false, kind := true, f64Lo := 0xCCCCCCCD, f64Hi := 0x40847ACC } := by
  decide +kernel

/-- R152: CRC_INIT sets CRC_ACC to 0xFFFF. -/
theorem test_crc_init :
    after
        (exec .crcInit { inPhase 0x0000000A .exec with regs := { Regs.reset with crcAcc := 0x1234 } })
        (fun t => (t.regs.crcAcc, statusWord t)) =
      some (0xFFFF, 0x000A0002) := by
  decide +kernel

/-- R153: after CRC_INIT, CRC_UPDATE with RAW = 0x01 gives 0x807E; RAW[15:8] is ignored. -/
theorem test_crc_update :
    after
        (exec .crcUpdate { inPhase 0x0000000B .exec with latch := { Latch.reset with op := 0x0000000B, raw := 0xAB01 } })
        (fun t => t.regs.crcAcc) =
      some 0x807E := by
  decide +kernel

/-- R150: the check value over "123456789". -/
theorem test_crc_check_value : crc16 [0x31, 0x32, 0x33, 0x34, 0x35, 0x36, 0x37, 0x38, 0x39] = 0x4B37 := by decide +kernel

/-- R93: opcode 0x0C gives CLASS 3, CODE 1, LAST_OP 0x0C. -/
theorem test_badcmd : after (exec (.badCmd 0x0000000C) (inPhase 0x0000000C .exec)) statusWord = some 0x000C1302 := by
  decide +kernel

/-- R95: the request frame is laid in TXBUF in index order. -/
theorem test_request_frame :
    after (exec (.rtuReqReadInputRegs 0x01 0x0000 0x0002 0xCB71) State.reset)
        (fun t => Memory.readCells t.mem 0x100 8) =
      some ([0x01, 0x04, 0x00, 0x00, 0x00, 0x02, 0x71, 0xCB].map some) := by
  decide +kernel

/-- R96, R155: a response from another slave with a correct CRC is SlaveMismatch (CLASS 2, CODE 2). -/
theorem test_normal_response_of_another_slave :
    after (exec (.rtuRspNormal 0x02 0x02 [0x0190] (crc16 [0x02, 0x04, 0x02, 0x01, 0x90])) (polling .decode)) statusWord =
      some 0x00072206 := by
  decide +kernel

/-- R97, R155: the exception response 0x02 (CLASS 2, CODE 4, EXC_CODE 0x02). -/
theorem test_exception_response :
    after (exec (.rtuRspException 0x01 0x02 0xC1C2) (polling .decode)) statusWord = some 0x02074206 := by
  decide +kernel

/-! ### The host port and the step -/

/-- R25: a CMD write while BUSY = 1 is discarded with REJECT. -/
theorem test_reject :
    after (step (hostDoes 0 (.write 0x000 .b4 0x00000002) (polling .txGap))) (fun t => (t.status.reject, t.latch.op)) =
      some (true, 0x00000007) := by
  decide +kernel

/-- R50: a read of a TXBUF cell never written stops. -/
theorem test_unwritten_read :
    (match step (hostDoes 0 (.read 0x100 .b4) State.reset) with
      | .fault (.unwrittenCell a) => a == 0x100
      | _ => false) = true := by
  decide +kernel

/-- R247: a host access and a completion at the same instant, in both orders: the CMD write is discarded if it goes first, and waits
if it yields. -/
theorem test_race :
    after (step (hostDoes 0 (.write 0x000 .b4 0x00000002) { inPhase 0x00000001 .exec with
        latch := { Latch.reset with op := 0x00000001, t0 := -1 } })) (fun t => (t.status.reject, t.phase)) =
      some (true, .exec) ∧
    after (step { inPhase 0x00000001 .exec with
        latch := { Latch.reset with op := 0x00000001, t0 := -1 }
        env := [{ time := 0, yields := 1, act := .write 0x000 .b4 0x00000002 }] }) (fun t => (t.status.done, t.phase)) =
      some (true, .idle) := by
  decide +kernel

/-- WRITE_BYTES or another command in TX or TX_GAP, with a byte to send. -/
def sending (op : Word) (p : Phase) (k len : Nat) (deadline : Time) : State :=
  { opened op p with
    latch := { Latch.reset with op := op, len := BitVec.ofNat 16 len }
    port := { Transport.reset with isOpen := true, txK := k, deadline := deadline }
    mem := [(0x100 + 4 * k, 0x53)] }

/-- An RX phase with `n` characters received, the last of them ended at 0. -/
def receiving (op : Word) (p : Phase) (n len : Nat) (cs : List LineChar) (deadline : Time) : State :=
  { opened op p with
    latch := { Latch.reset with op := op, len := BitVec.ofNat 16 len, slave := 1, count := 1 }
    port := { Transport.reset with isOpen := true, rxN := n, deadline := deadline }
    line := { State.reset.line with chars := cs } }

/-- The line dropped. -/
def dropped (s : State) : State := { s with line := { s.line with present := false } }

/-- A later instant. -/
def later (t : Time) (s : State) : State := { s with now := t }

/-- R114: a line that drops at the instant the last character ends gives WriteFailed, whatever the host does at that instant and in
whatever order the environment is listed. -/
theorem test_line_failure_wins_in_tx :
    let s := lineGoes (1 / 960) 1 false (later (1 / 960) (sending 0x00000003 .tx 0 1 (1 / 2)))
    nextTurn { s with env := [{ time := 1 / 960, yields := 1, act := .read 0x004 .b4 }] } = .line false ∧
      nextTurn (hostDoes 0 .wait s) = .line false ∧ nextTurn s = .line false ∧
      after (step (dropped s)) statusWord = some 0x00033106 := by
  decide +kernel

/-- R117 (d): a line that drops at the instant of a silence ending gives ReadFailed, and one that drops at the end of a character does
not count it. -/
theorem test_line_failure_wins_in_rx :
    let s := lineGoes (7 / 1920) 1 false (later (7 / 1920) (receiving 0x00000004 .rxFrame 1 2 [] (1 / 2)))
    let c := lineGoes (1 / 960) 1 false (later (1 / 960) (receiving 0x00000004 .rxWait 0 2 [ch 0 0xA5] (1 / 2)))
    nextTurn (hostDoes 0 .wait s) = .line false ∧ nextTurn (hostDoes 0 .wait c) = .line false ∧
      after (step (dropped s)) (fun t => (statusWord t, t.regs.rxLen)) = some (0x00045106, 1) ∧
      after (step (dropped c)) (fun t => (statusWord t, t.regs.rxLen)) = some (0x00045106, 0) := by
  decide +kernel

/-- R119: in the untimed model a reset can find 1 byte of 2 sent. -/
theorem test_untimed_tx_goes_byte_by_byte :
    let s := untimed [] [] (sending 0x00000003 .tx 0 2 0)
    after (step s) (fun t => (t.port.txK, t.phase, t.seen.wire.length)) = some (1, .tx, 1) ∧
      nextTurn (resetGoes 0 0 true s) = .reset true ∧ nextTurn (resetGoes 0 1 true s) = .sequencer := by
  decide +kernel

/-- R50, R262: a reset in the middle of a character whose cell was never written stops the model. -/
theorem test_reset_in_an_unwritten_character :
    (match step (resetGoes 0 0 true (later (1 / 1920) { sending 0x00000003 .tx 0 1 (1 / 2) with mem := [] })) with
      | .fault (.unwrittenCell a) => a == 0x100
      | _ => false) = true := by
  decide +kernel

/-! ### Witnesses: states and operands that meet each statement's hypotheses, clause by clause, at boundary values -/

/-- A DECODE_RESP of a frame in RXBUF. -/
def judging (b : List Byte) (len : Nat) : State :=
  { inPhase 0x00000006 .exec with
    latch := { Latch.reset with op := 0x00000006, slave := 1, func := 4, count := 1, len := BitVec.ofNat 16 len }
    mem := Memory.writeCells [] 0x500 b }

/-- A normal frame with its CRC. -/
def normalFrame (eS eF : Byte) (regs : List Half) : List Byte :=
  let body := eS :: eF :: BitVec.ofNat 8 (2 * regs.length) :: regBytes regs
  body ++ crcBytes (crc16 body)

theorem witness_DecodeEncodeRoundTrip :
    (Instr.badCmd 0xFFFFFFFF).wf = true ∧ (Instr.rtuRspNormal 0xFF 0xFA (List.replicate 125 0xFFFF) 0x1234).wf = true ∧
      (Instr.rtuRspNormal 0x00 0x00 [] 0x0000).wf = true := by
  decide +kernel

theorem witness_DecodedIsWellFormedAndReencodes :
    decode (.cmd 0x00000000) = .ok (.badCmd 0x00000000) ∧
      decode (.frame [0x00, 0x04, 0x00, 0x00, 0x00]) = .ok (.rtuRspNormal 0x00 0x00 [] 0x0000) := by
  exact ⟨rfl, rfl⟩

theorem witness_IllegalWordCompletesWithBadCmd :
    (0x00000107#32).toNat / 256 ≠ 0 ∧ (0x00000000#32).toNat % 256 = 0 ∧ 0x0C ≤ (0x0000000C#32).toNat % 256 ∧
      State.reset.phase = .idle ∧ (inPhase 0x0000000C .exec).phase = .exec := by
  decide

theorem witness_CmdWriteIsAcceptedInItsStep :
    let s := hostDoes 0 (.write 0x000 .b4 0x00000007) State.reset
    s.env = [{ time := 0, yields := 0, act := .write 0x000 .b4 0x00000007 }] ∧ s.phase = .idle ∧ s.rst = false ∧
      isTimed s = true ∧ (0 : Time) ≤ s.now ∧ resetDue s = none ∧ lineDue s = none ∧ nextTurn s = .accept 0x00000007 := by
  decide +kernel

/-- An EXEC phase at its end. -/
def ending : State := later (1 / 1000000) (inPhase 0x00000001 .exec)

/-- Nothing else is due: with nothing for the environment to do, and with a host access a second later. -/
theorem witness_StepRunsCommandInProgress_alone :
    let s := hostDoes 1 (.read 0x004 .b4) ending
    dueAt ending = some (1 / 1000000) ∧ (1 / 1000000 : Time) ≤ ending.now ∧ hostDue ending = none ∧ lineDue ending = none ∧
      resetDue ending = none ∧ ending.phase ≠ .decode ∧
      dueAt s = some (1 / 1000000) ∧ hostDue s = none ∧ lineDue s = none ∧ resetDue s = none := by
  decide +kernel

/-- A host access, a change of `line_present` and a reset at the same instant all yield. -/
theorem witness_StepRunsCommandInProgress_yields :
    let s : State := resetGoes 0 1 true (lineGoes 0 1 false
      { ending with env := [{ time := 0, yields := 1, act := .read 0x004 .b4 }] })
    dueAt s = some (1 / 1000000) ∧ (1 / 1000000 : Time) ≤ s.now ∧ nextTurn s = .sequencer := by
  decide +kernel

/-- A line that drops in RX_WAIT at the very deadline, and in TX_GAP at the end of the gap. -/
theorem witness_StepRunsCommandInProgress_line :
    let s := lineGoes (1 / 2) 1 false (later (1 / 2) (receiving 0x00000004 .rxWait 0 7 [] (1 / 2)))
    let g := lineGoes (7 / 1920) 1 false (later (7 / 1920) (polling .txGap))
    (dueAt s = some (1 / 2) ∧ (1 / 2 : Time) ≤ s.now ∧ s.phase = .rxWait ∧ isTimed s = true ∧ s.line.present = true ∧
      hostDue s = none ∧ resetDue s = none) ∧
    (dueAt g = some (7 / 1920) ∧ (7 / 1920 : Time) ≤ g.now ∧ g.phase = .txGap ∧ isTimed g = true ∧ g.line.present = true ∧
      s.line.changes.length = 1 ∧ g.line.changes.length = 1) := by
  decide +kernel

theorem witness_DecodePhaseRunsReceivedFrame :
    decode (.frame okFrame) = .ok (.rtuRspNormal 0x01 0x02 [0x0190] 0xCCB8) ∧
      (received okFrame).phase = .decode ∧ (received okFrame).latch.op = 0x00000007 ∧
      Memory.readCells (received okFrame).mem 0x500 (received okFrame).port.rxN = okFrame.map some ∧
      (judging okFrame 7).phase = .exec ∧ (judging okFrame 7).latch.op = 0x00000006 ∧
      (judging okFrame 7).latch.len.toNat ≤ 256 ∧
      Memory.readCells (judging okFrame 7).mem 0x500 (judging okFrame 7).latch.len.toNat = okFrame.map some := by
  refine ⟨rfl, ?_⟩
  decide +kernel

theorem witness_OpenSucceedsOrFailsAndCloseCloses :
    let s := inPhase 0x00000001 .exec
    s.phase = .exec ∧ s.port.isOpen = false ∧ s.line.present = true ∧ s.regs.cfgBaud.toNat ∈ s.params.supportedBaud ∧
      s.regs.cfgFrame.toNat % 16 = 8 ∧ s.regs.cfgFrame.toNat / 16 % 4 ≠ 3 ∧ s.regs.cfgFrame.toNat / 64 = 1 ∧
      s.regs.cfgRtoMs ≠ 0 ∧ s.regs.cfgWtoMs ≠ 0 ∧ (opened 0x00000001 .exec).port.isOpen = true ∧
      (dropped s).line.present = false := by
  decide

theorem witness_OnlyOpenAndCloseChangeOpen :
    after (step ending) (fun t => t.port.isOpen) = some true ∧ ending.port.isOpen = false ∧
      after (step (later (1 / 1000000) (opened 0x00000002 .exec))) (fun t => t.port.isOpen) = some false ∧
      after (step (resetGoes 0 0 true (opened 0x00000002 .exec))) (fun t => t.port.isOpen) = some false ∧
      nextTurn (resetGoes 0 0 true (opened 0x00000002 .exec)) = .reset true := by
  decide +kernel

theorem witness_GapHoldsTheFirstStartBit :
    (polling .txGap).phase = .txGap ∧ (polling .txGap).line.present = true ∧ isTimed (polling .txGap) = true ∧
      isTimed (untimed [] [] (dropped (polling .txGap))) = false := by
  decide

/-- The first of two characters, the last of 256, and the seventh of a request, each ending exactly at the deadline; the three
parities; and in the untimed model the first byte, and the last, of each choice that sends it. -/
theorem witness_TransmitSendsCharacters :
    let s := sending 0x00000003 .tx 0 2 (1 / 960)
    let l := sending 0x00000003 .tx 255 256 (256 / 960)
    let r := sending 0x00000007 .tx 6 0 (7 / 960)
    let u (c : List TxChoice) := untimed c [] s
    (s.phase = .tx ∧ isTimed s = true ∧ s.line.present = true ∧
      s.phaseAt + (s.port.txK : Time) * charTime s + charTime s ≤ s.port.deadline ∧
      Memory.read s.mem (0x100 + 4 * s.port.txK) = some 0x53 ∧ s.latch.op = 0x00000003 ∧
      s.port.txK + 1 < s.latch.len.toNat) ∧
    (l.phaseAt + (l.port.txK : Time) * charTime l + charTime l ≤ l.port.deadline ∧
      Memory.read l.mem (0x100 + 4 * l.port.txK) = some 0x53 ∧ l.latch.len.toNat = l.port.txK + 1) ∧
    (r.phaseAt + (r.port.txK : Time) * charTime r + charTime r ≤ r.port.deadline ∧
      Memory.read r.mem (0x100 + 4 * r.port.txK) = some 0x53 ∧ r.latch.op = 0x00000007 ∧ r.port.txK + 1 < 8) ∧
    ((0x48#8).toNat / 16 % 4 = 0 ∧ (0x58#8).toNat / 16 % 4 = 1 ∧ (0x68#8).toNat / 16 % 4 = 2) ∧
    (isTimed (u []) = false ∧ (u []).line.txChoices.head? = none ∧ (u []).port.txK < 2 ∧
      (u [.ok]).line.txChoices.head? = some .ok ∧ (u [.timeout 1]).line.txChoices.head? = some (.timeout 1) ∧
      (u [.timeout 1]).port.txK < 1 ∧ (u [.timeout 1]).port.txK + 1 < 2 ∧
      (u [.failed 1 true]).line.txChoices.head? = some (.failed 1 true) ∧ (untimed [] [] l).port.txK < 256) := by
  decide +kernel

/-- A deadline just too early; a drop in the gap; a drop in TX before, within, and without a character in progress; and each untimed
failure, after the k-th byte and with one byte left. -/
theorem witness_TransmitTimeoutAndLineFailure :
    let s := sending 0x00000003 .tx 0 1 (1 / 961)
    let g := dropped (polling .txGap)
    let d := dropped (sending 0x00000003 .tx 0 1 (1 / 2))
    let c := later (1 / 960) d
    let u (c : List TxChoice) := untimed c [] (sending 0x00000003 .tx 1 2 0)
    isTimed s = true ∧
    (s.phase = .tx ∧ s.line.present = true ∧
      s.port.deadline < s.phaseAt + (s.port.txK : Time) * charTime s + charTime s) ∧
    (isTimed g = true ∧ g.phase = .txGap ∧ g.line.present = false) ∧
    (isTimed d = true ∧ d.phase = .tx ∧ d.line.present = false ∧
      d.now ≤ d.phaseAt + (d.port.txK : Time) * charTime d) ∧
    (c.phaseAt + (c.port.txK : Time) * charTime c < c.now ∧
      c.phaseAt + (c.port.txK : Time) * charTime c + charTime c ≤ c.port.deadline ∧
      Memory.read c.mem (0x100 + 4 * c.port.txK) = some 0x53) ∧
    (isTimed (u [.timeout 1]) = false ∧ (u [.timeout 1]).phase = .tx ∧
      (u [.timeout 1]).line.txChoices.head? = some (.timeout 1) ∧ 1 ≤ (u [.timeout 1]).port.txK ∧
      (u [.failed 5 false]).line.txChoices.head? = some (.failed 5 false) ∧ 2 ≤ (u [.failed 5 false]).port.txK + 1 ∧
      (u [.failed 1 true]).line.txChoices.head? = some (.failed 1 true) ∧
      Memory.read (u [.failed 1 true]).mem (0x100 + 4 * (u [.failed 1 true]).port.txK) = some 0x53) := by
  decide +kernel

theorem witness_TxPhaseRefinesTransmitEngine :
    let s := sending 0x00000003 .tx 0 1 (1 / 960)
    s.phase = .tx ∧ s.latch.op = 0x00000003 ∧ isTimed s = true ∧ s.line.present = true ∧ s.env = [] ∧
      s.line.changes = [] ∧ s.resets = [] ∧ s.port.txK = 0 ∧
      s.now = s.phaseAt ∧ s.phaseAt ≤ s.port.deadline ∧ s.regs.cfgBaud ≠ 0 ∧ 1 ≤ s.latch.len.toNat ∧
      s.latch.len.toNat ≤ 256 ∧ Memory.readCells s.mem 0x100 s.latch.len.toNat = [0x53].map some ∧
      txEngine s.phaseAt (charTime s) s.port.deadline s.latch.len.toNat s.latch.len.toNat 0 = (.ok, 1, 1 / 960) := by
  decide +kernel

theorem witness_WireCommandsEndAtOnce :
    (sending 0x00000003 .exec 0 257 0).phase = .exec ∧ 256 < (sending 0x00000003 .exec 0 257 0).latch.len.toNat ∧
      (sending 0x00000003 .exec 0 256 0).latch.len.toNat ≤ 256 ∧ (inPhase 0x00000003 .exec).port.isOpen = false ∧
      (opened 0x00000003 .exec).latch.len = 0 ∧ (opened 0x00000003 .exec).port.isOpen = true := by
  decide

theorem witness_ReadBytesStartsReceiving :
    let s (n : Half) : State :=
      { State.reset with regs := { Regs.reset with argLen := n }, port := { Transport.reset with isOpen := true } }
    (s 1).phase = .idle ∧ (s 1).port.isOpen = true ∧ 1 ≤ (s 1).regs.argLen.toNat ∧ (s 256).regs.argLen.toNat ≤ 256 := by
  decide

/-- A first character that ends exactly at the deadline, the last of LEN, and the last of a response; and in the
untimed model a byte of each choice, at the bounds of R119. -/
theorem witness_ReceiveStoresAndEndsByCount :
    let s := receiving 0x00000004 .rxWait 0 2 [ch 0 0xA5] (1 / 960)
    let l := receiving 0x00000004 .rxFrame 255 256 [ch 0 0xA5] (1 / 960)
    let r := receiving 0x00000007 .rxFrame 6 0 [ch (1 / 300) 0xA5] (1 / 2)
    let u (c : RxChoice) := untimed [] [c] (receiving 0x00000004 .rxWait 0 2 [] 0)
    (s.latch.op = 0x00000004 ∧ s.phase = .rxWait ∧ isTimed s = true ∧ s.line.present = true ∧
      s.line.chars = [ch 0 0xA5] ∧ (ch 0 0xA5).framingErr = false ∧ (ch 0 0xA5).parityErr = false ∧
      (ch 0 0xA5).start < s.port.deadline ∧ (ch 0 0xA5).start + charTime s ≤ s.port.deadline ∧ s.port.rxN < 256 ∧
      s.port.rxN + 1 ≠ s.latch.len.toNat) ∧
    (l.latch.op = 0x00000004 ∧ l.phase = .rxFrame ∧ 1 ≤ l.port.rxN ∧
      (ch 0 0xA5).start < l.port.tLast + l.params.eofChars * charTime l ∧ l.port.rxN < 256 ∧
      l.port.rxN + 1 = l.latch.len.toNat) ∧
    (r.latch.op = 0x00000007 ∧ r.phase = .rxFrame ∧ 1 ≤ r.port.rxN ∧
      (ch (1 / 300) 0xA5).start < r.port.tLast + r.params.eofChars * charTime r ∧
      (ch (1 / 300) 0xA5).start + charTime r ≤ r.port.deadline ∧ r.port.rxN + 1 = 5 + 2 * r.latch.count.toNat) ∧
    (isTimed (u (.complete [0xA5])) = false ∧ (u (.complete [0xA5])).line.rxChoices.head? = some (.complete [0xA5]) ∧
      (u (.complete [0xA5])).port.rxN < 2 ∧ ([0xA5] : List Byte)[(u (.complete [0xA5])).port.rxN]? = some 0xA5 ∧
      (u (.timeout [0xA5])).line.rxChoices.head? = some (.timeout [0xA5]) ∧ (u (.timeout [0xA5])).port.rxN + 1 < 2 ∧
      (u (.failed [0xA5])).line.rxChoices.head? = some (.failed [0xA5])) := by
  decide +kernel

/-- Silence that ends exactly at the deadline, silence past it, nothing at all, a character at the deadline, and one that ends past
it; and each untimed ending, its bytes stored or the bound of R119 reached. -/
theorem witness_ReadBytesEndsBySilenceOrTimeout :
    let a := receiving 0x00000004 .rxFrame 1 7 [ch (7 / 1920) 0xA5] (7 / 1920)
    let b := receiving 0x00000004 .rxFrame 1 7 [] (1 / 1000)
    let c := receiving 0x00000004 .rxWait 0 7 [] (1 / 2)
    let d := receiving 0x00000004 .rxWait 0 7 [ch (1 / 2) 0xA5] (1 / 2)
    let e := receiving 0x00000004 .rxFrame 1 7 [ch (1 / 1000) 0xA5] (1 / 960)
    let u (c : RxChoice) := untimed [] [c] (receiving 0x00000004 .rxFrame 1 2 [] 0)
    (a.phase = .rxFrame ∧ isTimed a = true ∧ a.line.present = true ∧ 1 ≤ a.port.rxN ∧
      a.port.tLast + a.params.eofChars * charTime a ≤ (ch (7 / 1920) 0xA5).start ∧
      a.port.tLast + a.params.eofChars * charTime a ≤ a.port.deadline) ∧
    (1 ≤ b.port.rxN ∧ b.line.chars.head? = none ∧ b.port.deadline < b.port.tLast + b.params.eofChars * charTime b) ∧
    (c.phase = .rxWait ∧ c.port.rxN = 0 ∧ c.line.chars = []) ∧
    (d.line.chars = [ch (1 / 2) 0xA5] ∧ d.port.rxN = 0 ∧ d.port.deadline ≤ (ch (1 / 2) 0xA5).start) ∧
    (e.line.chars = [ch (1 / 1000) 0xA5] ∧ 1 ≤ e.port.rxN ∧
      (ch (1 / 1000) 0xA5).start < e.port.tLast + e.params.eofChars * charTime e ∧
      e.port.deadline < (ch (1 / 1000) 0xA5).start + charTime e) ∧
    (isTimed (u (.complete [0xA5])) = false ∧ (u (.complete [0xA5])).phase = .rxFrame ∧
      (u (.complete [0xA5])).line.rxChoices.head? = some (.complete [0xA5]) ∧ ([0xA5] : List Byte) ≠ [] ∧
      ([0xA5] : List Byte).length ≤ (u (.complete [0xA5])).port.rxN ∧
      (u (.timeout [0xA5, 0x5A])).line.rxChoices.head? = some (.timeout [0xA5, 0x5A]) ∧
      2 ≤ (u (.timeout [0xA5, 0x5A])).port.rxN + 1 ∧
      (u (.complete [])).line.rxChoices.head? = some (.complete []) ∧ (untimed [] [] a).line.rxChoices = []) := by
  decide +kernel

/-- A drop, a framing error, and a parity error with odd parity; and an untimed FAILED, with its byte stored. -/
theorem witness_ReadBytesFailsOnErrorOrLineDrop :
    let d := dropped (receiving 0x00000004 .rxWait 0 7 [] (1 / 2))
    let f : LineChar := { ch 0 0xA5 with framingErr := true }
    let q : LineChar := { ch 0 0xA5 with parityErr := true }
    let s := receiving 0x00000004 .rxWait 0 7 [f] (1 / 2)
    let p : State := { receiving 0x00000004 .rxFrame 1 7 [q] (1 / 2) with regs := { Regs.reset with cfgFrame := 0x58 } }
    let u := untimed [] [.failed [0xA5]] (receiving 0x00000007 .rxFrame 1 0 [] 0)
    (d.phase = .rxWait ∧ isTimed d = true ∧ d.line.present = false) ∧
    (s.line.present = true ∧ s.line.chars = [f] ∧ f.framingErr = true ∧ s.port.rxN = 0 ∧ f.start < s.port.deadline ∧
      f.start + charTime s ≤ s.port.deadline) ∧
    (p.line.chars = [q] ∧ q.parityErr = true ∧ p.regs.cfgFrame.toNat / 16 % 4 ≠ 0 ∧
      q.start < p.port.tLast + p.params.eofChars * charTime p ∧ q.start + charTime p ≤ p.port.deadline) ∧
    (isTimed u = false ∧ u.phase = .rxFrame ∧ u.line.rxChoices.head? = some (.failed [0xA5]) ∧
      ([0xA5] : List Byte).length ≤ u.port.rxN) := by
  decide +kernel

theorem witness_RxPhaseRefinesArbiter :
    let s := receiving 0x00000004 .rxWait 0 7 [ch 0 0xA5] (1 / 2)
    s.phase = .rxWait ∧ s.latch.op = 0x00000004 ∧ isTimed s = true ∧ s.line.present = true ∧ s.env = [] ∧
      s.line.changes = [] ∧ s.resets = [] ∧
      s.port.rxN = 0 ∧ s.now ≤ s.port.deadline ∧ s.regs.cfgBaud ≠ 0 ∧ s.params.legal = true ∧ 1 ≤ s.latch.len.toNat ∧
      s.latch.len.toNat ≤ 256 ∧ (∀ c ∈ s.line.chars, s.now ≤ c.start) ∧
      arbiter s.regs (charTime s) (eofTime s) s.port.deadline s.latch.len.toNat s.line.chars 0 s.port.tLast =
        (.complete, [0xA5], 9 / 1920) := by
  decide +kernel

theorem witness_RxPhaseRefinesArbiter_line (tc : Time) : lineAllowed tc [ch 0 0xA5, ch tc 0x5A] := by
  simp [lineAllowed, ch]

theorem witness_WirePhasesEndByTheirDeadline :
    let s := receiving 0x00000004 .rxWait 0 7 [] (1 / 2)
    isTimed s = true ∧ s.phase = .rxWait ∧ dueAt s = some (1 / 2) ∧
      dueAt (sending 0x00000003 .tx 0 1 (1 / 961)) = some (1 / 961) ∧ ending.phase = .exec ∧ isTimed ending = true ∧
      (received okFrame).phase = .decode ∧ isTimed (received okFrame) = true := by
  decide +kernel

theorem witness_EncodeRirWritesTheRequest : (inPhase 0x00000005 .exec).phase = .exec := by decide

theorem witness_CrcCommandsWriteTheAccumulator : (inPhase 0x0000000A .exec).phase = .exec := by decide

/-- Four bytes; a short normal form; a wrong CRC; each later check on a frame that passes the earlier ones. -/
theorem witness_DecoderChecksInOrder :
    (okFrame.take 4).length < 5 ∧
    (5 ≤ (okFrame.take 6).length ∧ ((okFrame.take 6).getD 1 0).toNat < 128 ∧ (okFrame.take 6).length < 5 + 2 * 1) ∧
    (5 ≤ okFrame.length ∧ 5 + 2 * 1 ≤ okFrame.length ∧ crc16 (okFrame.take 5) = 0xCCB8 ∧ okFrame.getD 0 0 = 0x01 ∧
      okFrame.getD 1 0 = 0x04 ∧ okFrame.getD 1 0 ≠ (0x04 ||| 0x80) ∧ (okFrame.getD 2 0).toNat = 2 * 1 ∧
      okFrame.length = 5 + 2 * 1) ∧
    (128 ≤ (excFrame.getD 1 0).toNat ∧ crc16 (excFrame.take 3) = 0xC1C2 ∧ excFrame.getD 0 0 = 0x01 ∧
      excFrame.getD 1 0 = (0x04 ||| 0x80)) ∧
    crc16 ((okFrame.set 0 0x02).take 5) ≠ 0xCCB8 := by
  decide +kernel

theorem witness_DecodeRespWritesItsResults :
    (judging okFrame 7).phase = .exec ∧ 256 < (judging okFrame 257).latch.len.toNat ∧
      (judging okFrame 7).latch.len.toNat ≤ 256 ∧
      (decodeCells (Memory.readCells (judging okFrame 7).mem 0x500 7) 0x01 0x04 0x0001).isSome = true ∧
      (decodeCells (Memory.readCells (judging okFrame 6).mem 0x500 6) 0x01 0x04 0x0001).isSome = true := by
  decide +kernel

/-- LEN 4 and 5; RXBUF[1] unwritten, and RXBUF[7] unwritten behind a byte 1 that D2 lets pass at both of its bounds; the whole frame
written; and each way a transmission uses an unwritten cell. -/
theorem witness_UnwrittenCellStopsItsUse :
    let w : State := { sending 0x00000003 .tx 0 1 (1 / 960) with mem := [] }
    let d := dropped (later (1 / 1920) w)
    let u (c : List TxChoice) := untimed c [] { sending 0x00000003 .tx 0 2 0 with mem := [] }
    ((judging okFrame 4).phase = .exec ∧ (judging okFrame 4).latch.len.toNat < 5 ∧ (judging okFrame 6).latch.len.toNat = 6 ∧
      Memory.read (judging okFrame 6).mem 0x504 = some 0x04 ∧ (0x04#8).toNat < 128 ∧
      6 < 5 + 2 * (judging okFrame 6).latch.count.toNat) ∧
    (5 ≤ (judging [0x01] 5).latch.len.toNat ∧ Memory.read (judging [0x01] 5).mem 0x504 = none ∧
      (judging okFrame 8).latch.len.toNat ≤ 256 ∧ Memory.read (judging okFrame 8).mem (0x500 + 4 * 7) = none ∧
      5 + 2 * (judging okFrame 8).latch.count.toNat ≤ 8 ∧ Memory.read (judging excFrame 6).mem 0x504 = some 0x84 ∧
      128 ≤ (0x84#8).toNat ∧ Memory.read (judging excFrame 6).mem (0x500 + 4 * 5) = none) ∧
    ((Memory.readCells (judging okFrame 7).mem 0x500 7).all Option.isSome = true) ∧
    (w.phase = .tx ∧ isTimed w = true ∧ w.line.present = true ∧
      w.phaseAt + (w.port.txK : Time) * charTime w + charTime w ≤ w.port.deadline ∧
      Memory.read w.mem (0x100 + 4 * w.port.txK) = none) ∧
    (d.line.present = false ∧ d.phaseAt + (d.port.txK : Time) * charTime d < d.now) ∧
    (isTimed (u []) = false ∧ (u []).line.txChoices = [] ∧ (u []).port.txK < 2 ∧
      (u [.ok]).line.txChoices.head? = some .ok ∧
      (u [.timeout 1]).line.txChoices.head? = some (.timeout 1) ∧ ¬ (1 ≤ (u []).port.txK ∨ 2 ≤ (u []).port.txK + 1) ∧
      (u [.failed 0 true]).line.txChoices.head? = some (.failed 0 true)) := by
  decide +kernel

theorem witness_NormalResponseRoundTrip :
    (0x7F#8).toNat < 128 ∧ (List.replicate 125 (0xFFFF#16)).length ≤ 125 ∧
      (125#16).toNat = (List.replicate 125 (0xFFFF#16)).length ∧
      (250#8).toNat = 2 * (List.replicate 125 (0xFFFF#16)).length := by
  decide +kernel

theorem witness_SingleBitFlipIsCrcMismatch :
    (0x04#8).toNat < 128 ∧ ([0x0190#16] : List Half).length ≤ 125 ∧ (1#16).toNat = 1 ∧ (2#8).toNat = 2 * 1 ∧
      normalFrame 0x01 0x04 [0x0190] = okFrame ∧ okFrame[6]? = some 0xCC ∧ 7 < 8 := by
  decide +kernel

theorem witness_ExceptionFrameIsReported :
    [0x01#8, 0x84#8, 0x02#8] ++ crcBytes (crc16 [0x01, 0x84, 0x02]) = excFrame ∧ 1 ≤ (1#16).toNat ∧
      excFrame[1]? = some 0x84 ∧ ¬ (1 = 1 ∧ 6 = 7) := by
  decide +kernel

/-- SLAVE 0 and 248, COUNT 0 and 126 are refused; 1 and 247, 1 and 125 are legal. -/
theorem witness_ReadInputRegsChecksThenEncodes :
    let legal (slave : Byte) (count : Half) : Prop :=
      1 ≤ slave.toNat ∧ slave.toNat ≤ 247 ∧ 1 ≤ count.toNat ∧ count.toNat ≤ 125
    legal 1 125 ∧ legal 247 1 ∧ ¬ legal 0 1 ∧ ¬ legal 248 1 ∧ ¬ legal 1 0 ∧ ¬ legal 1 126 ∧
      State.reset.phase = .idle ∧ (polling .exec).phase = .exec ∧ (inPhase 0x00000007 .exec).port.isOpen = false := by
  decide

theorem witness_ReadInputRegsReceivesAfterSending :
    let s := sending 0x00000007 .tx 7 0 (8 / 960)
    let u (c : List TxChoice) := untimed c [] s
    s.phase = .tx ∧ s.latch.op = 0x00000007 ∧ isTimed s = true ∧ s.line.present = true ∧ s.port.txK = 7 ∧
      s.phaseAt + (7 : Time) * charTime s + charTime s ≤ s.port.deadline ∧ Memory.read s.mem 0x11C = some 0x53 ∧
      isTimed (u []) = false ∧ (u []).line.txChoices = [] ∧ (u [.ok]).line.txChoices.head? = some .ok := by
  decide +kernel

/-- Each of the four outcomes of one step of the arbiter. -/
theorem witness_ReadInputRegsMapsRxOutcomes :
    (receiving 0x00000007 .rxWait 0 0 [ch 0 0xA5] (1 / 2)).phase = .rxWait ∧
      (rxStep (receiving 0x00000007 .rxWait 0 0 [ch 0 0xA5] (1 / 2))).1 = none ∧
      (rxStep (receiving 0x00000007 .rxFrame 5 0 [] (1 / 2))).1 = some .complete ∧
      (rxStep (receiving 0x00000007 .rxWait 0 0 [] (1 / 2))).1 = some .timeout ∧
      (rxStep (dropped (receiving 0x00000007 .rxWait 0 0 [] (1 / 2)))).1 = some .failed := by
  decide +kernel

theorem witness_ReadInputRegsDecodesAndCompletes :
    (received okFrame).phase = .decode ∧ (received okFrame).port.rxN = okFrame.length ∧ okFrame.length ≤ 256 ∧
      Memory.readCells (received okFrame).mem 0x500 okFrame.length = okFrame.map some ∧
      (decodeCells (okFrame.map some) 0x01 0x04 0x0001).map (fun out => out.diag) = some (some (0xCCB8, 0xCCB8)) ∧
      (decodeCells ((okFrame.take 4).map some) 0x01 0x04 0x0001).map (fun out => out.diag) = some none := by
  decide +kernel

theorem witness_FramesOutsideADecode :
    ¬ (State.reset.phase = .decode ∧ State.reset.latch.op = 0x00000007) ∧
      ¬ (State.reset.phase = .exec ∧ State.reset.latch.op = 0x00000006 ∧ State.reset.latch.len.toNat ≤ 256) := by
  decide

theorem witness_NormalResponseCompletesTheRead :
    let s : State := { polling .decode with latch := { (polling .decode).latch with count := 125 } }
    s.phase = .decode ∧ s.latch.op = 0x00000007 ∧ (List.replicate 125 (0x0190#16)).length ≤ 125 ∧
      s.latch.count.toNat = (List.replicate 125 (0x0190#16)).length ∧
      (250#8).toNat = 2 * (List.replicate 125 (0x0190#16)).length := by
  decide +kernel

theorem witness_ExceptionResponseCompletesTheRead :
    (polling .decode).phase = .decode ∧ (polling .decode).latch.op = 0x00000007 := by
  decide

theorem witness_ScalerWritesItsOutputs : (inPhase 0x00000008 .exec).phase = .exec := by decide

theorem witness_Binary64IsNearestToHundredths :
    (-32768 : Int) ≤ -32768 ∧ (65535 : Int) ≤ 65535 ∧ (-32768 : Int) ≤ 0 ∧ (0 : Int) ≤ 65535 ∧ (-1 : Int) ≠ 0 := by decide

theorem witness_ScaleOutputsAreExact : (-32768 : Int) ≤ -32768 ∧ (-32768 : Int) ≤ 65535 ∧ (65535 : Int) ≤ 65535 := by decide

theorem witness_CmdWriteWhileBusyIsRejected :
    let s := hostDoes 0 (.write 0x000 .b4 0x00000002) (polling .txGap)
    busy s = true ∧ s.rst = false ∧ nextTurn s = .host (.write 0x000 .b4 0x00000002) := by
  decide +kernel

theorem witness_DiscardedWritesSetReject :
    State.reset.rst = false ∧ State.reset.port.isOpen = false ∧ busy State.reset = false ∧
      (opened 0x00000001 .exec).port.isOpen = true ∧ busy (inPhase 0x00000001 .exec) = true ∧
      (0x100#12).toNat = 0x100 + 4 * 0 ∧ (0x8FC#12).toNat = 0x100 + 4 * 511 := by
  decide

theorem witness_RegisterWritesTakeTheirEffect :
    State.reset.rst = false ∧ (0x030#12).toNat % 4 = 0 ∧ 0x030 ≤ (0x030#12).toNat ∧ (0x0FC#12).toNat < 0x100 ∧
      0x900 ≤ (0x900#12).toNat ∧ (0xFFC#12).toNat % 4 = 0 := by
  decide

theorem witness_RegisterReadsShowTheirFields :
    0x05C ≤ (0x05C#12).toNat ∧ (0x0FC#12).toNat < 0x100 ∧ 0xAF4 ≤ (0xFFC#12).toNat ∧
      (0x8FC#12).toNat = 0x100 + 4 * 511 ∧ (0xAF0#12).toNat = 0x900 + 4 * 124 := by
  decide

theorem witness_HostReadsHaveNoSideEffect :
    (0x004#12).toNat % 4 = 0 ∧ (regValue (regAt 0x004) State.reset).isSome = true ∧ busy State.reset = false ∧
      (regValue (regAt 0x030) (polling .tx)).isSome = true ∧ busy (polling .tx) = true ∧
      (regValue (regAt 0xFFC) State.reset).isSome = true ∧
      (regValue (regAt 0x500) (received okFrame)).isSome = true := by
  decide +kernel

theorem witness_RefusedAccessesStop :
    Width.b8 ≠ .b4 ∧ (0x002#12).toNat % 4 ≠ 0 ∧ (0xAF0#12).toNat % 4 = 0 ∧ 0x100 ≤ (0x100#12).toNat ∧
      (0xAF0#12).toNat < 0xAF4 ∧ Memory.read State.reset.mem (0xAF0#12).toNat = none := by
  decide

/-- A reset in the gap; in the middle of a character; in the middle of one never written, in both timing models. -/
theorem witness_AssertingRstResetsEverything :
    let c := resetGoes 0 0 true (later (1 / 1920) (sending 0x00000003 .tx 0 1 (1 / 960)))
    let w : State := { c with mem := [] }
    let u := resetGoes 0 0 true (untimed [.failed 1 true] [] w)
    nextTurn (resetGoes 0 0 true (polling .txGap)) = .reset true ∧
    (nextTurn c = .reset true ∧ c.phase = .tx ∧ isTimed c = true ∧
      c.phaseAt + (c.port.txK : Time) * charTime c < c.now ∧
      c.phaseAt + (c.port.txK : Time) * charTime c + charTime c ≤ c.port.deadline ∧
      Memory.read c.mem (0x100 + 4 * c.port.txK) = some 0x53) ∧
    (nextTurn w = .reset true ∧ Memory.read w.mem (0x100 + 4 * w.port.txK) = none) ∧
    (nextTurn u = .reset true ∧ isTimed u = false ∧ u.line.txChoices.head? = some (.failed 1 true)) := by
  decide +kernel

/-- A sound state in every phase would do; this one is in EXEC, and its step completes the command. -/
theorem witness_EveryStepKeepsStatusSound : statusSound ending ∧ after (step ending) busy = some false := by
  refine ⟨⟨by decide, by decide, by decide, by decide⟩, by decide +kernel⟩

theorem ending_sound : Sound ending := by
  refine ⟨⟨by decide, by decide, by decide, by decide⟩, ⟨⟨by decide, by decide, by decide⟩, by decide⟩, ?_, ?_, ?_, ?_, ?_⟩
  · intro h; cases h
  · exact ⟨List.Pairwise.nil, by intro c hc; cases hc⟩
  · exact ⟨fun h => absurd h (by decide), fun h => absurd h (by decide)⟩
  · refine ⟨by decide +kernel, ?_, by decide +kernel⟩
    intro h; cases h
  · exact ⟨by decide, by decide⟩

theorem witness_EveryStepKeepsBuffersSound : sequencerSound ending ∧ buffersSound ending ∧ after (step ending) busy = some false :=
  ⟨ending_sound.2.1, ending_sound.2.2.2.1, by decide +kernel⟩

theorem witness_EveryStepKeepsSound : Sound ending ∧ after (step ending) busy = some false :=
  ⟨ending_sound, by decide +kernel⟩

theorem witness_ReadInputRegsNeverFaults :
    let s : State := { later (1 / 1000000) (inPhase 0x00000007 .exec) with phase := .exec }
    Sound s ∧ s.latch.op = 0x00000007 ∧ nextTurn s = .sequencer := by
  refine ⟨⟨⟨by decide, by decide, by decide, by decide⟩, ⟨⟨by decide, by decide, by decide⟩, by decide⟩, ?_, ?_, ?_, ?_, ?_⟩,
    by decide, by decide +kernel⟩
  · intro h; cases h
  · exact ⟨List.Pairwise.nil, by intro c hc; cases hc⟩
  · exact ⟨fun h => absurd h (by decide), fun h => absurd h (by decide)⟩
  · refine ⟨by decide +kernel, ?_, by decide +kernel⟩
    intro h; cases h
  · exact ⟨by decide, by decide⟩

/-- Each register of the statement is written by an instruction it names. -/
theorem witness_ResultRegistersHaveTheirWriters :
    after (exec .crcUpdate (inPhase 0x0000000B .exec)) (fun t => t.regs.crcAcc != Regs.reset.crcAcc) = some true ∧
      after (exec .decodeHum { inPhase 0x00000009 .exec with latch := { Latch.reset with op := 0x00000009, raw := 1 } })
        (fun t => t.regs.scale != Regs.reset.scale) = some true ∧
      after (exec .readInputRegs (received okFrame)) (fun t => t.regs.rxLen != 0 && t.regs.resultCount != 0) = some true ∧
      after (exec .decodeResp (judging okFrame 7)) (fun t => t.regs.diagCalc != 0 && t.mem != (judging okFrame 7).mem) =
        some true := by
  decide +kernel

theorem witness_CommandInProgressIsFixed :
    after (step ending) (fun t => t.latch == ending.latch) = some true ∧ busy ending = true ∧
      nextTurn ending ≠ .reset true := by
  decide +kernel

theorem witness_ResultsStayUntilTheNextCommand :
    let s := hostDoes 0 (.write 0x100 .b4 0xAA) State.reset
    busy s = false ∧ after (step s) (fun t => t.mem) = some [(0x100, 0xAA)] ∧
      nextTurn s = .host (.write 0x100 .b4 0xAA) := by
  decide +kernel

theorem witness_TimeNeverGoesBack :
    after (step (polling .exec)) (fun t => t.now) = some (1 / 1000000) ∧
      nextTurn (polling .exec) = .clock (1 / 1000000) := by
  decide +kernel

/-- A command in EXEC, and one waiting for a silent line. -/
theorem witness_EveryCommandEnds :
    let s : State := { receiving 0x00000004 .rxWait 0 1 [] (1 / 2) with
      status := { Status.reset with lastOp := 0x04 } }
    (Sound ending ∧ ending.env = [] ∧ ending.line.changes = [] ∧ ending.resets = [] ∧ busy ending = true) ∧
      (Sound s ∧ s.env = [] ∧ s.line.changes = [] ∧ s.resets = [] ∧ busy s = true) := by
  refine ⟨⟨ending_sound, by decide, by decide, by decide, by decide⟩, ?_, by decide, by decide, by decide, by decide⟩
  refine ⟨⟨by decide, by decide, by decide, by decide⟩,
    ⟨⟨.inr ⟨by decide, by decide, by decide⟩, by decide, by decide⟩, by decide⟩, ?_, ?_, ?_, ?_, ?_⟩
  · intro _; decide
  · exact ⟨List.Pairwise.nil, by intro c hc; cases hc⟩
  · exact ⟨fun h => absurd h (by decide), fun h => absurd h (by decide)⟩
  · exact ⟨by decide +kernel, fun _ => by decide +kernel, fun _ => by decide +kernel⟩
  · exact ⟨by decide, by decide⟩

end Sys2Proof.Tests
end

section
/-! SUPPORT. Command words and fetching: the encoder gives back the word a command was decoded from, and a fetched
instruction is the latched command, or a frame in a decode. -/

namespace Sys2Proof.Machine

theorem opcodeWord_wordOpcode {w : Word} (h : wordReserved w = 0) : opcodeWord (wordOpcode w) = w := by
  replace h := congrArg BitVec.toNat h
  simp only [wordReserved, BitVec.extractLsb'_toNat, BitVec.ofNat_eq_ofNat, BitVec.toNat_ofNat,
    Nat.shiftRight_eq_div_pow] at h
  apply BitVec.eq_of_toNat_eq
  simp only [opcodeWord, wordOpcode, BitVec.toNat_setWidth, BitVec.extractLsb'_toNat, Nat.shiftRight_zero]
  omega

/-- Every row of the command map holds the opcode of its instruction (R92). -/
theorem encode_cmdRows : ∀ p ∈ cmdRows, encode p.2 = .cmd (opcodeWord p.1) := by decide

/-- The instruction a command word selects is encoded as that word (R92, R93). -/
theorem encode_decodeCmd (w : Word) : encode (decodeCmd w) = .cmd w := by
  unfold decodeCmd
  split
  · rename_i hr
    cases hl : cmdRows.lookup (wordOpcode w) with
    | none => rfl
    | some i =>
      obtain ⟨l₁, l₂, hrows, -⟩ := List.lookup_eq_some_iff.1 hl
      have := encode_cmdRows (wordOpcode w, i) (by simp [hrows])
      rwa [opcodeWord_wordOpcode hr] at this
  · rfl

/-- What is fetched is the command in progress, or READ_INPUT_REGS is decoding a frame (R44, R98). -/
theorem fetchInstr_cases (s : State) :
    encode (fetchInstr s) = .cmd s.latch.op ∨ (s.phase = .decode ∧ isRir s.latch = true) := by
  unfold fetchInstr
  split
  · rename_i h; exact .inr h
  · exact .inl (encode_decodeCmd _)

end Sys2Proof.Machine
end

section
/-! SUPPORT. Everything exec can do, said once for all fifteen instructions. The invariants of the whole machine are case
analyses of this relation, and of what a step does to the block, after it. -/

namespace Sys2Proof.Machine

/-- What a command that uses no wire has written in EXEC when it completes with the result. -/
inductive Body (i : Instr) (s : State) : Result → State → Prop
  | nothing (r : Result) : Body i s r s
  | opened (hi : i = .openCmd) (hc : configLegal s.params s.regs = true) :
      Body i s .ok { s with port := { s.port with isOpen := true, tLast := s.now } }
  | closed (hi : i = .closeCmd) : Body i s .ok { s with port := { s.port with isOpen := false } }
  | crc (hi : i = .crcInit ∨ i = .crcUpdate) (c : Half) : Body i s .ok { s with regs := { s.regs with crcAcc := c } }
  | scaled (hi : i = .decodeTemp ∨ i = .decodeHum) (q : ScaleRegs) : Body i s .ok (writeScale q s)
  | encoded (hi : i = .encodeRir) : Body i s .ok (storeTx (requestFrame s.latch) s)
  | emptied (hi : i = .readBytes) : Body i s .ok (writeRxLen 0 s)

/-- The cells are given to the decode function: by DECODE_RESP, by a frame run in its EXEC phase, or at the end of
READ_INPUT_REGS's DECODE phase (R155, R235). -/
def Judges (i : Instr) (s : State) (b : List (Option Byte)) : Prop :=
  (s.phase = .exec ∧ i = .decodeResp ∧ b.length ≤ 256) ∨
    (s.phase = .exec ∧ decoding s = true ∧ ∀ w, encode i ≠ .cmd w) ∨
    (s.phase = .decode ∧ (i = .readInputRegs ∨ decoding s = true))

/-- The state the decode function starts from: READ_INPUT_REGS has written RXLEN (R190 step 4). -/
def decodeStart (s : State) : State := if s.phase = .decode then writeRxLen s.port.rxN s else s

theorem decodeStart_of_decode {s : State} (h : s.phase = .decode) : decodeStart s = writeRxLen s.port.rxN s := if_pos h

theorem decodeStart_of_exec {s : State} (h : s.phase = .exec) : decodeStart s = s := if_neg (by simp [h])

/-- Up to RXLEN it is the state of the decode. -/
theorem decodeStart_eq (s : State) :
    decodeStart s = { s with regs := { s.regs with rxLen := (decodeStart s).regs.rxLen } } := by
  unfold decodeStart; split <;> rfl

/-- What one step of an instruction can do, by phase (R44): acceptance, a body's completion, the gap, a character of TX
or RX or its end, a decode. -/
inductive Effect (i : Instr) (s : State) : State → Prop
  | unmoved (h : ∀ w, encode i = .cmd w → s.phase ≠ .idle) : Effect i s s
  | accepts (w : Word) (hp : s.phase = .idle) (hi : encode i = .cmd w)
      (hw : i = .writeBytes → writeAtOnce (accept w .exec s) ≠ none)
      (hr : i = .readBytes → readAtOnce (accept w .exec s) ≠ none)
      (hq : i = .readInputRegs → rirBadArg (latchArgs w s) = true) : Effect i s (accept w .exec s)
  | acceptsWrite (hp : s.phase = .idle) (hi : i = .writeBytes)
      (h : writeAtOnce (accept (opcodeWord 0x03) .exec s) = none) :
      Effect i s (enterPhase .txGap (accept (opcodeWord 0x03) .exec s))
  | acceptsRead (hp : s.phase = .idle) (hi : i = .readBytes)
      (h : readAtOnce (accept (opcodeWord 0x04) .exec s) = none) :
      Effect i s (enterRx (accept (opcodeWord 0x04) .exec s))
  | acceptsClosed (hp : s.phase = .idle) (hi : i = .readInputRegs)
      (ha : rirBadArg (latchArgs (opcodeWord 0x07) s) = false) (ho : s.port.isOpen = false) :
      Effect i s (storeTx (requestFrame (latchArgs (opcodeWord 0x07) s)) (accept (opcodeWord 0x07) .exec s))
  | acceptsRequest (hp : s.phase = .idle) (hi : i = .readInputRegs)
      (ha : rirBadArg (latchArgs (opcodeWord 0x07) s) = false) (ho : s.port.isOpen = true) :
      Effect i s (enterPhase .txGap
        (storeTx (requestFrame (latchArgs (opcodeWord 0x07) s)) (accept (opcodeWord 0x07) .exec s)))
  | ends (r : Result) (u : State) (hp : s.phase = .exec) (hb : Body i s r u) : Effect i s (complete r u)
  | gapFails (hp : s.phase = .txGap) : Effect i s (complete (.io .writeFailed) s)
  | gapEnds (hp : s.phase = .txGap) : Effect i s (enterTx s)
  | sends (u : State) (hp : s.phase = .tx) (h : txStep s = .ok (none, u)) : Effect i s u
  | sendEnds (o : TxOutcome) (r : Result) (u : State) (hp : s.phase = .tx) (h : txStep s = .ok (some o, u)) :
      Effect i s (complete r u)
  | sendTurns (u : State) (hp : s.phase = .tx) (hi : i = .readInputRegs) (h : txStep s = .ok (some .ok, u)) :
      Effect i s (enterRx u)
  | receives (u : State) (hp : s.phase = .rxWait ∨ s.phase = .rxFrame) (h : rxStep s = (none, u)) : Effect i s u
  | receiveEnds (o : RxOutcome) (r : Result) (u : State) (hp : s.phase = .rxWait ∨ s.phase = .rxFrame)
      (hi : i = .readBytes ∨ i = .readInputRegs) (h : rxStep s = (some o, u)) :
      Effect i s (complete r (writeRxLen u.port.rxN u))
  | receiveTurns (u : State) (hp : s.phase = .rxWait ∨ s.phase = .rxFrame) (hi : i = .readInputRegs)
      (h : rxStep s = (some .complete, u)) : Effect i s (enterPhase .decode u)
  | judges (b : List (Option Byte)) (eF : Byte) (out : DecodeOut) (hj : Judges i s b)
      (h : decodeCells b s.latch.slave eF s.latch.count = some out) : Effect i s (finishDecode out (decodeStart s))
  | lays (bs : List Byte) (hd : decoding s = false) (hi : ∀ w, encode i ≠ .cmd w) (hl : bs.length = 8) :
      Effect i s (storeTx bs s)

/-! exec has no other effect. -/

/-- A command that uses no wire: the acceptance, then what its body does in EXEC. -/
theorem plainCommand_effect {i : Instr} {w : Word} {body : State → Host.Outcome State Fault Refusal} {s t : State}
    (hi : encode i = .cmd w) (hn : ¬ (i = .writeBytes ∨ i = .readBytes ∨ i = .readInputRegs))
    (hb : s.phase = .exec → body s = .next t → Effect i s t) (h : plainCommand w body s = .next t) : Effect i s t := by
  rcases plainCommand_cases h with ⟨hp, rfl⟩ | ⟨hp, h⟩ | ⟨hp, -, rfl⟩
  · exact .accepts w hp hi (fun h => absurd (.inl h) hn) (fun h => absurd (.inr (.inl h)) hn)
      fun h => absurd (.inr (.inr h)) hn
  · exact hb hp h
  · exact .unmoved fun _ _ => hp

theorem execOpen_effect {s t : State} (h : execOpen s = .next t) : Effect .openCmd s t := by
  refine plainCommand_effect rfl (by simp) (fun hp hb => ?_) h
  split at hb
  · cases hb; exact .ends _ s hp (.nothing _)
  · split at hb
    · cases hb; exact .ends _ s hp (.nothing _)
    · split at hb
      · cases hb; exact .ends _ s hp (.nothing _)
      · rename_i hc
        cases hb; exact .ends _ _ hp (.opened rfl (by simpa using hc))

theorem execDecodeResp_effect {s t : State} (h : execDecodeResp s = .next t) : Effect .decodeResp s t := by
  refine plainCommand_effect rfl (by simp) (fun hp hb => ?_) h
  split at hb
  · cases hb; exact .ends _ s hp (.nothing _)
  · rename_i hl
    obtain ⟨out, ho, rfl⟩ := decodeAndFinish_cases hb
    have hl' : s.latch.len.toNat ≤ 256 := (not_lenTooBig_iff _).1 (by simpa using hl)
    simpa only [decodeStart_of_exec hp] using Effect.judges _ _ out (.inl ⟨hp, rfl, by simpa using hl'⟩) ho

/-- A command without a wire whose body is one completion. -/
theorem plainBody_effect {i : Instr} {w : Word} {r : Result} {s t : State} (f : State → State)
    (hi : encode i = .cmd w) (hn : ¬ (i = .writeBytes ∨ i = .readBytes ∨ i = .readInputRegs))
    (hb : Body i s r (f s)) (h : plainCommand w (fun u => .next (complete r (f u))) s = .next t) : Effect i s t :=
  plainCommand_effect hi hn (fun hp he => by cases he; exact .ends r _ hp hb) h

/-- The gap ends in TX, or with a line failure (R114). -/
theorem gapStep_effect (i : Instr) {s : State} (hp : s.phase = .txGap) : Effect i s (gapStep s) := by
  unfold gapStep
  split
  · exact .gapFails hp
  · exact .gapEnds hp

theorem execWriteBytes_effect {s t : State} (h : execWriteBytes s = .next t) : Effect .writeBytes s t := by
  simp only [execWriteBytes] at h
  split at h <;> rename_i hp
  · cases h
    split
    · rename_i ha; exact .acceptsWrite hp rfl ha
    · rename_i ha; exact .accepts _ hp rfl (fun _ => ha) (fun hi => by cases hi) (fun hi => by cases hi)
  · split at h <;> cases h
    · exact .ends _ s hp (.nothing _)
    · exact .unmoved (by simp [hp])
  · cases h; exact gapStep_effect _ hp
  · split at h <;> cases h <;> rename_i hx
    · exact .sendEnds _ _ _ hp hx
    · exact .sends _ hp hx
  all_goals cases h; exact .unmoved (by simp [hp])

/-- READ_BYTES in its RX phase. -/
theorem readReceived_effect {s t : State} (hp : s.phase = .rxWait ∨ s.phase = .rxFrame)
    (h : execReadBytes s = .next t) : Effect .readBytes s t := by
  rcases hp with hp | hp <;>
  · simp only [execReadBytes, hp] at h
    split at h <;> cases h <;> rename_i hx
    · exact .receiveEnds _ _ _ (by simp [hp]) (.inl rfl) hx
    · exact .receives _ (by simp [hp]) hx

theorem execReadBytes_effect {s t : State} (h : execReadBytes s = .next t) : Effect .readBytes s t := by
  have hrx : s.phase = .rxWait ∨ s.phase = .rxFrame → Effect .readBytes s t := fun hp => readReceived_effect hp h
  simp only [execReadBytes] at h
  split at h <;> rename_i hp
  · cases h
    split
    · rename_i ha; exact .acceptsRead hp rfl ha
    · rename_i ha; exact .accepts _ hp rfl (fun hi => by cases hi) (fun _ => ha) (fun hi => by cases hi)
  · split at h <;> cases h
    · exact .ends _ _ hp (.emptied rfl)
    · exact .ends _ s hp (.nothing _)
    · exact .unmoved (by simp [hp])
  · cases h; exact .unmoved (by simp [hp])
  · cases h; exact .unmoved (by simp [hp])
  · exact hrx (.inl hp)
  · exact hrx (.inr hp)
  · cases h; exact .unmoved (by simp [hp])

theorem rirAccept_effect {s : State} (hp : s.phase = .idle) : Effect .readInputRegs s (rirAccept s) := by
  simp only [rirAccept]
  split
  · rename_i ha; exact .accepts _ hp rfl (fun hi => by cases hi) (fun hi => by cases hi) (fun _ => ha)
  · rename_i ha
    replace ha : rirBadArg (latchArgs (opcodeWord 0x07) s) = false := by simpa using ha
    split <;> rename_i ho
    · exact .acceptsClosed hp rfl ha ho
    · exact .acceptsRequest hp rfl ha (by simpa using ho)

theorem rirReceived_effect {s : State} (hp : s.phase = .rxWait ∨ s.phase = .rxFrame) :
    Effect .readInputRegs s (rirReceived s) := by
  unfold rirReceived
  split <;> rename_i hx
  · exact .receiveTurns _ hp rfl hx
  · exact .receiveEnds _ _ _ hp (.inr rfl) hx
  · exact .receiveEnds _ _ _ hp (.inr rfl) hx
  · exact .receives _ hp hx

/-- The DECODE step of READ_INPUT_REGS, run as the command or as the frame received. -/
theorem rirDecode_effect {i : Instr} {b : List (Option Byte)} {s t : State} (hp : s.phase = .decode)
    (hi : i = .readInputRegs ∨ decoding s = true) (h : rirDecode b s = .next t) : Effect i s t := by
  obtain ⟨out, ho, rfl⟩ := decodeAndFinish_cases h
  simpa only [decodeStart_of_decode hp] using Effect.judges b _ out (.inr (.inr ⟨hp, hi⟩)) ho

theorem execReadInputRegs_effect {s t : State} (h : execReadInputRegs s = .next t) : Effect .readInputRegs s t := by
  simp only [execReadInputRegs] at h
  split at h <;> rename_i hp
  · cases h; exact rirAccept_effect hp
  · split at h <;> cases h
    · exact .ends _ s hp (.nothing _)
    · exact .unmoved (by simp [hp])
  · cases h; exact gapStep_effect _ hp
  · split at h <;> cases h <;> rename_i hx
    · exact .sendTurns _ hp rfl hx
    · exact .sendEnds _ _ _ hp hx
    · exact .sendEnds _ _ _ hp hx
    · exact .sends _ hp hx
  · cases h; exact rirReceived_effect (.inl hp)
  · cases h; exact rirReceived_effect (.inr hp)
  · exact rirDecode_effect hp (.inl rfl) h

/-- A decode is under way in EXEC or in DECODE. -/
theorem decoding_phase {s : State} (h : decoding s = true) : s.phase = .decode ∨ s.phase = .exec := by
  simp only [decoding, Bool.or_eq_true, Bool.and_eq_true, beq_iff_eq] at h
  rcases h with ⟨hp, -⟩ | ⟨⟨hp, -⟩, -⟩
  · exact .inl hp
  · exact .inr hp

theorem frameReceived_effect {i : Instr} {b : List Byte} {s t : State} (hi : ∀ w, encode i ≠ .cmd w)
    (h : frameReceived b s = .next t) : Effect i s t := by
  unfold frameReceived at h
  split at h
  · rename_i hd
    split at h <;> rename_i hp
    · exact rirDecode_effect hp (.inr hd) h
    · obtain ⟨out, ho, rfl⟩ := decodeAndFinish_cases h
      replace hp := (decoding_phase hd).resolve_left hp
      simpa only [decodeStart_of_exec hp] using Effect.judges _ _ out (.inr (.inl ⟨hp, hd, hi⟩)) ho
  · cases h; exact .unmoved fun w hw => absurd hw (hi w)

theorem execRtuReqReadInputRegs_effect {slave : Byte} {start count crc : Half} {s t : State}
    (h : execRtuReqReadInputRegs slave start count crc s = .next t) :
    Effect (.rtuReqReadInputRegs slave start count crc) s t := by
  have hi : ∀ w, encode (.rtuReqReadInputRegs slave start count crc) ≠ .cmd w := fun w => by simp [encode]
  unfold execRtuReqReadInputRegs at h
  split at h
  · exact frameReceived_effect hi h
  · rename_i hd
    cases h; exact .lays _ (by simpa using hd) hi rfl

/-- Everything a step of an instruction can do. -/
theorem exec_effect {i : Instr} {s t : State} (h : exec i s = .next t) : Effect i s t :=
  match i with
  | .openCmd => execOpen_effect h
  | .closeCmd =>
    plainBody_effect (fun s => { s with port := { s.port with isOpen := false } }) rfl (by simp) (.closed rfl) h
  | .writeBytes => execWriteBytes_effect h
  | .readBytes => execReadBytes_effect h
  | .encodeRir =>
    plainBody_effect (fun s => storeTx (requestFrame s.latch) s) rfl (by simp) (.encoded rfl) h
  | .decodeResp => execDecodeResp_effect h
  | .readInputRegs => execReadInputRegs_effect h
  | .decodeTemp =>
    plainBody_effect (fun s => writeScale (scaleRegs (asI16 s.latch.raw) false) s) rfl (by simp)
      (.scaled (.inl rfl) _) h
  | .decodeHum =>
    plainBody_effect (fun s => writeScale (scaleRegs (s.latch.raw.toNat : Int) true) s) rfl (by simp)
      (.scaled (.inr rfl) _) h
  | .crcInit =>
    plainBody_effect (fun s => { s with regs := { s.regs with crcAcc := 0xFFFF } }) rfl (by simp) (.crc (.inl rfl) _) h
  | .crcUpdate =>
    plainBody_effect
      (fun s => { s with regs := { s.regs with crcAcc := crcStep s.regs.crcAcc (crcOperand s.latch) } }) rfl (by simp)
      (.crc (.inr rfl) _) h
  | .badCmd _ => plainBody_effect id rfl (by simp) (.nothing _) h
  | .rtuReqReadInputRegs _ _ _ _ => execRtuReqReadInputRegs_effect h
  | .rtuRspNormal _ _ _ _ => frameReceived_effect (fun w => by simp [encode]) h
  | .rtuRspException _ _ _ => frameReceived_effect (fun w => by simp [encode]) h

end Sys2Proof.Machine
end

section
/-! SUPPORT. What a step does to the block: the environment's fields left out, it is the clock, a reset, one
instruction's step or one host write. -/

namespace Sys2Proof.Machine

/-- The two states differ only in what the environment is still to do, the inputs' line and what has been seen. -/
def SameBlock (s t : State) : Prop :=
  t = { s with env := t.env, resets := t.resets, line := t.line, draws := t.draws, seen := t.seen }

theorem SameBlock.refl (s : State) : SameBlock s s := rfl

theorem atReset_sameBlock (s : State) : SameBlock s (atReset s) := rfl

theorem atHost_sameBlock (s : State) : SameBlock s (atHost s) := by
  unfold SameBlock; rw [atHost_eq s]

theorem atSequencer_sameBlock (s : State) : SameBlock s (atSequencer s) := by
  unfold SameBlock; rw [atSequencer_eq s]

theorem lineStep_atLine_sameBlock (level : Bool) (s : State) : SameBlock s (lineStep level (atLine s)) := by
  unfold SameBlock; rw [atLine_eq s]; rfl

/-- What is fetched does not depend on what the environment is still to do. -/
theorem fetchInstr_atSequencer (s : State) : fetchInstr (atSequencer s) = fetchInstr s := by
  rw [atSequencer_eq s]; rfl

theorem dueAt_atSequencer (s : State) : dueAt (atSequencer s) = dueAt s := by
  rw [atSequencer_eq s]; rfl

theorem busy_iff (s : State) : busy s = true ↔ s.phase ≠ .idle := by simp [busy]

theorem not_busy_iff (s : State) : busy s = false ↔ s.phase = .idle := by simp [busy]

/-- The instruction runs in the state: as the command an idle block accepts, or as the one the sequencer fetches at an
instant it is due. -/
inductive Runs : Instr → State → Prop
  | accepted (w : Word) {u : State} (hp : u.phase = .idle) (hr : u.rst = false) : Runs (decodeCmd w) u
  | sequenced {u : State} (hp : u.phase ≠ .idle) {d : Time} (hd : dueAt u = some d) (hn : d ≤ u.now) :
      Runs (fetchInstr u) u

/-- What a step does to the block. -/
inductive Turned (s : State) : State → Prop
  | same {t : State} (h : SameBlock s t) : Turned s t
  | clock {tm : Time} (h : s.now < tm) : Turned s (advance tm s)
  | resetOn (u : State) (h : nextTurn s = .reset true) : Turned s (resetState u)
  | resetOff {u : State} (hu : SameBlock s u) : Turned s { u with rst := false }
  | runs {i : Instr} {u t : State} (hu : SameBlock s u) (hi : Runs i u) (h : exec i u = .next t) : Turned s t
  | writes {u : State} (off : BitVec 12) (v : Word) (hu : SameBlock s u) : Turned s (hostWrite (regAt off) v u)

/-- A host's action that is no accepted CMD write reads, or is ignored, or writes one register. -/
theorem hostStep_cases {a : EnvAction} {s t : State} (h : hostStep a s = .next t) :
    (∃ off v n, t = logRead off v { s with draws := n }) ∨ t = s ∨ ∃ off v, t = hostWrite (regAt off) v s := by
  cases a with
  | read off width =>
    simp only [hostStep] at h
    split at h
    · obtain ⟨v, n, rfl⟩ := hostRead_cases h
      exact .inl ⟨_, v, n, rfl⟩
    · cases h
  | write off width v =>
    simp only [hostStep] at h
    split at h
    · cases h
    · split at h <;> cases h
      · exact .inr (.inl rfl)
      · exact .inr (.inr ⟨off, v, rfl⟩)
  | wait =>
    change hostRead (offsetOf .status) s = .next t at h
    obtain ⟨v, n, rfl⟩ := hostRead_cases h
    exact .inl ⟨_, v, n, rfl⟩

/-- Everything a step can do to the block. -/
theorem step_turned {s t : State} (h : step s = .next t) : Turned s t := by
  rcases step_cases h with ⟨-, rfl⟩ | ⟨tm, -, hn, rfl⟩ | ⟨level, ht, h⟩ | ⟨level, -, rfl⟩ | ⟨v, -, hp, hr, h⟩ |
    ⟨a, -, h⟩ | ⟨-, hb, ⟨d, hd, hn⟩, h⟩
  · exact .same (.refl _)
  · exact .clock hn
  · unfold resetStep at h
    split at h
    · rename_i hl
      subst hl
      unfold assertReset at h
      split at h <;> cases h
      exact .resetOn _ ht
    · cases h; exact .resetOff (atReset_sameBlock s)
  · exact .same (lineStep_atLine_sameBlock level s)
  · exact .runs (atHost_sameBlock s) (.accepted v (by simpa using hp) (by simpa using hr)) h
  · rcases hostStep_cases h with ⟨off, v, n, rfl⟩ | rfl | ⟨off, v, rfl⟩
    · refine .same ?_
      unfold SameBlock; rw [atHost_eq s]; rfl
    · exact .same (atHost_sameBlock s)
    · exact .writes off v (atHost_sameBlock s)
  · rw [← fetchInstr_atSequencer] at h
    rw [← dueAt_atSequencer] at hd
    exact .runs (atSequencer_sameBlock s) (.sequenced (by simpa [busy_iff] using hb) hd (by simpa using hn)) h

end Sys2Proof.Machine
end

section
/-! PROOFS. STATUS, the latches and the open transport: every instruction's step accepts, completes, or goes on. -/

namespace Sys2Proof.Machine

/-! Completion (R48, R232). -/

/-- Settles O9: `complete` writes STATUS's result fields and the phase, with the class and code of R31's table. -/
theorem completionWritesStatusOnly : Obligations.CompletionWritesStatusOnly := by
  unfold Obligations.CompletionWritesStatusOnly
  intro s c
  exact ⟨rfl, rfl, rfl, rfl, rfl, rfl, rfl, rfl, rfl, rfl, rfl, rfl, rfl⟩

/-- A body writes results only: the command it completes is the one in progress. -/
theorem Body.keeps {i : Instr} {s u : State} {r : Result} (h : Body i s r u) :
    u.latch = s.latch ∧ u.status = s.status := by
  cases h <;> exact ⟨rfl, rfl⟩

/-- A completion, on a state with the same STATUS. -/
theorem complete_completesAs (r : Result) {s u : State} (h : u.status = s.status) : completesAs r s (complete r u) := by
  simp [completesAs, h]

/-- A decode ends in a completion (R155). -/
theorem finishDecode_completes (out : DecodeOut) (s : State) : ∃ r, completesAs r s (finishDecode out s) := by
  unfold finishDecode
  split <;> exact ⟨_, complete_completesAs _ (by simp)⟩

theorem rxStep_phase {s u : State} {o : Option RxOutcome} (h : rxStep s = (o, u)) :
    u.phase = s.phase ∨ u.phase = .rxFrame := by
  obtain ⟨-, ⟨-, ⟨b, -, -, -, -, hp, -⟩ | ⟨-, -, -, hp, -⟩⟩ | ⟨-, -, -, rfl⟩ | ⟨-, -, _, _, -, -, rfl⟩ |
    ⟨-, -, _, -, -, rfl⟩ | ⟨-, -, c, _, -, rfl, -⟩⟩ := rxStep_cases h
  · exact .inr hp
  · exact .inl hp
  · exact .inl rfl
  · exact .inl rfl
  · exact .inl rfl
  · exact .inr rfl

/-- STATUS as acceptance leaves it (R32). -/
def acceptedStatus (w : Word) (q : Status) : Status :=
  { q with done := false, cls := 0, code := 0, excCode := 0, lastOp := wordOpcode w }

/-- A step of an instruction accepts it, completes it, or leaves STATUS and BUSY as they are. -/
theorem Effect.status_cases {i : Instr} {s t : State} (h : Effect i s t) :
    (s.phase = .idle ∧ t.phase ≠ .idle ∧
      ∃ w, encode i = .cmd w ∧ t.latch = latchArgs w s ∧ t.status = acceptedStatus w s.status) ∨
    (t.latch = s.latch ∧ ∃ r, completesAs r s t) ∨
    (t.latch = s.latch ∧ t.status = s.status ∧ (t.phase = .idle ↔ s.phase = .idle)) := by
  cases h with
  | unmoved => exact .inr (.inr ⟨rfl, rfl, Iff.rfl⟩)
  | accepts w hp hi => exact .inl ⟨hp, by simp, w, hi, rfl, rfl⟩
  | acceptsWrite hp hi => subst hi; exact .inl ⟨hp, by simp, _, rfl, rfl, rfl⟩
  | acceptsRead hp hi => subst hi; exact .inl ⟨hp, by simp, _, rfl, rfl, rfl⟩
  | acceptsClosed hp hi => subst hi; exact .inl ⟨hp, by simp, _, rfl, rfl, rfl⟩
  | acceptsRequest hp hi => subst hi; exact .inl ⟨hp, by simp, _, rfl, rfl, rfl⟩
  | ends r u hp hb => exact .inr (.inl ⟨hb.keeps.1, r, complete_completesAs r hb.keeps.2⟩)
  | gapFails => exact .inr (.inl ⟨rfl, _, complete_completesAs _ rfl⟩)
  | gapEnds hp => exact .inr (.inr ⟨rfl, rfl, by simp [hp]⟩)
  | sends u hp hx =>
    have k := (txStep_cases hx).1
    exact .inr (.inr ⟨k.latch, k.status, by rw [k.phase]⟩)
  | sendEnds o r u hp hx =>
    have k := (txStep_cases hx).1
    exact .inr (.inl ⟨k.latch, r, complete_completesAs r k.status⟩)
  | sendTurns u hp hi hx =>
    have k := (txStep_cases hx).1
    exact .inr (.inr ⟨k.latch, k.status, by simp [hp]⟩)
  | receives u hp hx =>
    have k := (rxStep_cases hx).1
    refine .inr (.inr ⟨k.latch, k.status, ?_⟩)
    rcases rxStep_phase hx with hu | hu <;> rcases hp with hp | hp <;> simp [hu, hp]
  | receiveEnds o r u hp hi hx =>
    have k := (rxStep_cases hx).1
    exact .inr (.inl ⟨k.latch, r, complete_completesAs r k.status⟩)
  | receiveTurns u hp hi hx =>
    have k := (rxStep_cases hx).1
    refine .inr (.inr ⟨k.latch, k.status, ?_⟩)
    rcases hp with hp | hp <;> simp [hp]
  | judges b eF out =>
    obtain ⟨-, -, hl, -⟩ := finishDecode_keeps out (decodeStart s)
    have hc := finishDecode_completes out (decodeStart s)
    rw [decodeStart_eq] at hl hc ⊢
    exact .inr (.inl ⟨hl, hc⟩)
  | lays => exact .inr (.inr ⟨rfl, rfl, Iff.rfl⟩)

/-! Host writes: what they leave alone. -/

/-- A host write changes REJECT, registers and buffers, and nothing else. -/
theorem hostWrite_keeps (r : Reg) (v : Word) (s : State) :
    ∃ reject regs mem,
      hostWrite r v s = { s with status := { s.status with reject := reject }, regs := regs, mem := mem } := by
  cases r with
  | cmd | status => simp only [hostWrite]; split <;> exact ⟨_, _, _, rfl⟩
  | cfgBaud | cfgFrame | cfgRtoMs | cfgWtoMs => simp only [hostWrite, writeCfg]; split <;> exact ⟨_, _, _, rfl⟩
  | txbuf | rxbuf => simp only [hostWrite, writeBuffer]; split <;> exact ⟨_, _, _, rfl⟩
  | _ => exact ⟨_, _, _, rfl⟩

/-! STATUS (R28, R31 to R33). -/

theorem resultPair_legal (r : Result) :
    legalPair (resultClass r) (resultCode r) = true ∧
      (resultExc r ≠ 0 → resultClass r = 2 ∧ resultCode r = 4) := by
  rcases r with _ | e | e | e
  · decide
  · cases e <;> decide
  · cases e with
    | exceptionResponse c => exact ⟨rfl, fun _ => ⟨rfl, rfl⟩⟩
    | _ => decide
  · cases e <;> decide

theorem reset_statusSound : statusSound State.reset := ⟨by decide, by decide, by decide, by decide⟩

theorem Effect.keeps_statusSound {i : Instr} {s t : State} (h : Effect i s t) (hs : statusSound s) : statusSound t := by
  rcases h.status_cases with ⟨-, hb, w, -, hl, hq⟩ | ⟨-, r, hp, hd, hc, hk, hx, -, -⟩ | ⟨hl, hq, hp⟩
  · simp [statusSound, hl, hq, acceptedStatus, busy_iff, not_busy_iff, hb, latchArgs, legalPair]
  · obtain ⟨h1, h2⟩ := resultPair_legal r
    simp only [statusSound, hd, hc, hk, hx, busy_iff, hp]
    exact ⟨h1, h2, fun h => absurd rfl h, fun _ h => by cases h⟩
  · have hb : busy t = busy s := by rw [Bool.eq_iff_iff, busy_iff, busy_iff, Ne, hp]
    rw [statusSound, hl, hq, hb]; exact hs

/-- Settles O53: acceptance clears the result, a completion writes a pair of R31's table, and nothing else writes it. -/
theorem everyStepKeepsStatusSound : Obligations.EveryStepKeepsStatusSound := by
  unfold Obligations.EveryStepKeepsStatusSound
  intro s t hs h
  cases step_turned h with
  | same h => rw [h]; exact hs
  | clock => exact hs
  | resetOn => exact reset_statusSound
  | resetOff hu => rw [hu]; exact hs
  | runs hu hi he => exact (exec_effect he).keeps_statusSound (by rw [hu]; exact hs)
  | @writes u off v hu =>
    obtain ⟨j, q, m, hw⟩ := hostWrite_keeps (regAt off) v u
    rw [hw, hu]; exact hs

/-! The latches (R46, R83). -/

/-- Settles O57: only an acceptance latches, and a busy block accepts nothing. -/
theorem commandInProgressIsFixed : Obligations.CommandInProgressIsFixed := by
  unfold Obligations.CommandInProgressIsFixed
  intro s t h hb hr
  cases step_turned h with
  | same h => rw [h]
  | clock => rfl
  | resetOn u hu => exact absurd hu hr
  | resetOff hu => rw [hu]
  | @runs i u _ hu hi he =>
    have hl : u.latch = s.latch := by rw [hu]
    have hp : u.phase ≠ .idle := by rw [hu]; exact (busy_iff s).1 hb
    rcases (exec_effect he).status_cases with ⟨hp', -⟩ | ⟨hk, -⟩ | ⟨hk, -⟩
    · exact absurd hp' hp
    · rw [hk, hl]
    · rw [hk, hl]
  | @writes u off v hu =>
    obtain ⟨j, q, m, hw⟩ := hostWrite_keeps (regAt off) v u
    rw [hw, hu]

/-! The open transport (R29). -/

/-- OPEN opens and CLOSE closes, in their completions with OK; no other instruction's step does. -/
theorem Effect.isOpen_cases {i : Instr} {s t : State} (h : Effect i s t) :
    t.port.isOpen = s.port.isOpen ∨
    (s.phase = .exec ∧ completesAs .ok s t ∧
      ((i = .openCmd ∧ t.port.isOpen = true ∧ configLegal s.params s.regs = true) ∨
        (i = .closeCmd ∧ t.port.isOpen = false))) := by
  cases h with
  | ends r u hp hb =>
    cases hb with
    | opened hi hc => exact .inr ⟨hp, complete_completesAs _ rfl, .inl ⟨hi, rfl, hc⟩⟩
    | closed hi => exact .inr ⟨hp, complete_completesAs _ rfl, .inr ⟨hi, rfl⟩⟩
    | _ => exact .inl rfl
  | sends u hp hx => exact .inl (txStep_cases hx).1.isOpen
  | sendEnds o r u hp hx => exact .inl (txStep_cases hx).1.isOpen
  | sendTurns u hp hi hx => exact .inl (txStep_cases hx).1.isOpen
  | receives u hp hx => exact .inl (rxStep_cases hx).1.isOpen
  | receiveEnds o r u hp hi hx => exact .inl (rxStep_cases hx).1.isOpen
  | receiveTurns u hp hi hx => exact .inl (rxStep_cases hx).1.isOpen
  | judges b eF out =>
    obtain ⟨-, -, -, hq, -⟩ := finishDecode_keeps out (decodeStart s)
    exact .inl (by rw [hq, decodeStart_eq])
  | _ => exact .inl rfl

/-- An instruction that runs outside IDLE and DECODE is the latched command. -/
theorem Runs.latched {i : Instr} {s : State} (h : Runs i s) (hp : s.phase ≠ .idle) (hd : s.phase ≠ .decode) :
    encode i = .cmd s.latch.op := by
  cases h with
  | accepted w hq => exact absurd hq hp
  | sequenced => exact (fetchInstr_cases s).resolve_right fun h => hd h.1

/-- Settles O11: of the turns of a step only an instruction's step and a reset change OPEN. -/
theorem onlyOpenAndCloseChangeOpen : Obligations.OnlyOpenAndCloseChangeOpen := by
  unfold Obligations.OnlyOpenAndCloseChangeOpen
  intro s t h ho
  cases step_turned h with
  | same h => rw [h] at ho; exact absurd rfl ho
  | clock => exact absurd rfl ho
  | resetOn u hu => exact .inr (.inr ⟨rfl, hu⟩)
  | resetOff hu => rw [hu] at ho; exact absurd rfl ho
  | @runs i u _ hu hi he =>
    rcases (exec_effect he).isOpen_cases with hk | ⟨hp, hc, hi'⟩
    · rw [hk, hu] at ho; exact absurd rfl ho
    · have hop := hi.latched (by simp [hp]) (by simp [hp])
      have hl : u.latch = s.latch := by rw [hu]
      have hsp : s.phase = .exec := by rw [hu] at hp; exact hp
      have hst : completesAs .ok s t := by rw [hu] at hc; exact hc
      rw [hl] at hop
      rcases hi' with ⟨rfl, ht, -⟩ | ⟨rfl, ht⟩
      · exact .inl ⟨ht, hsp, (Code.cmd.inj hop).symm, hst⟩
      · exact .inr (.inl ⟨ht, hsp, (Code.cmd.inj hop).symm, hst⟩)
  | @writes u off v hu =>
    obtain ⟨j, q, m, hw⟩ := hostWrite_keeps (regAt off) v u
    rw [hw, hu] at ho; exact absurd rfl ho

end Sys2Proof.Machine
end

section
/-! PROOFS. The buffers: which cells a step writes, and that a sound sequencer writes none outside them. -/

namespace Sys2Proof.Machine

/-! What the phases of a sound sequencer say (R44, R49). -/

theorem sends_total {l : Latch} (h : sends l) : 1 ≤ txTotal l ∧ txTotal l ≤ 256 := by
  rcases h with ⟨hq, -⟩ | ⟨hop, h1, h2⟩
  · simp [txTotal, hq]
  · have hq : isRir l = false := by rw [isRir, hop]; decide
    simp only [txTotal, hq, Bool.false_eq_true, if_false]
    exact ⟨h1, h2⟩

theorem receives_max {l : Latch} (h : receives l) : 1 ≤ rxMax l ∧ rxMax l ≤ 256 := by
  rcases h with ⟨hq, ha⟩ | ⟨hop, h1, h2⟩
  · obtain ⟨-, -, -, hc⟩ := (not_rirBadArg_iff l).1 ha
    simp only [rxMax, hq, if_true]
    omega
  · have hq : isRir l = false := by rw [isRir, hop]; decide
    simp only [rxMax, hq, Bool.false_eq_true, if_false]
    exact ⟨h1, h2⟩

theorem phaseSound_receiving {s : State} (h : phaseSound s) (hp : s.phase = .rxWait ∨ s.phase = .rxFrame) :
    receives s.latch ∧ s.port.isOpen = true ∧ s.port.rxN < rxMax s.latch ∧ (s.phase = .rxWait → s.port.rxN = 0) := by
  rcases hp with hp | hp <;> simp only [phaseSound, hp] at h
  · obtain ⟨hr, ho, hn⟩ := h
    have := (receives_max hr).1
    exact ⟨hr, ho, by omega, fun _ => hn⟩
  · obtain ⟨hr, ho, -, hn⟩ := h
    exact ⟨hr, ho, hn, by simp [hp]⟩

theorem phaseSound_decode {s : State} (h : phaseSound s) (hp : s.phase = .decode) :
    isRir s.latch = true ∧ rirBadArg s.latch = false ∧ s.port.isOpen = true ∧ 1 ≤ s.port.rxN ∧
      s.port.rxN ≤ rxMax s.latch := by
  simpa only [phaseSound, hp] using h

/-! The receive arbiter's writes. -/

/-- A round that ends in a COMPLETE frame has received one (R116). -/
theorem rxRound_complete {r : Regs} {tc tEof deadline tLast tm : Time} {n : Nat} {oc : Option LineChar}
    (h : rxRound r tc tEof deadline n tLast oc = .finish .complete tm) : 1 ≤ n := by
  by_contra hn
  cases oc with
  | none => simp [rxRound, hn] at h
  | some c =>
    simp only [rxRound, hn, false_and, if_false] at h
    repeat' split at h
    all_goals cases h

/-- A step of the receive arbiter ends the phase as it is, or stores one byte at the instant of its act and counts it; a
COMPLETE frame has at least one byte (R116, R119). -/
theorem rxStep_stored {s t : State} {o : Option RxOutcome} (h : rxStep s = (o, t)) :
    (t.port = s.port ∧ t.mem = s.mem ∧ t.phase = s.phase ∧ o ≠ none ∧
      (o = some .complete → 1 ≤ rxMax s.latch → 1 ≤ s.port.rxN)) ∨
    (∃ b e, t.port = { s.port with rxN := s.port.rxN + 1, tLast := e } ∧
      t.mem = Memory.write s.mem (rxAddr s.port.rxN) b ∧ t.phase = .rxFrame ∧
      (isTimed s = false → e = s.now) ∧ (isTimed s = true → s.line.present = true ∧ e = (rxPlan s).time) ∧
      o = if s.port.rxN + 1 = rxMax s.latch then some .complete else none) := by
  obtain ⟨-, ⟨ht, ⟨b, -, -, hq, hm, hp, ho⟩ | ⟨hb, hq, hm, hp, ho⟩⟩ | ⟨-, -, rfl, rfl⟩ |
    ⟨-, -, oc, _, hx, rfl, rfl⟩ | ⟨-, -, _, -, rfl, rfl⟩ | ⟨ht, hl, c, tm, hx, rfl, ho⟩⟩ := rxStep_cases h
  · exact .inr ⟨b, s.now, hq, hm, hp, fun _ => rfl, by simp [ht], ho⟩
  · refine .inl ⟨hq, hm, hp, by simp [ho], fun hc h1 => ?_⟩
    have := (rxChosenBytes_length s).2 (by simpa [ho] using hc) h1
    omega
  · exact .inl ⟨rfl, rfl, rfl, by simp, by simp⟩
  · refine .inl ⟨rfl, rfl, rfl, by simp, fun hc _ => ?_⟩
    cases hc
    exact rxRound_complete hx
  · exact .inl ⟨rfl, rfl, rfl, by simp, by simp⟩
  · obtain ⟨-, htm, -⟩ := rxRound_store hx
    have he : c.start + charTime s = (rxPlan s).time := by rw [hx]; exact htm.symm
    exact .inr ⟨c.byte, c.start + charTime s, rfl, rfl, rfl, by simp [ht], fun _ => ⟨hl, he⟩, ho⟩

/-! The decode function's writes. -/

/-- A decode writes DIAG_CRC and RESULT_COUNT, and as many RESULT cells as it counts; it counts none when it fails
(R156, R157). -/
theorem finishDecode_writes (out : DecodeOut) (s : State) :
    ∃ n recv comp,
      (finishDecode out s).regs =
        { s.regs with resultCount := BitVec.ofNat 8 n, diagRecv := recv, diagCalc := comp } ∧
      ((∃ vs, out.res = .ok vs ∧ n = vs.length ∧
          (finishDecode out s).mem = Memory.writeHalves s.mem (resAddr 0) vs) ∨
        (n = 0 ∧ (finishDecode out s).mem = s.mem)) := by
  obtain ⟨d, r⟩ := out
  rcases d with _ | ⟨recv, comp⟩ <;> cases r with
  | error e => exact ⟨0, _, _, rfl, .inr ⟨rfl, rfl⟩⟩
  | ok vs => exact ⟨vs.length, _, _, rfl, .inl ⟨vs, rfl, rfl, rfl⟩⟩

/-- The instruction of a decode in EXEC that a step runs is DECODE_RESP, and a decode's registers fit RESULT. -/
theorem Judges.count_le {i : Instr} {s : State} {b : List (Option Byte)} {eF : Byte} {out : DecodeOut} {vs : List Half}
    (h : Judges i s b) (hr : Runs i s) (hs : phaseSound s)
    (ho : decodeCells b s.latch.slave eF s.latch.count = some out) (hv : out.res = .ok vs) : vs.length ≤ 125 := by
  obtain ⟨bs, rfl, -, -, hc⟩ := decodeCells_ok ho hv
  obtain ⟨-, -, -, -, hlen, rfl⟩ := checkFrame_ok hc
  rw [respRegs_length]
  rcases h with ⟨-, -, hl⟩ | ⟨hp, -, hi⟩ | ⟨hp, -⟩
  · rw [List.length_map] at hl; omega
  · exact absurd (hr.latched (by simp [hp]) (by simp [hp])) (hi _)
  · exact ((not_rirBadArg_iff _).1 (phaseSound_decode hs hp).2.1).2.2.2

/-! Everything an instruction's step writes into the buffers. -/

/-- The instruction may write RESULT. -/
def writesResult (i : Instr) (s : State) : Prop := i = .decodeResp ∨ i = .readInputRegs ∨ decoding s = true

theorem Judges.writesResult {i : Instr} {s : State} {b : List (Option Byte)} (h : Judges i s b) : writesResult i s := by
  rcases h with ⟨-, hi, -⟩ | ⟨-, hd, -⟩ | ⟨-, hi | hd⟩
  · exact .inl hi
  · exact .inr (.inr hd)
  · exact .inr (.inl hi)
  · exact .inr (.inr hd)

/-- An instruction's step leaves the buffers alone, or it writes a request in TXBUF[0..7], a received byte at the
arbiter's counter, or the registers of a decode from RESULT[0] on. -/
theorem Effect.mem_cases {i : Instr} {s t : State} (h : Effect i s t) :
    t.mem = s.mem ∨
    (∃ bs, bs.length = 8 ∧ t.mem = Memory.writeCells s.mem (txAddr 0) bs) ∨
    (∃ b, (s.phase = .rxWait ∨ s.phase = .rxFrame) ∧ t.mem = Memory.write s.mem (rxAddr s.port.rxN) b) ∨
    (∃ vs, writesResult i s ∧ (Runs i s → phaseSound s → vs.length ≤ 125) ∧
      t.mem = Memory.writeHalves s.mem (resAddr 0) vs) := by
  have rx : ∀ {o u}, s.phase = .rxWait ∨ s.phase = .rxFrame → rxStep s = (o, u) → u.mem = s.mem ∨
      ∃ b, (s.phase = .rxWait ∨ s.phase = .rxFrame) ∧ u.mem = Memory.write s.mem (rxAddr s.port.rxN) b := by
    intro o u hp hx
    rcases rxStep_stored hx with ⟨-, hm, -⟩ | ⟨b, -, -, hm, -⟩
    · exact .inl hm
    · exact .inr ⟨b, hp, hm⟩
  have tx : ∀ o u, txStep s = .ok (o, u) → u.mem = s.mem := fun o u hx => (txStep_cases hx).1.mem
  cases h with
  | acceptsClosed => exact .inr (.inl ⟨_, rfl, rfl⟩)
  | acceptsRequest => exact .inr (.inl ⟨_, rfl, rfl⟩)
  | ends r u hp hb =>
    cases hb with
    | encoded => exact .inr (.inl ⟨_, rfl, rfl⟩)
    | _ => exact .inl rfl
  | sends _ hp hx => exact .inl (tx _ _ hx)
  | sendEnds o r u hp hx => exact .inl (tx _ u hx)
  | sendTurns u hp hi hx => exact .inl (tx _ u hx)
  | receives u hp hx => exact (rx hp hx).imp_right fun h => .inr (.inl h)
  | receiveEnds o r u hp hi hx => exact (rx hp hx).imp_right fun h => .inr (.inl h)
  | receiveTurns u hp hi hx => exact (rx hp hx).imp_right fun h => .inr (.inl h)
  | judges b eF out hj ho =>
    have hm : (decodeStart s).mem = s.mem := by rw [decodeStart_eq]
    rcases finishDecode_writes out (decodeStart s) with ⟨-, -, -, -, ⟨vs, hv, -, hw⟩ | ⟨-, hw⟩⟩
    · exact .inr (.inr (.inr ⟨vs, hj.writesResult, fun hr hs => hj.count_le hr hs ho hv, by rw [hw, hm]⟩))
    · exact .inl (by rw [hw, hm])
  | lays bs hd hi hl => exact .inr (.inl ⟨bs, hl, rfl⟩)
  | _ => exact .inl rfl

/-! Nothing outside the cells (R23). -/

/-- A memory of canonical form with nothing outside the buffers' cells. -/
def cellsSound (m : Memory) : Prop := Memory.wf m ∧ ∀ c ∈ m, bufferOffset c.1

theorem cellsSound_write {m : Memory} (h : cellsSound m) {a : Nat} (ha : bufferOffset a) (v : Byte) :
    cellsSound (Memory.write m a v) := by
  refine ⟨Memory.write_wf h.1 a v, fun c hc => ?_⟩
  rcases Memory.mem_write hc with rfl | hc
  · exact ha
  · exact h.2 c hc

theorem cellsSound_writeTx {m : Memory} (h : cellsSound m) {bs : List Byte} (hl : bs.length ≤ 256) :
    cellsSound (Memory.writeCells m (txAddr 0) bs) := by
  refine ⟨Memory.writeCells_wf bs h.1 _, fun c hc => ?_⟩
  rcases Memory.mem_writeCells bs hc with hc | ⟨j, hj, he⟩
  · exact h.2 c hc
  · exact .inl ⟨j, lt_of_lt_of_le hj hl, he⟩

theorem cellsSound_writeResult {m : Memory} (h : cellsSound m) {vs : List Half} (hl : vs.length ≤ 125) :
    cellsSound (Memory.writeHalves m (resAddr 0) vs) := by
  refine ⟨Memory.writeHalves_wf vs h.1 _, fun c hc => ?_⟩
  rcases Memory.mem_writeHalves vs hc with hc | ⟨j, hj, he⟩
  · exact h.2 c hc
  · exact .inr (.inr ⟨j, lt_of_lt_of_le hj hl, he⟩)

theorem Effect.keeps_buffersSound {i : Instr} {s t : State} (h : Effect i s t) (hr : Runs i s) (hq : phaseSound s)
    (hs : buffersSound s) : buffersSound t := by
  change cellsSound t.mem
  rcases h.mem_cases with hm | ⟨bs, hl, hm⟩ | ⟨b, hp, hm⟩ | ⟨vs, -, hl, hm⟩ <;> rw [hm]
  · exact hs
  · exact cellsSound_writeTx hs (by omega)
  · obtain ⟨hc, -, hn, -⟩ := phaseSound_receiving hq hp
    exact cellsSound_write hs (.inr (.inl ⟨_, lt_of_lt_of_le hn (receives_max hc).2, rfl⟩)) b
  · exact cellsSound_writeResult hs (hl hr hq)

/-- A host write reaches a buffer only in one cell of TXBUF or RXBUF, of an idle block (R53). -/
theorem hostWrite_mem_cases (off : BitVec 12) (v : Word) (s : State) :
    (hostWrite (regAt off) v s).mem = s.mem ∨
    (s.phase = .idle ∧
      ∃ a, bufferOffset a ∧ (hostWrite (regAt off) v s).mem = Memory.write s.mem a (v.setWidth 8)) := by
  have buffer : ∀ a, bufferOffset a → (writeBuffer a v s).mem = s.mem ∨
      (s.phase = .idle ∧ ∃ c, bufferOffset c ∧ (writeBuffer a v s).mem = Memory.write s.mem c (v.setWidth 8)) := by
    intro a ha
    unfold writeBuffer
    split
    · exact .inl rfl
    · rename_i hb
      exact .inr ⟨(not_busy_iff s).1 (by simpa using hb), a, ha, rfl⟩
  cases hreg : regAt off with
  | txbuf j => exact buffer _ (.inl ⟨j, (regAt_txbuf hreg).2, rfl⟩)
  | rxbuf j => exact buffer _ (.inr (.inl ⟨j, (regAt_rxbuf hreg).2, rfl⟩))
  | cfgBaud | cfgFrame | cfgRtoMs | cfgWtoMs => left; simp only [hostWrite, writeCfg]; split <;> rfl
  | cmd | status => left; simp only [hostWrite]; split <;> rfl
  | _ => exact .inl rfl

theorem hostWrite_buffersSound {s : State} (hs : buffersSound s) (off : BitVec 12) (v : Word) :
    buffersSound (hostWrite (regAt off) v s) := by
  change cellsSound _
  rcases hostWrite_mem_cases off v s with hm | ⟨-, a, ha, hm⟩ <;> rw [hm]
  · exact hs
  · exact cellsSound_write hs ha _

/-- Settles O54: every write of a step is to a buffer's cell. -/
theorem everyStepKeepsBuffersSound : Obligations.EveryStepKeepsBuffersSound := by
  unfold Obligations.EveryStepKeepsBuffersSound
  intro s t hq hs h
  cases step_turned h with
  | same h => rw [h]; exact hs
  | clock => exact hs
  | resetOn => exact ⟨List.Pairwise.nil, by simp [resetState, State.reset]⟩
  | resetOff hu => rw [hu]; exact hs
  | runs hu hi he => exact (exec_effect he).keeps_buffersSound hi (by rw [hu]; exact hq.1) (by rw [hu]; exact hs)
  | writes off v hu => exact hostWrite_buffersSound (by rw [hu]; exact hs) off v

end Sys2Proof.Machine
end

section
/-! PROOFS. The sound states: each part of `Sound` kept by an instruction's step and by a host write, and from them the
whole of it kept by every step. -/

namespace Sys2Proof.Machine

/-! The sequencer (R44, R49). -/

theorem phaseSound_of_idle {s : State} (h : s.phase = .idle) : phaseSound s := by simp [phaseSound, h]

/-- The instruction an idle block accepts is the one its word selects, and `rst` is released (R47). -/
theorem Runs.accepts {i : Instr} {s : State} {w : Word} (h : Runs i s) (hp : s.phase = .idle) (hi : encode i = .cmd w) :
    i = decodeCmd w ∧ s.rst = false := by
  cases h with
  | accepted v _ hr => rw [encode_decodeCmd] at hi; cases hi; exact ⟨rfl, hr⟩
  | sequenced hq => exact absurd hp hq

theorem Runs.due {i : Instr} {s : State} (h : Runs i s) (hp : s.phase ≠ .idle) : ∃ d, dueAt s = some d ∧ d ≤ s.now := by
  cases h with
  | accepted w hq => exact absurd hq hp
  | sequenced _ hd hn => exact ⟨_, hd, hn⟩

/-- A TX phase that goes on has a character left to send (R114, R119). -/
theorem txStep_goesOn {s t : State} (h : txStep s = .ok (none, t)) : t.port.txK < txTotal s.latch := by
  obtain ⟨-, ⟨-, -, hk⟩ | ⟨-, -, ho, -⟩ | ⟨-, -, -, ho, -⟩ | ⟨-, -, -, b, -, rfl, ho⟩⟩ := txStep_cases h
  · exact (hk rfl).2
  · cases ho
  · cases ho
  · split at ho
    · cases ho
    · rename_i hn; exact not_le.1 hn

/-- READ_INPUT_REGS sends and receives with its arguments checked (R190). -/
theorem sends_isRir {l : Latch} (h : sends l) (hq : isRir l = true) : rirBadArg l = false := by
  rcases h with ⟨-, ha⟩ | ⟨hop, -⟩
  · exact ha
  · rw [isRir, hop] at hq; exact absurd hq (by decide)

theorem receives_isRir {l : Latch} (h : receives l) (hq : isRir l = true) : rirBadArg l = false := by
  rcases h with ⟨-, ha⟩ | ⟨hop, -⟩
  · exact ha
  · rw [isRir, hop] at hq; exact absurd hq (by decide)

/-- The latched command is READ_INPUT_REGS where that is what runs. -/
theorem Runs.isRir {i : Instr} {s : State} (h : Runs i s) (hp : s.phase ≠ .idle) (hd : s.phase ≠ .decode)
    (hi : i = .readInputRegs) : isRir s.latch = true := by
  have := h.latched hp hd
  subst hi
  rw [Machine.isRir, ← Code.cmd.inj this]
  rfl

theorem accepts_phaseSound {i : Instr} {s : State} {w : Word} (hi : i = decodeCmd w)
    (hw : i = .writeBytes → writeAtOnce (accept w .exec s) ≠ none)
    (hr : i = .readBytes → readAtOnce (accept w .exec s) ≠ none)
    (hq : i = .readInputRegs → rirBadArg (latchArgs w s) = true) : phaseSound (accept w .exec s) := by
  refine ⟨fun h => hw ?_, fun h => hr ?_, fun h => ?_⟩
  · rw [hi, show w = opcodeWord 0x03 from h]; rfl
  · rw [hi, show w = opcodeWord 0x04 from h]; rfl
  · have hw : w = opcodeWord 0x07 := beq_iff_eq.1 h
    rw [Ne, rirAtOnce_none_iff, accept_latch, hq (by rw [hi, hw]; rfl)]
    simp

theorem Effect.keeps_phaseSound {i : Instr} {s t : State} (h : Effect i s t) (hr : Runs i s) (hs : phaseSound s) :
    phaseSound t := by
  cases h with
  | unmoved => exact hs
  | accepts w hp hi hw hb hq => exact accepts_phaseSound (hr.accepts hp hi).1 hw hb hq
  | acceptsWrite hp hi ha =>
    obtain ⟨hl, ho, hz⟩ := (writeAtOnce_none_iff _).1 ha
    exact ⟨.inr ⟨rfl, Nat.one_le_iff_ne_zero.2 (by simpa [← BitVec.toNat_inj] using hz), hl⟩, ho⟩
  | acceptsRead hp hi ha =>
    obtain ⟨hl, ho, hz⟩ := (readAtOnce_none_iff _).1 ha
    exact ⟨.inr ⟨rfl, Nat.one_le_iff_ne_zero.2 (by simpa [← BitVec.toNat_inj] using hz), hl⟩, ho, rfl⟩
  | acceptsClosed hp hi ha ho =>
    refine ⟨fun h => absurd h (by decide : opcodeWord 0x07 ≠ opcodeWord 0x03),
      fun h => absurd h (by decide : opcodeWord 0x07 ≠ opcodeWord 0x04), fun _ => ?_⟩
    rw [Ne, rirAtOnce_none_iff]
    simp [ho]
  | acceptsRequest hp hi ha ho => exact ⟨.inl ⟨rfl, ha⟩, ho⟩
  | ends | gapFails | sendEnds | receiveEnds => exact phaseSound_of_idle rfl
  | gapEnds hp =>
    simp only [phaseSound, hp] at hs
    exact ⟨hs.1, hs.2, (sends_total hs.1).1⟩
  | sends _ hp hx =>
    have k := (txStep_cases hx).1
    have hn := txStep_goesOn hx
    simp only [phaseSound, hp] at hs
    simp only [phaseSound, k.phase, hp, k.latch, k.isOpen]
    exact ⟨hs.1, hs.2.1, hn⟩
  | sendTurns u hp hi hx =>
    have k := (txStep_cases hx).1
    have hq := hr.isRir (by simp [hp]) (by simp [hp]) hi
    simp only [phaseSound, hp] at hs
    refine ⟨.inl ?_, k.isOpen.trans hs.2.1, rfl⟩
    rw [enterRx_latch, k.latch]
    exact ⟨hq, sends_isRir hs.1 hq⟩
  | receives _ hp hx =>
    have k := (rxStep_cases hx).1
    obtain ⟨hc, ho, hn, -⟩ := phaseSound_receiving hs hp
    rcases rxStep_stored hx with ⟨-, -, -, h, -⟩ | ⟨b, e, hq, -, ht, -, -, hm⟩
    · exact absurd rfl h
    · have hne : s.port.rxN + 1 ≠ rxMax s.latch := fun h => by simp [h] at hm
      simp only [phaseSound, ht, k.latch, hq]
      exact ⟨hc, ho, by omega, by omega⟩
  | receiveTurns u hp hi hx =>
    have k := (rxStep_cases hx).1
    obtain ⟨hc, ho, hn, -⟩ := phaseSound_receiving hs hp
    have hq : isRir s.latch = true := by
      rcases hp with hp | hp <;> exact hr.isRir (by simp [hp]) (by simp [hp]) hi
    have h1 := (receives_max hc).1
    have hcount : 1 ≤ u.port.rxN ∧ u.port.rxN ≤ rxMax s.latch := by
      rcases rxStep_stored hx with ⟨h, -, -, -, h2⟩ | ⟨b, e, h, -⟩ <;> rw [h]
      · exact ⟨h2 rfl h1, hn.le⟩
      · exact ⟨Nat.le_add_left 1 _, hn⟩
    simp only [phaseSound, enterPhase_phase, enterPhase_latch, enterPhase_port, k.latch, k.isOpen]
    exact ⟨hq, receives_isRir hc hq, ho, hcount⟩
  | judges b eF out => exact phaseSound_of_idle (finishDecode_keeps out _).2.1
  | lays => exact hs

theorem Effect.keeps_sequencerSound {i : Instr} {s t : State} (h : Effect i s t) (hu : Untouched s t) (hr : Runs i s)
    (hs : sequencerSound s) : sequencerSound t := by
  refine ⟨h.keeps_phaseSound hr hs.1, fun ht => ?_⟩
  rw [hu.rst] at ht
  cases hr with
  | accepted w hp hn => simp [hn] at ht
  | sequenced hp => exact absurd (hs.2 ht) hp

/-! The configuration (R37, R120). -/

theorem configLegal_congr {p : Params} {r q : Regs} (h : keepsHostRegs r q) : configLegal p q = configLegal p r := by
  obtain ⟨h1, h2, h3, h4, -⟩ := h
  simp only [configLegal, dataBits, parity, stopBits, h1, h2, h3, h4]

theorem Effect.keeps_configSound {i : Instr} {s t : State} (h : Effect i s t) (hu : Untouched s t)
    (hs : configSound s) : configSound t := by
  intro ht
  rw [hu.params, configLegal_congr hu.hostRegs]
  rcases h.isOpen_cases with ho | ⟨-, -, ⟨-, -, hc⟩ | ⟨-, ho⟩⟩
  · exact hs (ho ▸ ht)
  · exact hc
  · simp [ho] at ht

/-! The frames in the buffers (R190, R116). -/

theorem framesSound_of_phase {s : State} (h : s.phase = .idle ∨ s.phase = .exec ∨ s.phase = .rxWait) :
    framesSound s := by
  rcases h with h | h | h <;> simp [framesSound, h]

/-- The arbiter keeps a byte in every cell it has counted. -/
theorem rxStep_cells {s t : State} {o : Option RxOutcome} (h : rxStep s = (o, t))
    (hs : ∀ j, j < s.port.rxN → (Memory.read s.mem (rxAddr j)).isSome = true) :
    ∀ j, j < t.port.rxN → (Memory.read t.mem (rxAddr j)).isSome = true := by
  rcases rxStep_stored h with ⟨hq, hm, -⟩ | ⟨b, e, hq, hm, -⟩ <;> rw [hq, hm]
  · exact hs
  · intro j hj
    rcases Nat.lt_succ_iff_lt_or_eq.1 hj with hj | rfl
    · exact Memory.read_write_isSome _ _ _ _ (hs j hj)
    · rw [Memory.read_write_same]; rfl

/-- In a receiving phase every counted cell holds a byte. -/
theorem framesSound_receiving {s : State} (h : framesSound s) (hq : phaseSound s)
    (hp : s.phase = .rxWait ∨ s.phase = .rxFrame) :
    ∀ j, j < s.port.rxN → (Memory.read s.mem (rxAddr j)).isSome = true := by
  rcases hp with hp | hp
  · rw [(phaseSound_receiving hq (.inl hp)).2.2.2 hp]
    exact fun j hj => absurd hj (Nat.not_lt_zero j)
  · exact h.2 (.inl hp)

theorem Effect.keeps_framesSound {i : Instr} {s t : State} (h : Effect i s t) (hr : Runs i s) (hq : phaseSound s)
    (hs : framesSound s) : framesSound t := by
  cases h with
  | unmoved => exact hs
  | accepts | acceptsClosed => exact framesSound_of_phase (.inr (.inl rfl))
  | acceptsWrite hp hi ha =>
    have hq : ¬ (opcodeWord 0x03 == opcodeWord 0x07) = true := by decide
    exact ⟨fun _ h => absurd h hq, by simp⟩
  | acceptsRead | sendTurns => exact framesSound_of_phase (.inr (.inr rfl))
  | acceptsRequest hp hi ha ho => exact ⟨fun _ _ => Memory.readCells_writeCells _ s.mem (txAddr 0), by simp⟩
  | ends | gapFails | sendEnds | receiveEnds => exact framesSound_of_phase (.inl rfl)
  | gapEnds hp => exact ⟨fun _ => hs.1 (.inl hp), by simp⟩
  | sends _ hp hx =>
    have k := (txStep_cases hx).1
    simp only [framesSound, k.phase, k.latch, k.mem, k.rxN]
    exact hs
  | receives _ hp hx =>
    have ht : t.phase = .rxFrame := by
      rcases rxStep_stored hx with ⟨-, -, -, h, -⟩ | ⟨b, e, -, -, ht, -⟩
      · exact absurd rfl h
      · exact ht
    exact ⟨by simp [ht], fun _ => rxStep_cells hx (framesSound_receiving hs hq hp)⟩
  | receiveTurns u hp hi hx =>
    have hc := rxStep_cells hx (framesSound_receiving hs hq hp)
    exact ⟨by simp, fun _ => hc⟩
  | judges b eF out => exact framesSound_of_phase (.inl (finishDecode_keeps out _).2.1)
  | lays bs hd hi hl =>
    cases hr with
    | accepted w => exact absurd (encode_decodeCmd w) (hi w)
    | sequenced =>
      rcases fetchInstr_cases s with h | ⟨hp, hq⟩
      · exact absurd h (hi _)
      · simp [decoding, hp, hq] at hd

/-! Time (R49, R110). -/

/-- What is due in a timed phase whose line holds: its end has come. -/
theorem phaseDue_le {s : State} {d : Time} (hd : dueAt s = some d) (hn : d ≤ s.now) (ht : isTimed s = true)
    (hl : s.line.present = true) : phaseDue s ≤ s.now := by
  simp only [dueAt, dueAt_busy hd, ht, lineFailed, hl] at hd
  simp only [Bool.true_eq_false, if_false, Bool.not_true, Bool.and_false, Bool.or_false, decide_false] at hd
  exact (le_max_right _ _).trans ((Option.some.inj hd).le.trans hn)

theorem txStep_tLast {s t : State} {o : Option TxOutcome} (h : txStep s = .ok (o, t)) (hp : s.phase = .tx)
    (hdue : ∃ d, dueAt s = some d ∧ d ≤ s.now) (hs : s.port.tLast ≤ s.now) : t.port.tLast ≤ s.now := by
  obtain ⟨-, ⟨-, hq, -⟩ | ⟨-, -, -, hq⟩ | ⟨-, -, -, -, rfl⟩ | ⟨ht, hl, hi, b, -, rfl, -⟩⟩ := txStep_cases h
  · rw [hq]; split
    · exact le_rfl
    · exact hs
  · rw [hq]; exact hs
  · exact hs
  · obtain ⟨d, hd, hn⟩ := hdue
    have := phaseDue_le hd hn ht hl
    simp only [phaseDue, hp, txDue, hi, if_true] at this
    exact this

theorem rxStep_tLast {s t : State} {o : Option RxOutcome} (h : rxStep s = (o, t))
    (hp : s.phase = .rxWait ∨ s.phase = .rxFrame) (hdue : ∃ d, dueAt s = some d ∧ d ≤ s.now)
    (hs : s.port.tLast ≤ s.now) : t.port.tLast ≤ s.now := by
  rcases rxStep_stored h with ⟨hq, -⟩ | ⟨b, e, hq, -, -, hu, ht, -⟩ <;> rw [hq]
  · exact hs
  · cases htm : isTimed s with
    | false => exact (hu htm).le
    | true =>
      obtain ⟨d, hd, hn⟩ := hdue
      have := phaseDue_le hd hn htm (ht htm).1
      rw [(ht htm).2]
      rcases hp with hp | hp <;> simpa only [phaseDue, hp] using this

theorem Effect.tLast_le {i : Instr} {s t : State} (h : Effect i s t) (hr : Runs i s) (hq : phaseSound s)
    (hs : s.port.isOpen = true → s.port.tLast ≤ s.now) (ht : t.port.isOpen = true) : t.port.tLast ≤ s.now := by
  have tx : ∀ o u, s.phase = .tx → txStep s = .ok (o, u) → u.port.tLast ≤ s.now := fun o u hp hx => by
    have ho : s.port.isOpen = true := by simp only [phaseSound, hp] at hq; exact hq.2.1
    exact txStep_tLast hx hp (hr.due (by simp [hp])) (hs ho)
  have rx : ∀ o u, s.phase = .rxWait ∨ s.phase = .rxFrame → rxStep s = (o, u) → u.port.tLast ≤ s.now :=
    fun o u hp hx => by
    refine rxStep_tLast hx hp (hr.due ?_) (hs (phaseSound_receiving hq hp).2.1)
    rcases hp with hp | hp <;> simp [hp]
  cases h with
  | ends r u hp hb =>
    cases hb with
    | opened => exact le_rfl
    | closed => cases ht
    | _ => exact hs ht
  | sends _ hp hx => exact tx _ _ hp hx
  | sendEnds o r u hp hx => exact tx _ u hp hx
  | sendTurns u hp hi hx => exact tx _ u hp hx
  | receives _ hp hx => exact rx _ _ hp hx
  | receiveEnds o r u hp hi hx => exact rx _ u hp hx
  | receiveTurns u hp hi hx => exact rx _ u hp hx
  | judges b eF out =>
    obtain ⟨-, -, -, hp, -⟩ := finishDecode_keeps out (decodeStart s)
    rw [hp, decodeStart_eq] at ht ⊢
    exact hs ht
  | _ => exact hs ht

/-- A command in progress was accepted, and its phase entered, no later than now. -/
theorem Effect.instants_le {i : Instr} {s t : State} (h : Effect i s t)
    (hs : s.phase ≠ .idle → s.latch.t0 ≤ s.now ∧ s.phaseAt ≤ s.now) (ht : t.phase ≠ .idle) :
    t.latch.t0 ≤ s.now ∧ t.phaseAt ≤ s.now := by
  have rx : ∀ o u, s.phase = .rxWait ∨ s.phase = .rxFrame → rxStep s = (o, u) →
      u.latch.t0 ≤ s.now ∧ u.phaseAt ≤ s.now := fun o u hp hx => by
    have k := (rxStep_cases hx).1
    rw [k.latch, k.phaseAt]
    exact hs (by rcases hp with hp | hp <;> simp [hp])
  cases h with
  | unmoved | lays => exact hs ht
  | accepts | acceptsWrite | acceptsRead | acceptsClosed | acceptsRequest => exact ⟨le_rfl, le_rfl⟩
  | ends | gapFails | sendEnds | receiveEnds => exact absurd rfl ht
  | gapEnds hp => exact ⟨(hs (by simp [hp])).1, le_rfl⟩
  | sends _ hp hx =>
    have k := (txStep_cases hx).1
    rw [k.latch, k.phaseAt]
    exact hs (by simp [hp])
  | sendTurns u hp hi hx =>
    have k := (txStep_cases hx).1
    rw [enterRx_latch, enterRx_phaseAt, k.latch, k.rest.now]
    exact ⟨(hs (by simp [hp])).1, le_rfl⟩
  | receives _ hp hx => exact rx _ _ hp hx
  | receiveTurns u hp hi hx =>
    rw [enterPhase_phaseAt, (rxStep_cases hx).1.rest.now]
    exact ⟨(rx _ u hp hx).1, le_rfl⟩
  | judges b eF out => exact absurd (finishDecode_keeps out _).2.1 ht

theorem Effect.keeps_timeSound {i : Instr} {s t : State} (h : Effect i s t) (hu : Untouched s t) (hr : Runs i s)
    (hq : phaseSound s) (hs : timeSound s) : timeSound t := by
  obtain ⟨hn, hl, hb⟩ := hs
  rw [busy_iff] at hb
  rw [timeSound, busy_iff, hu.now]
  exact ⟨hn, h.tLast_le hr hq hl, h.instants_le hb⟩

/-! RXLEN and RESULT_COUNT (R40). -/

theorem rxStep_rxN_le {s t : State} {o : Option RxOutcome} (h : rxStep s = (o, t)) (hq : phaseSound s)
    (hp : s.phase = .rxWait ∨ s.phase = .rxFrame) : t.port.rxN ≤ 256 := by
  obtain ⟨hc, -, hn, -⟩ := phaseSound_receiving hq hp
  have := (receives_max hc).2
  rcases rxStep_stored h with ⟨hq, -⟩ | ⟨b, e, hq, -⟩ <;> rw [hq]
  · omega
  · exact le_trans hn this

/-- Everything an instruction's step writes into the registers, by the instructions that write it (R39, R40, R45). -/
theorem Effect.regs_cases {i : Instr} {s t : State} (h : Effect i s t) :
    t.regs = s.regs ∨
    (∃ c, (i = .crcInit ∨ i = .crcUpdate) ∧ t.regs = { s.regs with crcAcc := c }) ∨
    (∃ q, (i = .decodeTemp ∨ i = .decodeHum) ∧ t.regs = { s.regs with scale := q }) ∨
    (∃ n, (i = .readBytes ∨ i = .readInputRegs) ∧ (phaseSound s → n ≤ 256) ∧
      t.regs = { s.regs with rxLen := BitVec.ofNat 9 n }) ∨
    (∃ n recv comp, writesResult i s ∧ (Runs i s → phaseSound s → n ≤ 125) ∧
      t.regs = { (decodeStart s).regs with resultCount := BitVec.ofNat 8 n, diagRecv := recv, diagCalc := comp }) := by
  cases h with
  | ends r u hp hb =>
    cases hb with
    | crc hi c => exact .inr (.inl ⟨c, hi, rfl⟩)
    | scaled hi q => exact .inr (.inr (.inl ⟨q, hi, rfl⟩))
    | emptied hi => exact .inr (.inr (.inr (.inl ⟨0, .inl hi, fun _ => by omega, rfl⟩)))
    | _ => exact .inl rfl
  | sends _ hp hx => exact .inl (txStep_cases hx).1.regs
  | sendEnds o r u hp hx => exact .inl (txStep_cases hx).1.regs
  | sendTurns u hp hi hx => exact .inl (txStep_cases hx).1.regs
  | receives _ hp hx => exact .inl (rxStep_cases hx).1.regs
  | receiveEnds o r u hp hi hx =>
    refine .inr (.inr (.inr (.inl ⟨u.port.rxN, hi, fun hq => rxStep_rxN_le hx hq hp, ?_⟩)))
    rw [complete_regs, writeRxLen_regs, (rxStep_cases hx).1.regs]
  | receiveTurns u hp hi hx => exact .inl (rxStep_cases hx).1.regs
  | judges b eF out hj ho =>
    obtain ⟨n, recv, comp, hw, hn⟩ := finishDecode_writes out (decodeStart s)
    refine .inr (.inr (.inr (.inr ⟨n, recv, comp, hj.writesResult, fun hr hq => ?_, hw⟩)))
    rcases hn with ⟨vs, hv, rfl, -⟩ | ⟨rfl, -⟩
    · exact hj.count_le hr hq ho hv
    · omega
  | _ => exact .inl rfl

theorem toNat_ofNat_le (w n : Nat) : (BitVec.ofNat w n).toNat ≤ n := by
  rw [BitVec.toNat_ofNat]; exact Nat.mod_le _ _

/-- READ_INPUT_REGS has written the count of a frame that fits RXBUF. -/
theorem decodeStart_countsSound {s : State} (hq : phaseSound s) (hs : countsSound s) :
    (decodeStart s).regs.rxLen.toNat ≤ Config.rxbufSize := by
  unfold decodeStart
  split
  · rename_i hp
    obtain ⟨hr, ha, -, -, hn⟩ := phaseSound_decode hq hp
    exact (toNat_ofNat_le 9 _).trans (hn.trans (receives_max (.inl ⟨hr, ha⟩)).2)
  · exact hs.2

theorem Effect.keeps_countsSound {i : Instr} {s t : State} (h : Effect i s t) (hr : Runs i s) (hq : phaseSound s)
    (hs : countsSound s) : countsSound t := by
  rw [countsSound]
  rcases h.regs_cases with hw | ⟨c, -, hw⟩ | ⟨q, -, hw⟩ | ⟨n, -, hn, hw⟩ | ⟨n, recv, comp, -, hn, hw⟩ <;> rw [hw]
  · exact hs
  · exact hs
  · exact hs
  · exact ⟨hs.1, (toNat_ofNat_le 9 n).trans (hn hq)⟩
  · exact ⟨(toNat_ofNat_le 8 n).trans (hn hr hq), decodeStart_countsSound hq hs⟩

/-! All of it together. -/

theorem exec_keeps_sound {i : Instr} {s t : State} (h : exec i s = .next t) (hr : Runs i s) (hs : Sound s) :
    Sound t := by
  obtain ⟨h1, h2, h3, h4, h5, h6, h7⟩ := hs
  have he := exec_effect h
  have hu := exec_untouched i h
  exact ⟨he.keeps_statusSound h1, he.keeps_sequencerSound hu hr h2, he.keeps_configSound hu h3,
    he.keeps_buffersSound hr h2.1 h4, he.keeps_framesSound hr h2.1 h5, he.keeps_timeSound hu hr h2.1 h6,
    he.keeps_countsSound hr h2.1 h7⟩

theorem keepsResultRegs_refl (q : Regs) : keepsResultRegs q q := ⟨rfl, rfl, rfl, rfl, rfl, rfl⟩

/-- A CFG_* write leaves the configuration of an open transport alone (R37), and the registers that `q` keeps. -/
theorem writeCfg_regs {s : State} {q : Regs} (hq : keepsResultRegs s.regs q) :
    (s.port.isOpen = true → (writeCfg q s).regs = s.regs) ∧ keepsResultRegs s.regs (writeCfg q s).regs := by
  unfold writeCfg
  split
  · exact ⟨fun _ => rfl, keepsResultRegs_refl _⟩
  · rename_i hc
    exact ⟨fun ho => absurd (by simp [ho]) hc, hq⟩

/-- A host write leaves the configuration of an open transport, the results and their counts alone (R37, R24). -/
theorem hostWrite_regs (r : Reg) (v : Word) (s : State) :
    (s.port.isOpen = true → configLegal s.params (hostWrite r v s).regs = configLegal s.params s.regs) ∧
      keepsResultRegs s.regs (hostWrite r v s).regs := by
  cases r with
  | cfgBaud | cfgFrame | cfgRtoMs | cfgWtoMs =>
    refine And.imp_left (fun h ho => by rw [← h ho]; rfl) (writeCfg_regs ?_)
    exact ⟨rfl, rfl, rfl, rfl, rfl, rfl⟩
  | txbuf | rxbuf =>
    simp only [hostWrite, writeBuffer]
    split <;> exact ⟨fun _ => rfl, keepsResultRegs_refl _⟩
  | cmd | status => simp only [hostWrite]; split <;> exact ⟨fun _ => rfl, keepsResultRegs_refl _⟩
  | _ => exact ⟨fun _ => rfl, rfl, rfl, rfl, rfl, rfl, rfl⟩

theorem hostWrite_keeps_sound (off : BitVec 12) (v : Word) {s : State} (hs : Sound s) :
    Sound (hostWrite (regAt off) v s) := by
  obtain ⟨h1, h2, h3, h4, h5, h6, h7⟩ := hs
  have hb := hostWrite_buffersSound h4 off v
  have hm := hostWrite_mem_cases off v s
  obtain ⟨hc, -, hx, hn, -⟩ := hostWrite_regs (regAt off) v s
  obtain ⟨j, q, m, hw⟩ := hostWrite_keeps (regAt off) v s
  rw [hw] at hb hm hc hx hn ⊢
  refine ⟨h1, h2, fun ho => (hc ho).trans (h3 ho), hb, ?_, h6, ?_⟩
  · rcases hm with hm | ⟨hp, -⟩
    · change m = s.mem at hm
      subst hm
      exact h5
    · exact framesSound_of_phase (.inl hp)
  · rw [countsSound, hn, hx]; exact h7

theorem reset_countsSound : countsSound State.reset := ⟨by decide, by decide⟩

theorem resetState_sound (s : State) : Sound (resetState s) := by
  refine ⟨reset_statusSound, ⟨phaseSound_of_idle rfl, fun _ => rfl⟩, fun h => ?_, ⟨List.Pairwise.nil, ?_⟩,
    framesSound_of_phase (.inl rfl), ⟨le_rfl, fun h => ?_, fun h => ?_⟩, ?_⟩
  · cases h
  · intro c hc; cases hc
  · cases h
  · cases h
  · exact reset_countsSound

/-- Settles O55: each turn of a step keeps each part of soundness. -/
theorem everyStepKeepsSound : Obligations.EveryStepKeepsSound := by
  unfold Obligations.EveryStepKeepsSound
  intro s t hs h
  cases step_turned h with
  | same h => rw [h]; exact hs
  | @clock tm hlt =>
    obtain ⟨h1, h2, h3, h4, h5, ⟨hn, hl, hb⟩, h7⟩ := hs
    have hle : s.now ≤ tm := hlt.le
    exact ⟨h1, h2, h3, h4, h5, ⟨hn.trans hle, fun ho => (hl ho).trans hle,
      fun h => ⟨(hb h).1.trans hle, (hb h).2.trans hle⟩⟩, h7⟩
  | resetOn u => exact resetState_sound u
  | resetOff hu =>
    obtain ⟨h1, h2, h3, h4, h5, h6, h7⟩ := hs
    rw [hu]
    exact ⟨h1, ⟨h2.1, fun h => by cases h⟩, h3, h4, h5, h6, h7⟩
  | runs hu hi he => exact exec_keeps_sound he hi (by rw [hu]; exact hs)
  | writes off v hu => exact hostWrite_keeps_sound off v (by rw [hu]; exact hs)

end Sys2Proof.Machine
end

section
/-! PROOFS. The writers of the result registers (R39, R40, R43, R45). -/

namespace Sys2Proof.Machine

/-- A register that an instruction's step changes is one the instruction writes. -/
theorem Effect.regs_writers {i : Instr} {s t : State} (h : Effect i s t) :
    (t.regs.crcAcc ≠ s.regs.crcAcc → i = .crcInit ∨ i = .crcUpdate) ∧
    (t.regs.scale ≠ s.regs.scale → i = .decodeTemp ∨ i = .decodeHum) ∧
    (t.regs.rxLen ≠ s.regs.rxLen → i = .readBytes ∨ i = .readInputRegs ∨ s.phase = .decode) ∧
    (t.regs.resultCount ≠ s.regs.resultCount → writesResult i s) ∧
    ((t.regs.diagCalc, t.regs.diagRecv) ≠ (s.regs.diagCalc, s.regs.diagRecv) → writesResult i s) := by
  rcases h.regs_cases with hw | ⟨c, hi, hw⟩ | ⟨q, hi, hw⟩ | ⟨n, hi, -, hw⟩ | ⟨n, recv, comp, hi, -, hw⟩ <;> rw [hw]
  · simp
  · exact ⟨fun _ => hi, by simp, by simp, by simp, by simp⟩
  · exact ⟨by simp, fun _ => hi, by simp, by simp, by simp⟩
  · exact ⟨by simp, by simp, fun _ => hi.imp_right .inl, by simp, by simp⟩
  · refine ⟨?_, ?_, fun hx => .inr (.inr (by_contra fun hp => hx ?_)), fun _ => hi, fun _ => hi⟩
    · rw [decodeStart_eq]; simp
    · rw [decodeStart_eq]; simp
    · simp [decodeStart, hp]

/-- Only a decode changes RESULT: a request is laid in TXBUF, and a received byte lies in RXBUF. -/
theorem Effect.result_writers {i : Instr} {s t : State} (h : Effect i s t) (hs : sequencerSound s) {a : Nat}
    (ha : 0x900 ≤ a) (hx : Memory.read t.mem a ≠ Memory.read s.mem a) : writesResult i s := by
  rcases h.mem_cases with hm | ⟨bs, hl, hm⟩ | ⟨b, hp, hm⟩ | ⟨vs, hi, -, -⟩
  · exact absurd (by rw [hm]) hx
  · refine absurd ?_ hx
    rw [hm, Memory.read_writeCells_other]
    intro j hj
    simp only [txAddr]
    omega
  · obtain ⟨hc, -, hn, -⟩ := phaseSound_receiving hs.1 hp
    have := (receives_max hc).2
    refine absurd ?_ hx
    rw [hm, Memory.read_write_other]
    simp only [rxAddr]
    omega
  · exact hi

/-- Settles O56: each register by its writers, RESULT by the decodes. -/
theorem resultRegistersHaveTheirWriters : Obligations.ResultRegistersHaveTheirWriters := by
  unfold Obligations.ResultRegistersHaveTheirWriters
  intro i s t h
  obtain ⟨h1, h2, h3, h4, h5⟩ := (exec_effect h).regs_writers
  refine ⟨h1, h2, h3, h4, h5, ?_⟩
  rintro ⟨a, ha, -, hx⟩ hs
  exact (exec_effect h).result_writers hs ha hx

end Sys2Proof.Machine
end

section
/-! PROOFS. Whose turn it is: the sequencer's step of the command in progress, and the CMD write, accepted or
rejected. -/

namespace Sys2Proof.Machine

/-! What is due. -/

theorem isDue_iff (t : Time) (s : State) : isDue t s = true ↔ (isTimed s = true → t ≤ s.now) := by
  cases h : isTimed s <;> simp [isDue, eventTime, h]

theorem sequencerTurn_of_due {s : State} {d : Time} (hd : dueAt s = some d) (hn : d ≤ s.now) :
    sequencerTurn s = some .sequencer := by
  rw [sequencerTurn, if_pos ((sequencerDue_iff s).2 ⟨d, hd, hn⟩)]

theorem sequencerTurn_of_idle {s : State} (h : s.phase = .idle) : sequencerTurn s = none := by
  simp [sequencerTurn, sequencerDue, dueAt, (not_busy_iff s).2 h]

/-- With no input changing, the turn is the host's or the sequencer's. -/
theorem turnNow_of_inputs {s : State} (hr : resetDue s = none) (hl : lineDue s = none) :
    turnNow s = hostOrSequencer s := by
  simp [turnNow, lineOrOthers, hr, hl]

theorem nextTurn_of_now {s : State} {turn : Turn} (h : turnNow s = some turn) : nextTurn s = turn := by
  simp [nextTurn, h]

/-- A change of `line_present` that has come is due while the line holds. -/
theorem lineDue_of_present {s : State} {c : InputChange} {cs : List InputChange} (hl : s.line.present = true)
    (hc : s.line.changes = c :: cs) (ht : c.time ≤ s.now) : lineDue s = some c := by
  have hd : isDue c.time s = true := (isDue_iff _ s).2 fun _ => ht
  simp [lineDue, nextLine, lineFailed, hl, hc, Option.filter, hd]

/-! Where nothing is due, nothing yields. -/

theorem passReset_of_none {s : State} (h : resetDue s = none) : passReset s = s := by simp [passReset, h]

theorem passLine_of_none {s : State} (h : lineDue s = none) : passLine s = s := by simp [passLine, h]

theorem passHost_of_none {s : State} (h : hostDue s = none) : passHost s = s := by simp [passHost, h]

theorem resetDue_passLine (s : State) : resetDue (passLine s) = resetDue s := by rw [passLine_eq s]; rfl

theorem atHost_resets {s : State} (h : resetDue s = none) : (atHost s).resets = s.resets := by
  have hp : passReset (passLine s) = passLine s := passReset_of_none ((resetDue_passLine s).trans h)
  rw [atHost, hp, passLine_eq]

theorem atHost_changes {s : State} (h : lineDue s = none) : (atHost s).line.changes = s.line.changes := by
  simp [atHost, passLine_of_none h]

theorem atHost_of_inputs {s : State} (hr : resetDue s = none) (hl : lineDue s = none) :
    atHost s = { s with env := s.env.tail } := by
  rw [atHost, passLine_of_none hl, passReset_of_none hr]

/-! The sequencer's turn. -/

theorem wirePhase_iff (p : Phase) : wirePhase p = true ↔ p = .txGap ∨ p = .tx ∨ p = .rxWait ∨ p = .rxFrame := by
  cases p <;> simp [wirePhase]

/-- Alone at its instant, the sequencer steps the command in the state itself. -/
theorem step_of_sequencer_alone {s : State} {d : Time} (hd : dueAt s = some d) (hn : d ≤ s.now) (hh : hostDue s = none)
    (hl : lineDue s = none) (hr : resetDue s = none) : step s = exec (fetchInstr s) s := by
  have hturn : nextTurn s = .sequencer :=
    nextTurn_of_now (by rw [turnNow_of_inputs hr hl, hostOrSequencer, hh, sequencerTurn_of_due hd hn])
  have hat : atSequencer s = s := by
    rw [atSequencer, passHost_of_none hh, passLine_of_none hl, passReset_of_none hr]
  simp only [step, hturn, hat]

/-- In a timed wire phase a change of the line goes before the sequencer (R117 (d)). -/
theorem step_of_line_change {s : State} {d : Time} {c : InputChange} (hd : dueAt s = some d) (hn : d ≤ s.now)
    (hp : wirePhase s.phase = true) (ht : isTimed s = true) (hl : lineDue s = some c) (hh : hostDue s = none)
    (hr : resetDue s = none) :
    step s = .next { s with line := { s.line with present := c.level, changes := s.line.changes.tail } } := by
  have hseq : hostOrSequencer s = some .sequencer := by rw [hostOrSequencer, hh, sequencerTurn_of_due hd hn]
  have hturn : nextTurn s = .line c.level := nextTurn_of_now (by simp [turnNow, hr, lineOrOthers, hl, ht, hp, hseq])
  simp only [step, hturn, atLine, passReset_of_none hr, lineStep]

/-- Settles O7: the turn of a due sequencer, alone and with others, and the change of the line that goes before it. -/
theorem stepRunsCommandInProgress : Obligations.StepRunsCommandInProgress := by
  unfold Obligations.StepRunsCommandInProgress
  intro s d hd hn
  refine ⟨step_of_sequencer_alone hd hn, fun ht => ⟨by simp only [step, ht], atSequencer_eq s⟩, fun hp => ?_, ?_⟩
  · simp [fetchInstr, hp]
  · intro c cs hp ht hl hc hle
    have hw := (wirePhase_iff s.phase).2 hp
    have hdue := lineDue_of_present hl hc hle
    refine ⟨fun hturn => ?_, fun hh hr => ?_⟩
    · rw [(nextTurn_sequencer hturn).2.2 ht hw] at hdue; cases hdue
    · rw [step_of_line_change hd hn hw ht hdue hh hr, hc]; rfl

/-! The CMD write. -/

theorem admitted_b4 {off : BitVec 12} (h : off.toNat % 4 = 0) : admitted off .b4 = true := by simp [admitted, h]

/-- An aligned 32-bit write out of reset writes its register. -/
theorem hostStep_write {off : BitVec 12} {s : State} (ha : off.toNat % 4 = 0) (hr : s.rst = false) (v : Word) :
    hostStep (.write off .b4 v) s = .next (hostWrite (regAt off) v s) := by
  simp [hostStep, admitted_b4 ha, hr]

/-- Settles O45: the write of a busy block only sets REJECT (R25). -/
theorem cmdWriteWhileBusyIsRejected : Obligations.CmdWriteWhileBusyIsRejected := by
  unfold Obligations.CmdWriteWhileBusyIsRejected
  intro s v hb hr hturn
  have hb' : busy (atHost s) = true := by simpa [busy_iff] using hb
  have hstep : step s = .next (setReject (atHost s)) := by
    have hw : hostWrite (regAt 0x000) v (atHost s) = setReject (atHost s) := if_pos hb'
    simp only [step, hturn]
    rw [hostStep_write rfl (by simpa using hr), hw]
  refine ⟨_, hstep, ?_, atHost_resets, atHost_changes⟩
  rw [atHost_eq s]; rfl

/-- An instruction with a command word is accepted in IDLE whatever the state. -/
theorem exec_of_idle {i : Instr} {s : State} {w : Word} (hp : s.phase = .idle) (hi : encode i = .cmd w) :
    ∃ t, exec i s = .next t := by
  cases i with
  | rtuReqReadInputRegs | rtuRspNormal | rtuRspException => cases hi
  | _ =>
    simp only [exec, execOpen, execClose, execWriteBytes, execReadBytes, execEncodeRir, execDecodeResp,
      execReadInputRegs, execDecodeTemp, execDecodeHum, execCrcInit, execCrcUpdate, execBadCmd, plainCommand, hp]
    exact ⟨_, rfl⟩

theorem firstPhase_ne_idle (w : Word) (s : State) : firstPhase w s ≠ .idle := by
  unfold firstPhase
  repeat' split
  all_goals simp

/-- The first phase of a command that its checks end at once, or that uses no wire, is EXEC (R44). -/
theorem firstPhase_eq_exec {w : Word} {s : State}
    (hw : w = 0x00000003 → writeAtOnce (accept w .exec s) ≠ none)
    (hr : w = 0x00000004 → readAtOnce (accept w .exec s) ≠ none)
    (hq : w = 0x00000007 → rirAtOnce (accept w .exec s) ≠ none) : firstPhase w s = .exec := by
  rw [Ne, writeAtOnce_none_iff] at hw
  rw [Ne, readAtOnce_none_iff] at hr
  rw [Ne, rirAtOnce_none_iff, not_rirBadArg_iff] at hq
  unfold firstPhase
  split
  · exact if_neg (hw ‹_›)
  · split
    · exact if_neg (hr ‹_›)
    · split
      · refine if_neg fun h => hq ‹_› ?_
        obtain ⟨h1, h2, h3, h4, h5⟩ := h
        exact ⟨⟨h1, h2, h3, h4⟩, h5⟩
      · rfl

/-- The acceptance of a command word (R47). -/
structure Accepted (w : Word) (s t : State) : Prop where
  latch : t.latch = latchArgs w s
  status : t.status = acceptedStatus w s.status
  phase : t.phase = firstPhase w s
  isOpen : t.port.isOpen = s.port.isOpen
  regs : t.regs = s.regs
  mem : t.mem = s.mem ∨ (w = 0x00000007 ∧ ∃ bs, bs.length = 8 ∧ t.mem = Memory.writeCells s.mem (txAddr 0) bs)

theorem Effect.accepted {s t : State} {w : Word} (h : Effect (decodeCmd w) s t) (hp : s.phase = .idle) :
    Accepted w s t := by
  have word : ∀ {v}, encode (decodeCmd w) = .cmd v → w = v := fun h =>
    Code.cmd.inj ((encode_decodeCmd w).symm.trans h)
  cases h with
  | unmoved h => exact absurd hp (h w (encode_decodeCmd w))
  | accepts v _ hi hw hr hq =>
    obtain rfl := word hi
    refine ⟨rfl, rfl, (firstPhase_eq_exec ?_ ?_ ?_).symm, rfl, rfl, .inl rfl⟩
    · rintro rfl; exact hw rfl
    · rintro rfl; exact hr rfl
    · rintro rfl
      rw [Ne, rirAtOnce_none_iff, accept_latch, hq rfl]; simp
  | acceptsWrite _ hi ha =>
    obtain rfl := word (by rw [hi]; rfl)
    have hfirst : firstPhase (opcodeWord 0x03) s = .txGap := by
      rw [firstPhase, if_pos (by decide)]
      exact if_pos ((writeAtOnce_none_iff _).1 ha)
    exact ⟨rfl, rfl, hfirst.symm, rfl, rfl, .inl rfl⟩
  | acceptsRead _ hi ha =>
    obtain rfl := word (by rw [hi]; rfl)
    have hfirst : firstPhase (opcodeWord 0x04) s = .rxWait := by
      rw [firstPhase, if_neg (by decide), if_pos (by decide)]
      exact if_pos ((readAtOnce_none_iff _).1 ha)
    exact ⟨rfl, rfl, hfirst.symm, rfl, rfl, .inl rfl⟩
  | acceptsClosed _ hi ha ho =>
    obtain rfl := word (by rw [hi]; rfl)
    refine ⟨rfl, rfl, (firstPhase_eq_exec ?_ ?_ ?_).symm, rfl, rfl, .inr ⟨rfl, _, rfl, rfl⟩⟩
    · exact fun h => absurd h (by decide)
    · exact fun h => absurd h (by decide)
    · intro _
      rw [Ne, rirAtOnce_none_iff]; simp [ho]
  | acceptsRequest _ hi ha ho =>
    obtain rfl := word (by rw [hi]; rfl)
    obtain ⟨h1, h2, h3, h4⟩ := (not_rirBadArg_iff _).1 ha
    have hfirst : firstPhase (opcodeWord 0x07) s = .txGap := by
      rw [firstPhase, if_neg (by decide), if_neg (by decide), if_pos (by decide)]
      exact if_pos ⟨h1, h2, h3, h4, ho⟩
    exact ⟨rfl, rfl, hfirst.symm, rfl, rfl, .inr ⟨rfl, _, rfl, rfl⟩⟩
  | judges b eF out hj =>
    rcases hj with ⟨hq, -⟩ | ⟨hq, -⟩ | ⟨hq, -⟩ <;> simp [hp] at hq
  | lays bs hd hi => exact absurd (encode_decodeCmd w) (hi w)
  | ends _ _ hq | gapFails hq | gapEnds hq | sends _ hq | sendEnds _ _ _ hq | sendTurns _ hq => simp [hp] at hq
  | receives _ hq | receiveEnds _ _ _ hq | receiveTurns _ hq => simp [hp] at hq

/-- An idle block out of reset, with no input changing, accepts the CMD write that has come. -/
theorem nextTurn_of_cmdWrite {s : State} {v : Word} {e : EnvEvent} {rest : List EnvEvent} (he : s.env = e :: rest)
    (ha : e.act = .write 0x000 .b4 v) (hp : s.phase = .idle) (hr : s.rst = false)
    (ht : isTimed s = true → e.time ≤ s.now) (hrd : resetDue s = none) (hld : lineDue s = none) : nextTurn s = .accept v := by
  have hdue : hostDue s = some e := by
    have := (isDue_iff e.time s).2 ht
    simp [hostDue, nextHost, he, ha, Option.filter, this]
  have hturn : hostTurn e.act s = .accept v := by
    have hreg : regAt 0x000 = .cmd := rfl
    have hadm : admitted 0x000 .b4 = true := rfl
    simp only [ha, hostTurn, hr, (not_busy_iff s).2 hp, hadm, hreg]
    rfl
  refine nextTurn_of_now ?_
  simp only [turnNow_of_inputs hrd hld, hostOrSequencer, hdue, sequencerTurn_of_idle hp, hturn, yieldTo]

theorem wordOpcode_eq (v : Word) : wordOpcode v = BitVec.ofNat 8 v.toNat := by
  apply BitVec.eq_of_toNat_eq
  simp [wordOpcode]

/-- Settles O6: the acceptance of the command its word selects. -/
theorem cmdWriteIsAcceptedInItsStep : Obligations.CmdWriteIsAcceptedInItsStep := by
  unfold Obligations.CmdWriteIsAcceptedInItsStep
  intro s v
  refine ⟨fun e rest he ha hp hr ht hrd hld => ⟨nextTurn_of_cmdWrite he ha hp hr ht hrd hld, ?_⟩, fun hturn => ?_⟩
  · rw [atHost_of_inputs hrd hld, he]; rfl
  · obtain ⟨hp, hr⟩ := nextTurn_accept hturn
    have hq : (atHost s).phase = .idle := by simpa using hp
    obtain ⟨t, ht⟩ := exec_of_idle hq (encode_decodeCmd v)
    have hu := exec_untouched _ ht
    have hfirst : firstPhase v (atHost s) = firstPhase v s := by rw [atHost_eq]; rfl
    obtain ⟨hlatch, hstatus, hphase, hopen, hregs, hmem⟩ := (exec_effect ht).accepted hq
    rw [hfirst] at hphase
    refine ⟨(not_busy_iff s).2 hp, hr, t, by simp only [step, hturn, ht], ht, by simpa [latchArgs] using hlatch,
      (busy_iff t).2 (hphase ▸ firstPhase_ne_idle v s), hphase, ?_, by simpa using hopen,
      by simpa using hu.env, by simpa using hu.now, by simpa using hregs, ?_, ?_⟩
    · rw [hstatus, acceptedStatus, wordOpcode_eq]; simp
    · intro hv
      rcases hmem with h | ⟨h, -⟩
      · simpa using h
      · exact absurd h hv
    · intro a hne
      rcases hmem with h | ⟨-, bs, hl, h⟩ <;> rw [h]
      · rw [atHost_mem]
      · rw [atHost_mem, Memory.read_writeCells_other]
        exact fun j hj => hne j (hl ▸ hj)

end Sys2Proof.Machine
end

section
/-! PROOFS. The register map: the value of every register at its offset, what a host write does to it, and what a host
read returns. -/

namespace Sys2Proof.Machine

/-! The map (R23). -/

/-- Above the single registers lie the three buffers and the reserved offsets. -/
theorem regAt_high {off : BitVec 12} (h : 0x05C ≤ off.toNat) :
    regAt off =
      if 0x100 ≤ off.toNat ∧ off.toNat < 0x500 then .txbuf ((off.toNat - 0x100) / 4)
      else if 0x500 ≤ off.toNat ∧ off.toNat < 0x900 then .rxbuf ((off.toNat - 0x500) / 4)
      else if 0x900 ≤ off.toNat ∧ off.toNat < 0xAF4 then .result ((off.toNat - 0x900) / 4)
      else .reserved := by
  unfold regAt
  simp only
  iterate 23 rw [if_neg (by omega)]

theorem regAt_of_txbuf {off : BitVec 12} {i : Nat} (hi : i < 256) (h : off.toNat = 0x100 + 4 * i) :
    regAt off = .txbuf i := by
  rw [regAt_high (by omega), if_pos (by omega)]
  congr 1; omega

theorem regAt_of_rxbuf {off : BitVec 12} {i : Nat} (hi : i < 256) (h : off.toNat = 0x500 + 4 * i) :
    regAt off = .rxbuf i := by
  rw [regAt_high (by omega), if_neg (by omega), if_pos (by omega)]
  congr 1; omega

/-- TXBUF and RXBUF lie next to each other: 512 byte cells from 0x100 on. -/
theorem regAt_of_buffer {off : BitVec 12} {i : Nat} (hi : i < 512) (h : off.toNat = 0x100 + 4 * i) :
    (regAt off = .txbuf i ∧ 0x100 + 4 * i = txAddr i) ∨
      (regAt off = .rxbuf (i - 256) ∧ 0x100 + 4 * i = rxAddr (i - 256)) := by
  by_cases hx : i < 256
  · exact .inl ⟨regAt_of_txbuf hx h, rfl⟩
  · exact .inr ⟨regAt_of_rxbuf (by omega) (by omega), by simp only [rxAddr]; omega⟩

theorem regAt_of_result {off : BitVec 12} {i : Nat} (hi : i < 125) (h : off.toNat = 0x900 + 4 * i) :
    regAt off = .result i := by
  rw [regAt_high (by omega), if_neg (by omega), if_neg (by omega), if_pos (by omega)]
  congr 1; omega

theorem regAt_of_reserved {off : BitVec 12} (h : (0x05C ≤ off.toNat ∧ off.toNat < 0x100) ∨ 0xAF4 ≤ off.toNat) :
    regAt off = .reserved := by
  rw [regAt_high (by omega), if_neg (by omega), if_neg (by omega), if_neg (by omega)]

/-- An aligned offset below the buffers is one of the 23 single registers'. -/
theorem aligned_low {off : BitVec 12} (ha : off.toNat % 4 = 0) (h : off.toNat < 0x05C) :
    ∃ k : Fin 23, off = BitVec.ofNat 12 (4 * k) := by
  refine ⟨⟨off.toNat / 4, by omega⟩, BitVec.eq_of_toNat_eq ?_⟩
  simp only [BitVec.toNat_ofNat]
  omega

theorem toNat_offset (k : Fin 23) : (BitVec.ofNat 12 (4 * k)).toNat = 4 * k := by
  rw [BitVec.toNat_ofNat]
  omega

/-! Bit fields as numbers. -/

theorem toNat_append_add {m n : Nat} (x : BitVec m) (y : BitVec n) : (x ++ y).toNat = 2 ^ n * x.toNat + y.toNat := by
  rw [BitVec.toNat_append, ← Nat.shiftLeft_add_eq_or_of_lt y.isLt, Nat.shiftLeft_eq, Nat.mul_comm]

theorem toNat_flagBit (b : Bool) : (flagBit b).toNat = if b = true then 1 else 0 := by cases b <;> rfl

/-- STATUS as a number: each field at its place (R26). -/
theorem statusWord_toNat (s : State) :
    (statusWord s).toNat =
      0x1000000 * s.status.excCode.toNat + 0x10000 * s.status.lastOp.toNat + 0x1000 * s.status.code.toNat +
        0x100 * s.status.cls.toNat + 8 * (flagBit s.status.reject).toNat + 4 * (flagBit s.port.isOpen).toNat +
        2 * (flagBit s.status.done).toNat + (flagBit (busy s)).toNat := by
  simp only [statusWord, toNat_append_add, BitVec.toNat_ofNat]
  omega

/-- A bit of STATUS. -/
theorem getLsbD_eq_of_toNat {w : Word} {k : Nat} {b : Bool} (h : w.toNat / 2 ^ k % 2 = (flagBit b).toNat) :
    w.getLsbD k = b := by
  rw [BitVec.getLsbD, Nat.testBit_eq_decide_div_mod_eq, h, toNat_flagBit]
  cases b <;> rfl

/-- A field of STATUS. -/
theorem extractLsb'_eq_of_toNat {w : Word} {k n : Nat} {x : BitVec n} (h : w.toNat / 2 ^ k % 2 ^ n = x.toNat) :
    w.extractLsb' k n = x := by
  apply BitVec.eq_of_toNat_eq
  rw [BitVec.extractLsb'_toNat, Nat.shiftRight_eq_div_pow, h]

theorem flagBit_lt (b : Bool) : (flagBit b).toNat < 2 := (flagBit b).isLt

/-- Every field of STATUS at its bits, the reserved ones 0 (R26). -/
theorem statusWord_fields (s : State) :
    let w := statusWord s
    w.getLsbD 0 = busy s ∧ w.getLsbD 1 = s.status.done ∧ w.getLsbD 2 = s.port.isOpen ∧ w.getLsbD 3 = s.status.reject ∧
      w.extractLsb' 4 4 = 0 ∧ w.extractLsb' 8 2 = s.status.cls ∧ w.extractLsb' 10 2 = 0 ∧
      w.extractLsb' 12 4 = s.status.code ∧ w.extractLsb' 16 8 = s.status.lastOp ∧
      w.extractLsb' 24 8 = s.status.excCode := by
  have hw := statusWord_toNat s
  have h1 := s.status.excCode.isLt
  have h2 := s.status.lastOp.isLt
  have h3 := s.status.code.isLt
  have h4 := s.status.cls.isLt
  have h5 := flagBit_lt s.status.reject
  have h6 := flagBit_lt s.port.isOpen
  have h7 := flagBit_lt s.status.done
  have h8 := flagBit_lt (busy s)
  have h9 : (0 : BitVec 4).toNat = 0 := rfl
  have h10 : (0 : BitVec 2).toNat = 0 := rfl
  refine ⟨?_, ?_, ?_, ?_, ?_, ?_, ?_, ?_, ?_, ?_⟩
  iterate 4 exact getLsbD_eq_of_toNat (by omega)
  iterate 6 exact extractLsb'_eq_of_toNat (by omega)

/-- A field narrower than a word reads as its value. -/
theorem some_toNat_setWidth {n : Nat} (x : BitVec n) (h : n ≤ 32) :
    (some (x.setWidth 32)).map BitVec.toNat = some x.toNat := by
  rw [Option.map_some, BitVec.toNat_setWidth_of_le h]

/-- A buffer's cell reads as its value, where it has one. -/
theorem map_toNat_setWidth {n : Nat} (o : Option (BitVec n)) (h : n ≤ 32) :
    (o.map fun x => x.setWidth 32).map BitVec.toNat = o.map BitVec.toNat := by
  cases o with
  | none => rfl
  | some x => exact some_toNat_setWidth x h

/-- Settles O44: the map's row of each register. -/
theorem registerReadsShowTheirFields : Obligations.RegisterReadsShowTheirFields := by
  unfold Obligations.RegisterReadsShowTheirFields
  intro s
  refine ⟨⟨_, rfl, statusWord_fields s⟩, rfl, rfl, some_toNat_setWidth _ (by decide), some_toNat_setWidth _ (by decide),
    some_toNat_setWidth _ (by decide), some_toNat_setWidth _ (by decide), some_toNat_setWidth _ (by decide),
    some_toNat_setWidth _ (by decide), some_toNat_setWidth _ (by decide), some_toNat_setWidth _ (by decide),
    some_toNat_setWidth _ (by decide), some_toNat_setWidth _ (by decide), some_toNat_setWidth _ (by decide),
    some_toNat_setWidth _ (by decide), ?_, rfl, rfl, some_toNat_setWidth _ (by decide), ?_, rfl, rfl, ?_, ?_, ?_, ?_⟩
  · exact congrArg some (toNat_append_add s.regs.diagRecv s.regs.diagCalc)
  · refine (some_toNat_setWidth _ (by decide)).trans (congrArg some ?_)
    rw [toNat_append_add, toNat_flagBit, toNat_flagBit]
    cases s.regs.scale.kind <;> rfl
  · exact (some_toNat_setWidth _ (by decide)).trans (congrArg some (toNat_flagBit _))
  · intro off h
    change (regValue (regAt off) s).map BitVec.toNat = some 0
    rw [regAt_of_reserved h]; rfl
  · intro off i hi h
    change (regValue (regAt off) s).map BitVec.toNat = _
    rcases regAt_of_buffer hi h with ⟨hr, ha⟩ | ⟨hr, ha⟩ <;> rw [hr, ha] <;> exact map_toNat_setWidth _ (by decide)
  · intro off i hi h
    change (regValue (regAt off) s).map BitVec.toNat = _
    rw [regAt_of_result hi h]
    exact map_toNat_setWidth _ (by decide)

/-! Host writes. -/

/-- A byte of a written word. -/
theorem setWidth_eq_ofNat (n : Nat) (v : Word) : v.setWidth n = BitVec.ofNat n v.toNat := by simp

theorem writeCfg_rejected {s : State} (h : s.port.isOpen = true ∨ busy s = true) (q : Regs) :
    writeCfg q s = setReject s :=
  if_pos (by simpa using h)

theorem writeCfg_effective {s : State} (ho : s.port.isOpen = false) (hb : busy s = false) (q : Regs) :
    writeCfg q s = { s with regs := q } :=
  if_neg (by simp [ho, hb])

/-- A TXBUF or RXBUF cell is written at its offset. -/
theorem hostWrite_buffer {off : BitVec 12} {i : Nat} (hi : i < 512) (h : off.toNat = 0x100 + 4 * i) (v : Word)
    (s : State) : hostWrite (regAt off) v s = writeBuffer (0x100 + 4 * i) v s := by
  rcases regAt_of_buffer hi h with ⟨hr, ha⟩ | ⟨hr, ha⟩ <;> rw [hr, ha] <;> rfl

/-- Settles O46: CFG_* by whether the block is closed and idle, TXBUF and RXBUF by whether it is idle. -/
theorem discardedWritesSetReject : Obligations.DiscardedWritesSetReject := by
  unfold Obligations.DiscardedWritesSetReject
  intro s v hr
  refine ⟨fun hc off hoff => ?_, fun ho hb => ?_, fun off i hi hoff => ⟨fun hb => ?_, fun hb => ?_⟩⟩
  · have hj := writeCfg_rejected hc
    rcases hoff with rfl | rfl | rfl | rfl <;> rw [hostStep_write rfl hr] <;> exact congrArg _ (hj _)
  · have he := writeCfg_effective ho hb
    rw [← setWidth_eq_ofNat 8 v, ← setWidth_eq_ofNat 16 v]
    refine ⟨?_, ?_, ?_, ?_⟩ <;> rw [hostStep_write rfl hr] <;> exact congrArg _ (he _)
  · rw [hostStep_write (by omega) hr, hostWrite_buffer hi hoff, writeBuffer, if_pos hb]; rfl
  · rw [hostStep_write (by omega) hr, hostWrite_buffer hi hoff, writeBuffer, if_neg (by simp [hb])]
    refine ⟨_, rfl, rfl, ?_, fun a ha => ?_⟩
    · rw [← setWidth_eq_ofNat]; exact Memory.read_write_same _ _ _
    · exact Memory.read_write_other _ _ ha

/-- The registers that take no write (R24). -/
def isReadOnly : Reg → Bool
  | .crcAcc | .rxLen | .resultCount | .diagCrc | .scaleX100 | .scaleInt | .scaleFrac | .scaleFlags | .scaleF64Lo
  | .scaleF64Hi | .line | .result _ | .reserved => true
  | _ => false

theorem hostWrite_of_readOnly {r : Reg} (h : isReadOnly r = true) (v : Word) (s : State) : hostWrite r v s = s := by
  cases r with
  | crcAcc | rxLen | resultCount | diagCrc | scaleX100 | scaleInt | scaleFrac | scaleFlags => rfl
  | scaleF64Lo | scaleF64Hi | line | result | reserved => rfl
  | _ => cases h

theorem isReadOnly_low : ∀ k : Fin 23, 12 ≤ (k : Nat) → isReadOnly (regAt (BitVec.ofNat 12 (4 * k))) = true := by decide

/-- From CRC_ACC to LINE, and from RESULT on, no register takes a write. -/
theorem isReadOnly_regAt {off : BitVec 12} (ha : off.toNat % 4 = 0)
    (h : (0x030 ≤ off.toNat ∧ off.toNat < 0x100) ∨ 0x900 ≤ off.toNat) : isReadOnly (regAt off) = true := by
  by_cases hx : 0x05C ≤ off.toNat
  · rw [regAt_high hx, if_neg (by omega), if_neg (by omega)]
    split <;> rfl
  · obtain ⟨k, rfl⟩ := aligned_low ha (not_le.1 hx)
    rw [toNat_offset] at h
    exact isReadOnly_low k (by omega)

theorem getLsbD_three (v : Word) : v.getLsbD 3 = true ↔ v.toNat / 8 % 2 = 1 := by
  rw [BitVec.getLsbD, Nat.testBit_eq_decide_div_mod_eq, decide_eq_true_iff]

/-- Settles O47: ARG_* at any time, nothing at a read-only or reserved offset, REJECT by STATUS bit 3. -/
theorem registerWritesTakeTheirEffect : Obligations.RegisterWritesTakeTheirEffect := by
  unfold Obligations.RegisterWritesTakeTheirEffect
  intro s v hr
  rw [← setWidth_eq_ofNat 8 v, ← setWidth_eq_ofNat 16 v]
  refine ⟨?_, ?_, ?_, ?_, ?_, ?_, fun off ha h => ?_, ?_⟩
  iterate 6 exact hostStep_write rfl hr v
  · rw [hostStep_write ha hr, hostWrite_of_readOnly (isReadOnly_regAt ha h)]
  · rw [hostStep_write rfl hr]
    exact congrArg _ (if_congr (getLsbD_three v) rfl rfl)

/-! Host reads. -/

/-- The offsets whose reads draw while the block is busy: the result registers and the buffers (R52). -/
def isDrawn (o : Nat) : Prop := (0x030 ≤ o ∧ o < 0x058) ∨ (0x100 ≤ o ∧ o < 0xAF4)

/-- The width of the field there. -/
def widthAt (o : Nat) : Nat :=
  if o = 0x030 then 16 else if o = 0x034 then 9 else if o = 0x038 then 8
  else if o = 0x048 then 7 else if o = 0x04C then 2 else if o < 0x100 then 32
  else if o < 0x900 then 8 else 16

theorem drawWidth_low : ∀ k : Fin 23, drawWidth (regAt (BitVec.ofNat 12 (4 * k))) =
    if 12 ≤ (k : Nat) ∧ (k : Nat) < 22 then some (widthAt (4 * k)) else none := by decide

/-- A read draws exactly at the offsets R52 names, with the width of the field there. -/
theorem drawWidth_regAt {off : BitVec 12} (ha : off.toNat % 4 = 0) :
    (isDrawn off.toNat → drawWidth (regAt off) = some (widthAt off.toNat)) ∧
      (¬ isDrawn off.toNat → drawWidth (regAt off) = none) := by
  unfold isDrawn
  by_cases hx : 0x05C ≤ off.toNat
  · have hw : widthAt off.toNat = if off.toNat < 0x100 then 32 else if off.toNat < 0x900 then 8 else 16 := by
      unfold widthAt
      iterate 5 rw [if_neg (by omega)]
    rw [regAt_high hx, hw]
    split
    · rw [if_neg (by omega), if_pos (by omega)]; exact ⟨fun _ => rfl, fun h => by omega⟩
    · split
      · rw [if_neg (by omega), if_pos (by omega)]; exact ⟨fun _ => rfl, fun h => by omega⟩
      · split
        · rw [if_neg (by omega), if_neg (by omega)]; exact ⟨fun _ => rfl, fun h => by omega⟩
        · exact ⟨fun h => by omega, fun _ => rfl⟩
  · obtain ⟨k, rfl⟩ := aligned_low ha (not_le.1 hx)
    rw [drawWidth_low, toNat_offset]
    exact ⟨fun h => if_pos (by omega), fun h => if_neg (by omega)⟩

/-- The width a register draws is the width of its field (R24). -/
theorem regValue_lt {r : Reg} {s : State} {v : Word} {n : Nat} (hv : regValue r s = some v)
    (hn : drawWidth r = some n) : v.toNat < 2 ^ n := by
  have narrow : ∀ {m : Nat} {x : BitVec m}, some (x.setWidth 32) = some v → v.toNat < 2 ^ m := by
    intro m x h
    cases h
    rw [BitVec.toNat_setWidth]
    exact lt_of_le_of_lt (Nat.mod_le _ _) x.isLt
  cases r with
  | crcAcc | rxLen | resultCount | scaleFrac | scaleFlags => cases hn; exact narrow hv
  | diagCrc | scaleX100 | scaleInt | scaleF64Lo | scaleF64Hi => cases hn; exact v.isLt
  | txbuf i | rxbuf i | result i =>
    obtain ⟨b, -, rfl⟩ := Option.map_eq_some_iff.1 hv
    cases hn; exact narrow rfl
  | _ => cases hn

theorem drawWidth_le {r : Reg} {n : Nat} (h : drawWidth r = some n) : n ≤ 32 := by
  cases r <;> cases h <;> decide

/-- A draw fits the field it is cut to (R52). -/
theorem drawValue_lt {n : Nat} (h : n ≤ 32) (s : State) : (drawValue n s).toNat < 2 ^ n := by
  have hle : 2 ^ n ≤ 2 ^ 32 := Nat.pow_le_pow_right (by decide) h
  have hpos : 0 < 2 ^ n := Nat.two_pow_pos n
  rw [drawValue, BitVec.toNat_and, BitVec.toNat_ofNat, Nat.mod_eq_of_lt (by omega)]
  exact lt_of_le_of_lt Nat.and_le_right (by omega)

/-- A read that does not draw returns the register's value. -/
theorem hostRead_plain {off : BitVec 12} {s : State} {v : Word} (hv : regValue (regAt off) s = some v)
    (h : busy s = false ∨ drawWidth (regAt off) = none) : hostRead off s = .next (logRead off v s) := by
  unfold hostRead
  rw [hv]
  rcases h with h | h
  · cases drawWidth (regAt off) <;> simp [h]
  · rw [h]

/-- A read that draws returns the next draw. -/
theorem hostRead_drawn {off : BitVec 12} {s : State} {v : Word} {n : Nat} (hv : regValue (regAt off) s = some v)
    (hb : busy s = true) (h : drawWidth (regAt off) = some n) :
    hostRead off s = .next (logRead off (drawValue n s) { s with draws := s.draws + 1 }) := by
  unfold hostRead
  rw [hv, h]
  exact if_pos hb

/-- Settles O48: a read of a busy block draws at the offsets of R52, and every other read shows the register. -/
theorem hostReadsHaveNoSideEffect : Obligations.HostReadsHaveNoSideEffect := by
  unfold Obligations.HostReadsHaveNoSideEffect
  intro s off ha hne
  obtain ⟨v, hv⟩ := Option.ne_none_iff_exists'.1 hne
  obtain ⟨hw, hw'⟩ := drawWidth_regAt ha
  have hread : hostStep (.read off .b4) s = hostRead off s := if_pos (admitted_b4 ha)
  rw [hread]
  by_cases hd : busy s = true ∧ isDrawn off.toNat
  · obtain ⟨hb, hd⟩ := hd
    refine ⟨_, _, hostRead_drawn hv hb (hw hd), rfl, fun h => ?_, fun _ _ => ⟨rfl, rfl⟩, fun _ => ?_⟩
    · rcases h with h | h
      · simp [hb] at h
      · exact absurd hd h
    · exact drawValue_lt (drawWidth_le (hw hd)) s
  · have hplain : busy s = false ∨ drawWidth (regAt off) = none := by
      by_cases hb : busy s = true
      · exact .inr (hw' fun h => hd ⟨hb, h⟩)
      · exact .inl (by simpa using hb)
    refine ⟨_, v, hostRead_plain hv hplain, rfl, fun _ => ⟨hv, rfl⟩, fun hb h => absurd ⟨hb, h⟩ hd, fun h => ?_⟩
    exact regValue_lt hv (hw h)

end Sys2Proof.Machine
end

section
/-! PROOFS. The cells never written: which use of one stops the machine, in a decode and in a transmission (R50). -/

namespace Sys2Proof.Machine

/-! Reading cells. -/

theorem getD_readCells {m : Memory} {a n i : Nat} (h : i < n) :
    (Memory.readCells m a n).getD i none = Memory.read m (a + 4 * i) := by
  simp [Memory.readCells_eq, h]

theorem mem_readCells {m : Memory} {a n : Nat} {c : Option Byte} :
    c ∈ Memory.readCells m a n ↔ ∃ i, i < n ∧ Memory.read m (a + 4 * i) = c := by
  simp [Memory.readCells_eq]

theorem allWritten_eq_none {l : List (Option Byte)} (h : none ∈ l) : allWritten l = none := by
  rw [Option.eq_none_iff_forall_ne_some]
  intro bs hb
  rw [allWritten_eq_some hb] at h
  simp at h

/-- Cells that all hold a byte are the cells of some bytes. -/
theorem eq_map_some {l : List (Option Byte)} (h : none ∉ l) : ∃ bs : List Byte, l = bs.map some := by
  induction l with
  | nil => exact ⟨[], rfl⟩
  | cons c l ih =>
    obtain ⟨hc, hl⟩ := not_or.1 (fun h' => h (List.mem_cons.2 h'))
    obtain ⟨bs, rfl⟩ := ih hl
    obtain ⟨b, rfl⟩ := Option.ne_none_iff_exists'.1 (Ne.symm hc)
    exact ⟨b :: bs, rfl⟩

/-- The first unwritten cell comes no later than any unwritten one, and everything before it is written. -/
theorem firstUnwritten_readCells (m : Memory) (n : Nat) :
    ∀ (a g : Nat), g < n → Memory.read m (a + 4 * g) = none →
      ∃ j, j ≤ g ∧ Memory.read m (a + 4 * j) = none ∧ (∀ i, i < j → Memory.read m (a + 4 * i) ≠ none) ∧
        firstUnwritten (Memory.readCells m a n) a = a + 4 * j := by
  induction n with
  | zero => intro a g hg; omega
  | succ n ih =>
    intro a g hg hr
    rw [Memory.readCells]
    cases h0 : Memory.read m a with
    | none => exact ⟨0, by omega, by simpa using h0, by omega, rfl⟩
    | some b =>
      obtain ⟨g, rfl⟩ : ∃ k, g = k + 1 := Nat.exists_eq_succ_of_ne_zero (by rintro rfl; simp [h0] at hr)
      have shift : ∀ k, a + 4 * (k + 1) = a + 4 + 4 * k := fun k => by omega
      rw [shift] at hr
      obtain ⟨j, hj, hn, hw, hf⟩ := ih (a + 4) g (by omega) hr
      refine ⟨j + 1, by omega, by rw [shift, hn], fun i hi => ?_, by rw [shift]; exact hf⟩
      cases i with
      | zero => simp [h0]
      | succ i => rw [shift]; exact hw i (by omega)

/-! The decode function on cells (R155). -/

theorem getLsbD_seven (b : Byte) : b.getLsbD 7 = false ↔ b.toNat < 128 := by
  have := b.isLt
  rw [BitVec.getLsbD, Nat.testBit_eq_decide_div_mod_eq, decide_eq_false_iff_not]
  omega

/-- D1: no cell is used. -/
theorem decodeCells_short {b : List (Option Byte)} (h : b.length < 5) (eS eF : Byte) (eC : Half) :
    decodeCells b eS eF eC = some { diag := none, res := .error .truncated } := if_pos h

/-- D2: byte 1 alone is used. -/
theorem decodeCells_truncated {b : List (Option Byte)} {b1 : Byte} {eC : Half} (h5 : 5 ≤ b.length)
    (h1 : b.getD 1 none = some b1) (hb : b1.toNat < 128) (hl : b.length < 5 + 2 * eC.toNat) (eS eF : Byte) :
    decodeCells b eS eF eC = some { diag := none, res := .error .truncated } := by
  unfold decodeCells
  rw [if_neg (by omega), h1]
  exact if_pos ⟨(getLsbD_seven b1).2 hb, hl⟩

/-- A decode that D1 and D2 do not end has no answer where a cell is unwritten. -/
theorem decodeCells_unwritten {b : List (Option Byte)} {eC : Half} (h5 : 5 ≤ b.length) (hn : none ∈ b)
    (h1 : b.getD 1 none = none ∨ ∃ b1, b.getD 1 none = some b1 ∧ (128 ≤ b1.toNat ∨ 5 + 2 * eC.toNat ≤ b.length))
    (eS eF : Byte) : decodeCells b eS eF eC = none := by
  unfold decodeCells
  rw [if_neg (by omega)]
  rcases h1 with h1 | ⟨b1, h1, hb⟩
  · rw [h1]
  · rw [h1]
    simp only [getLsbD_seven, allWritten_eq_none hn]
    exact if_neg (by omega)

/-- A decode ended by D1 or D2 gives Truncated and leaves the buffers alone (R155, R157). -/
theorem finishDecode_truncated (s : State) :
    let t := finishDecode { diag := none, res := .error .truncated } s
    completesAs (.protocol .truncated) s t ∧ t.regs.resultCount = 0 ∧ keepsMem s t :=
  ⟨complete_completesAs _ rfl, rfl, fun _ => rfl⟩

/-- DECODE_RESP of at most 256 bytes decodes RXBUF[0..LEN-1]. -/
theorem exec_decodeResp {s : State} (hp : s.phase = .exec) (hl : s.latch.len.toNat ≤ 256) :
    exec .decodeResp s = decodeAndFinish (Memory.readCells s.mem (rxAddr 0) s.latch.len.toNat) s.latch.func s := by
  simp only [exec, execDecodeResp, plainCommand, hp, (not_lenTooBig_iff _).2 hl]
  rfl

theorem decodeAndFinish_some {b : List (Option Byte)} {eF : Byte} {s : State} {out : DecodeOut}
    (h : decodeCells b s.latch.slave eF s.latch.count = some out) :
    decodeAndFinish b eF s = .next (finishDecode out s) := by
  rw [decodeAndFinish, h]

theorem decodeAndFinish_none {b : List (Option Byte)} {eF : Byte} {s : State}
    (h : decodeCells b s.latch.slave eF s.latch.count = none) :
    decodeAndFinish b eF s = .fault (.unwrittenCell (firstUnwritten b (rxAddr 0))) := by
  rw [decodeAndFinish, h]

/-! A transmission on an unwritten cell (R114, R119). -/

theorem sendNext_unwritten {s : State} (h : Memory.read s.mem (txAddr s.port.txK) = none) :
    sendNext s = .error (.unwrittenCell (txAddr s.port.txK)) := by
  rw [sendNext, h]

theorem cutOff_unwritten {s : State} (h : Memory.read s.mem (txAddr s.port.txK) = none)
    (hc : charInProgress s = true) : cutOff s = .error (.unwrittenCell (txAddr s.port.txK)) := by
  rw [cutOff, if_pos hc, h]

/-- A fault of the transmit engine stops the command that sends. -/
theorem exec_of_txStep_error {i : Instr} {s : State} {f : Fault} (hi : i = .writeBytes ∨ i = .readInputRegs)
    (hp : s.phase = .tx) (h : txStep s = .error f) : exec i s = .fault f := by
  rcases hi with rfl | rfl
  · simp only [exec, execWriteBytes, hp, h]
  · simp only [exec, execReadInputRegs, hp, h]

/-- Timed: the character is due, the line holding. -/
theorem txStep_timed_unwritten {s : State} (h : Memory.read s.mem (txAddr s.port.txK) = none) (ht : isTimed s = true)
    (hl : s.line.present = true) (hd : txCharEnd s ≤ s.port.deadline) :
    txStep s = .error (.unwrittenCell (txAddr s.port.txK)) := by
  simp [txStep, ht, hl, (txInTime_iff s).2 hd, sendNext_unwritten h]

/-- Timed: the line fails in the middle of the character. -/
theorem txStep_cut_unwritten {s : State} (h : Memory.read s.mem (txAddr s.port.txK) = none) (ht : isTimed s = true)
    (hl : s.line.present = false) (hd : txCharEnd s ≤ s.port.deadline) (hs : txCharStart s < s.now) :
    txStep s = .error (.unwrittenCell (txAddr s.port.txK)) := by
  simp [txStep, ht, hl, cutOff_unwritten h ((charInProgress_iff ht).2 ⟨hd, hs⟩), Except.map]

/-- Untimed: the line chooses that the character is sent, or that it is cut off. -/
theorem txStep_untimed_unwritten {s : State} (h : Memory.read s.mem (txAddr s.port.txK) = none) (ht : isTimed s = false)
    (hc : s.port.txK < txLimit s ∨ txChosenCut s = true) :
    txStep s = .error (.unwrittenCell (txAddr s.port.txK)) := by
  rw [txStep, if_pos ht, txChosen]
  split
  · rw [sendNext_unwritten h]; rfl
  · rename_i hk
    have hcut : charInProgress s = true := by simp [charInProgress, ht, hc.resolve_left hk]
    rw [cutOff_unwritten h hcut]; rfl

theorem txTotal_eq (l : Latch) : txTotal l = if l.op = 0x00000007 then 8 else l.len.toNat := by
  simp only [txTotal, isRir_iff]

/-! DECODE_RESP by the cells it uses. -/

/-- The cells DECODE_RESP is given (R155). -/
def respCells (s : State) : List (Option Byte) := Memory.readCells s.mem (rxAddr 0) s.latch.len.toNat

theorem respCells_length (s : State) : (respCells s).length = s.latch.len.toNat := Memory.readCells_length _ _ _

theorem respCells_one {s : State} (h : 5 ≤ s.latch.len.toNat) :
    (respCells s).getD 1 none = Memory.read s.mem (0x500 + 4 * 1) := getD_readCells (by omega)

/-- A decode that D1 or D2 ends completes with Truncated, whatever other cells are unwritten. -/
theorem decodeResp_truncates {s : State} (hp : s.phase = .exec) (hl : s.latch.len.toNat ≤ 256)
    (h : decodeCells (respCells s) s.latch.slave s.latch.func s.latch.count =
      some { diag := none, res := .error .truncated }) :
    ∃ t, exec .decodeResp s = .next t ∧ completesAs (.protocol .truncated) s t ∧ t.regs.resultCount = 0 ∧
      keepsMem s t :=
  ⟨_, (exec_decodeResp hp hl).trans (decodeAndFinish_some h), finishDecode_truncated s⟩

/-- A decode that D1 and D2 do not end stops on its first unwritten cell. -/
theorem decodeResp_stops {s : State} {g : Nat} (hp : s.phase = .exec) (hl : s.latch.len.toNat ≤ 256)
    (h5 : 5 ≤ s.latch.len.toNat) (hg : g < s.latch.len.toNat) (hr : Memory.read s.mem (0x500 + 4 * g) = none)
    (h1 : Memory.read s.mem (0x500 + 4 * 1) = none ∨ ∃ b1, Memory.read s.mem (0x500 + 4 * 1) = some b1 ∧
      (128 ≤ b1.toNat ∨ 5 + 2 * s.latch.count.toNat ≤ s.latch.len.toNat)) :
    ∃ j, j ≤ g ∧ Memory.read s.mem (0x500 + 4 * j) = none ∧ (∀ i, i < j → Memory.read s.mem (0x500 + 4 * i) ≠ none) ∧
      exec .decodeResp s = .fault (.unwrittenCell (0x500 + 4 * j)) := by
  obtain ⟨j, hj, hn, hw, hf⟩ := firstUnwritten_readCells s.mem _ 0x500 g hg hr
  have hnone : none ∈ respCells s := mem_readCells.2 ⟨g, hg, hr⟩
  rw [← respCells_one h5, ← respCells_length] at h1
  rw [← respCells_length] at h5
  have hstop := decodeAndFinish_none (decodeCells_unwritten h5 hnone h1 s.latch.slave s.latch.func)
  exact ⟨j, hj, hn, hw, (exec_decodeResp hp hl).trans (hstop.trans (by rw [← hf]; rfl))⟩

/-- On written cells DECODE_RESP answers. -/
theorem decodeResp_answers {s : State} (hp : s.phase = .exec) (hl : s.latch.len.toNat ≤ 256)
    (h : ∀ i, i < s.latch.len.toNat → Memory.read s.mem (0x500 + 4 * i) ≠ none) :
    ∃ t, exec .decodeResp s = .next t := by
  have hw : none ∉ respCells s := fun hn => by
    obtain ⟨i, hi, hr⟩ := mem_readCells.1 hn
    exact h i hi hr
  obtain ⟨bs, hbs⟩ := eq_map_some hw
  have hsome := decodeCells_written bs s.latch.slave s.latch.func s.latch.count
  obtain ⟨out, ho⟩ := Option.isSome_iff_exists.1 hsome
  rw [← hbs] at ho
  exact ⟨_, (exec_decodeResp hp hl).trans (decodeAndFinish_some ho)⟩

/-- Settles O29: a decode by the steps that end it, a transmission by what the line does to the character. -/
theorem unwrittenCellStopsItsUse : Obligations.UnwrittenCellStopsItsUse := by
  unfold Obligations.UnwrittenCellStopsItsUse
  intro s len expected cell truncates sk ek n ended stops
  refine ⟨fun hp hl => ⟨fun hs => ?_, fun b1 h5 h1 hb he => ?_, fun g h5 hg hr h1 => decodeResp_stops hp hl h5 hg hr h1,
    decodeResp_answers hp hl⟩, fun i hi hp hr => ?_⟩
  · exact decodeResp_truncates hp hl (decodeCells_short (by rw [respCells_length]; exact hs) _ _ _)
  · have hlen : (respCells s).length = len := respCells_length s
    exact decodeResp_truncates hp hl
      (decodeCells_truncated (h5.trans hlen.ge) ((respCells_one h5).trans h1) hb (hlen.trans_lt he) _ _)
  · have hstop : txStep s = .error (.unwrittenCell (txAddr s.port.txK)) → stops i := exec_of_txStep_error hi hp
    have hn : n = txTotal s.latch := (txTotal_eq _).symm
    refine ⟨fun ht hl hd => ?_, fun ht hl hd hs => ?_, fun ht hc hk => ?_, fun ht k hc hk => ?_, fun ht k c hc hk => ?_⟩
    · exact hstop (txStep_timed_unwritten hr ht hl ((txCharEnd_timed ht).trans_le hd))
    · exact hstop (txStep_cut_unwritten hr ht hl ((txCharEnd_timed ht).trans_le hd)
        ((txCharStart_timed ht).trans_lt hs))
    · refine hstop (txStep_untimed_unwritten hr ht (.inl ?_))
      rw [hn] at hk
      rcases hc with hc | hc <;> simpa [txLimit, hc] using hk
    · refine hstop (txStep_untimed_unwritten hr ht (.inl ?_))
      simp only [txLimit, hc, lt_min_iff]
      omega
    · refine hstop (txStep_untimed_unwritten hr ht (hk.imp (fun hk => ?_) fun hk => ?_))
      · simp only [txLimit, hc, lt_min_iff]
        omega
      · simp only [txChosenCut, hc, hk]

end Sys2Proof.Machine
end

section
/-! PROOFS. The accesses that stop the model (R72, R50), and the results of a completed command, which neither the
clock, nor the inputs, nor the host change (R80). -/

namespace Sys2Proof.Machine

/-! Refused accesses (R72) and reads of unwritten cells (R50). -/

/-- A narrow or misaligned access is not admitted (R72). -/
theorem not_admitted {off : BitVec 12} {w : Width} (h : w ≠ .b4 ∨ off.toNat % 4 ≠ 0) : admitted off w = false := by
  simpa [admitted, imp_iff_not_or] using h

/-- The aligned offsets from TXBUF to the end of RESULT are the cells of the three buffers (R41 to R43). -/
theorem regAt_of_cell {off : BitVec 12} (ha : off.toNat % 4 = 0) (hl : 0x100 ≤ off.toNat) (hu : off.toNat < 0xAF4) :
    (∃ i, regAt off = .txbuf i ∧ off.toNat = txAddr i) ∨ (∃ i, regAt off = .rxbuf i ∧ off.toNat = rxAddr i) ∨
      ∃ i, regAt off = .result i ∧ off.toNat = resAddr i := by
  by_cases hr : off.toNat < 0x900
  · obtain ⟨i, hi⟩ : ∃ i, off.toNat = 0x100 + 4 * i := ⟨(off.toNat - 0x100) / 4, by omega⟩
    rcases regAt_of_buffer (by omega) hi with ⟨h, he⟩ | ⟨h, he⟩
    · exact .inl ⟨_, h, hi.trans he⟩
    · exact .inr (.inl ⟨_, h, hi.trans he⟩)
  · obtain ⟨i, hi⟩ : ∃ i, off.toNat = 0x900 + 4 * i := ⟨(off.toNat - 0x900) / 4, by omega⟩
    exact .inr (.inr ⟨i, regAt_of_result (by omega) hi, hi⟩)

/-- A RESULT cell has no value where its low byte was never written. -/
theorem readHalf_unwritten {m : Memory} {a : Nat} (h : Memory.read m a = none) : Memory.readHalf m a = none := by
  simp [Memory.readHalf, h]

/-- A cell never written since reset has no value (R50). -/
theorem regValue_unwritten {off : BitVec 12} {s : State} (ha : off.toNat % 4 = 0) (hl : 0x100 ≤ off.toNat)
    (hu : off.toNat < 0xAF4) (hm : Memory.read s.mem off.toNat = none) : regValue (regAt off) s = none := by
  rcases regAt_of_cell ha hl hu with ⟨i, hr, he⟩ | ⟨i, hr, he⟩ | ⟨i, hr, he⟩ <;> rw [he] at hm <;> rw [hr]
  · exact Option.map_eq_none_iff.2 hm
  · exact Option.map_eq_none_iff.2 hm
  · exact Option.map_eq_none_iff.2 (readHalf_unwritten hm)

/-- A read of a register without a value stops the model, busy or not (R50). -/
theorem hostRead_unwritten {off : BitVec 12} {s : State} (h : regValue (regAt off) s = none) :
    hostRead off s = .fault (.unwrittenCell off.toNat) := by
  simp [hostRead, h]

/-- Settles O49: an access is admitted first, and an admitted read needs a value. -/
theorem refusedAccessesStop : Obligations.RefusedAccessesStop := by
  unfold Obligations.RefusedAccessesStop
  intro s off w v
  refine ⟨fun h => ?_, fun ha hl hu hm => ?_⟩
  · simp [hostStep, not_admitted h]
  · have hread : hostStep (.read off .b4) s = hostRead off s := if_pos (admitted_b4 ha)
    rw [hread, hostRead_unwritten (regValue_unwritten ha hl hu hm)]

/-! The results of a completed command (R80). -/

/-- What a completed command has left: the phase, the result registers, STATUS but for REJECT, the transport, and the
cells from RESULT on. -/
def keepsResults (s t : State) : Prop :=
  t.phase = s.phase ∧ keepsResultRegs s.regs t.regs ∧ t.status = { s.status with reject := t.status.reject } ∧
    t.port = s.port ∧ ∀ a, 0x900 ≤ a → Memory.read t.mem a = Memory.read s.mem a

theorem keepsResults_refl (s : State) : keepsResults s s := ⟨rfl, keepsResultRegs_refl _, rfl, rfl, fun _ _ => rfl⟩

/-- What the environment does beside the block matters to no result. -/
theorem SameBlock.keepsResults {s u t : State} (hu : SameBlock s u) (h : keepsResults u t) : keepsResults s t := by
  rw [hu] at h; exact h

/-- TXBUF and RXBUF end below RESULT (R23). -/
theorem writeBuffer_read_result {a c : Nat} (hc : c < 0x900) (ha : 0x900 ≤ a) (v : Word) (s : State) :
    Memory.read (writeBuffer c v s).mem a = Memory.read s.mem a := by
  unfold writeBuffer
  split
  · rfl
  · exact Memory.read_write_other _ _ (by omega)

/-- No host write reaches RESULT (R43). -/
theorem hostWrite_read_result {a : Nat} (ha : 0x900 ≤ a) (off : BitVec 12) (v : Word) (s : State) :
    Memory.read (hostWrite (regAt off) v s).mem a = Memory.read s.mem a := by
  cases hr : regAt off with
  | txbuf i =>
    obtain ⟨-, hi⟩ := regAt_txbuf hr
    exact writeBuffer_read_result (by simp only [txAddr]; omega) ha v s
  | rxbuf i =>
    obtain ⟨-, hi⟩ := regAt_rxbuf hr
    exact writeBuffer_read_result (by simp only [rxAddr]; omega) ha v s
  | cfgBaud | cfgFrame | cfgRtoMs | cfgWtoMs => simp only [hostWrite, writeCfg]; split <;> rfl
  | cmd | status => simp only [hostWrite]; split <;> rfl
  | _ => rfl

/-- A host write that is no acceptance leaves the results alone (R24, R80). -/
theorem hostWrite_keepsResults (off : BitVec 12) (v : Word) (s : State) :
    keepsResults s (hostWrite (regAt off) v s) := by
  have hregs := (hostWrite_regs (regAt off) v s).2
  have hmem := fun a (ha : 0x900 ≤ a) => hostWrite_read_result ha off v s
  obtain ⟨j, q, m, hw⟩ := hostWrite_keeps (regAt off) v s
  rw [hw] at hregs hmem ⊢
  exact ⟨rfl, hregs, rfl, rfl, hmem⟩

/-- An action of the host that is no acceptance leaves the results alone (R74, R80). -/
theorem hostStep_keepsResults {a : EnvAction} {s t : State} (h : hostStep a s = .next t) : keepsResults s t := by
  rcases hostStep_cases h with ⟨off, v, n, rfl⟩ | rfl | ⟨off, v, rfl⟩
  · exact keepsResults_refl s
  · exact keepsResults_refl t
  · exact hostWrite_keepsResults off v s

/-- Releasing `rst` changes no result (R260). -/
theorem resetStep_keepsResults {s t : State} (h : resetStep false s = .next t) : keepsResults s t := by
  cases h; exact keepsResults_refl s

/-- In an idle block only an acceptance and the assertion of `rst` can change the results (R80). -/
theorem step_keepsResults {s t : State} (h : step s = .next t) (hb : busy s = false)
    (ha : ∀ v, nextTurn s ≠ .accept v) (hr : nextTurn s ≠ .reset true) : keepsResults s t := by
  rcases step_cases h with ⟨-, rfl⟩ | ⟨tm, -, -, rfl⟩ | ⟨level, ht, h⟩ | ⟨level, -, rfl⟩ | ⟨v, ht, -⟩ | ⟨a, -, h⟩ |
    ⟨-, hb', -⟩
  · exact keepsResults_refl t
  · exact keepsResults_refl s
  · cases level with
    | true => exact absurd ht hr
    | false => exact (atReset_sameBlock s).keepsResults (resetStep_keepsResults h)
  · exact (lineStep_atLine_sameBlock level s).keepsResults (keepsResults_refl _)
  · exact absurd ht (ha v)
  · exact (atHost_sameBlock s).keepsResults (hostStep_keepsResults h)
  · simp [hb] at hb'

/-- Settles O58: the turns left to an idle block keep the results, and the block stays idle. -/
theorem resultsStayUntilTheNextCommand : Obligations.ResultsStayUntilTheNextCommand := by
  unfold Obligations.ResultsStayUntilTheNextCommand
  intro s t hb h ha hr
  obtain ⟨hp, hk⟩ := step_keepsResults h hb ha hr
  exact ⟨by rw [not_busy_iff, hp, ← not_busy_iff, hb], hk⟩

end Sys2Proof.Machine
end

section
/-! PROOFS. The decoder and the encoder: each the other's inverse on the well-formed instructions (R90 to R97), and the
illegal command words (R93). -/

namespace Sys2Proof.Machine

/-! The command map (R92, R93). -/

/-- The opcodes that select no row of the command map (R93). -/
theorem lookup_cmdRows_eq_none_iff (op : Byte) : cmdRows.lookup op = none ↔ op = 0x00 ∨ 0x0C ≤ op.toNat := by
  simp only [cmdRows, List.lookup_eq_none_iff, List.forall_mem_cons, List.not_mem_nil, bne_iff_ne, ne_eq,
    false_implies, implies_true, and_true, ← BitVec.toNat_inj, BitVec.ofNat_eq_ofNat, BitVec.toNat_ofNat]
  omega

theorem isIllegalWord_iff (w : Word) :
    isIllegalWord w = true ↔ wordReserved w ≠ 0 ∨ cmdRows.lookup (wordOpcode w) = none := by
  rw [lookup_cmdRows_eq_none_iff]
  simp [isIllegalWord, or_assoc]

/-- The illegal words as numbers (R93). -/
theorem isIllegalWord_iff_toNat (w : Word) :
    isIllegalWord w = true ↔ w.toNat / 256 ≠ 0 ∨ w.toNat % 256 = 0 ∨ 0x0C ≤ w.toNat % 256 := by
  have hr : wordReserved w = 0 ↔ w.toNat / 256 = 0 := by
    rw [← BitVec.toNat_inj]
    simp only [wordReserved, BitVec.extractLsb'_toNat, BitVec.ofNat_eq_ofNat, BitVec.toNat_ofNat,
      Nat.shiftRight_eq_div_pow]
    omega
  have ho : wordOpcode w = 0 ↔ w.toNat % 256 = 0 := by
    rw [← BitVec.toNat_inj, wordOpcode_eq]
    simp
  rw [isIllegalWord_iff, lookup_cmdRows_eq_none_iff, Ne, hr, ho, wordOpcode_eq, BitVec.toNat_ofNat]

/-- An illegal word selects BADCMD (R93). -/
theorem decodeCmd_of_illegal {w : Word} (h : isIllegalWord w = true) : decodeCmd w = .badCmd w := by
  unfold decodeCmd
  split
  · rename_i hr
    rw [((isIllegalWord_iff w).1 h).resolve_left (not_not_intro hr), Option.getD_none]
  · rfl

theorem wf_cmdRows : ∀ p ∈ cmdRows, p.2.wf = true := by decide

/-- The instruction a command word selects is well-formed: BADCMD holds an illegal word (R93). -/
theorem decodeCmd_wf (w : Word) : (decodeCmd w).wf = true := by
  unfold decodeCmd
  split
  · cases hl : cmdRows.lookup (wordOpcode w) with
    | none => exact (isIllegalWord_iff w).2 (.inr hl)
    | some i =>
      obtain ⟨l₁, l₂, hrows, -⟩ := List.lookup_eq_some_iff.1 hl
      exact wf_cmdRows (wordOpcode w, i) (by simp [hrows])
  · rename_i hr
    exact (isIllegalWord_iff w).2 (.inl hr)

theorem decodeCmd_injective : Function.Injective decodeCmd := fun v w h =>
  Code.cmd.inj ((encode_decodeCmd v).symm.trans (h ▸ encode_decodeCmd w))

/-! Bytes and u16 values (R10, R77). -/

@[simp] theorem hiByte_joinBytes (hi lo : Byte) : hiByte (joinBytes hi lo) = hi := by
  apply BitVec.eq_of_toNat_eq
  simp only [hiByte, joinBytes, BitVec.extractLsb'_toNat, toNat_append_add, Nat.shiftRight_eq_div_pow]
  omega

@[simp] theorem loByte_joinBytes (hi lo : Byte) : loByte (joinBytes hi lo) = lo := by
  apply BitVec.eq_of_toNat_eq
  simp only [loByte, joinBytes, BitVec.extractLsb'_toNat, toNat_append_add, Nat.shiftRight_zero]
  omega

theorem hiByte_eq (h : Half) : hiByte h = BitVec.ofNat 8 (h.toNat / 256) := by
  apply BitVec.eq_of_toNat_eq
  simp [hiByte, Nat.shiftRight_eq_div_pow]

theorem loByte_eq (h : Half) : loByte h = BitVec.ofNat 8 h.toNat := by
  apply BitVec.eq_of_toNat_eq
  simp [loByte]

/-! The frames (R95 to R97). -/

theorem takeRegs_encoded (regs : List Half) (crc : Half) :
    takeRegs (regBytes regs ++ crcBytes crc) = some (regs, crc) := by
  induction regs with
  | nil => simp [regBytes, crcBytes, takeRegs, Memory.joinBytes_hi_lo]
  | cons r regs ih =>
    simp only [crcBytes] at ih ⊢
    simp [regBytes, takeRegs, ih, Memory.joinBytes_hi_lo]

/-- The bytes that registers and a CRC are taken from are the ones that carry them (R77, R96). -/
theorem eq_of_takeRegs {b : List Byte} {regs : List Half} {crc : Half} (h : takeRegs b = some (regs, crc)) :
    b = regBytes regs ++ crcBytes crc := by
  fun_induction takeRegs b generalizing regs crc with
  | case1 lo hi => cases h; simp [regBytes, crcBytes]
  | case2 x y rest _ regs' crc' ht ih => cases h; simp [regBytes, ih ht]
  | case3 => cases h
  | case4 => cases h

theorem decodeFrame_request (slave : Byte) (start count crc : Half) :
    decodeFrame (requestBytes slave start count crc) = .ok (.rtuReqReadInputRegs slave start count crc) := by
  simp [requestBytes, requestBody, crcBytes, decodeFrame, Memory.joinBytes_hi_lo]

theorem decodeFrame_exception (slave code : Byte) (crc : Half) :
    decodeFrame (exceptionBytes slave code crc) = .ok (.rtuRspException slave code crc) := by
  simp [exceptionBytes, crcBytes, decodeFrame, Memory.joinBytes_hi_lo]

/-- The bytes after a normal response's byte count are even in number, so that it is no request (R95, R96). -/
theorem decodeFrame_normal {slave byteCount : Byte} {regs : List Half} (crc : Half)
    (hb : byteCount.toNat = 2 * regs.length) (hl : regs.length ≤ 125) :
    decodeFrame (normalBytes slave byteCount regs crc) = .ok (.rtuRspNormal slave byteCount regs crc) := by
  have ht := takeRegs_encoded regs crc
  have hlen : (regBytes regs ++ crcBytes crc).length = 2 * regs.length + 2 := by
    simp [Laws.EncodedForm.regBytes_length, crcBytes]
  simp only [normalBytes, normalBody, List.cons_append, decodeFrame]
  generalize regBytes regs ++ crcBytes crc = rest at ht hlen
  rw [if_neg (by omega), if_neg (by decide), if_pos trivial]
  split
  · simp only [List.length_cons, List.length_nil] at hlen
    omega
  · simp only [ht, hb]
    simp [hl]

theorem wf_rtuRspNormal_iff (slave byteCount : Byte) (regs : List Half) (crc : Half) :
    (Instr.rtuRspNormal slave byteCount regs crc).wf = true ↔
      byteCount.toNat = 2 * regs.length ∧ regs.length ≤ 125 := by
  simp [Instr.wf, byteCountAgrees, regsFit]

/-- Whatever frame is decoded is well-formed, and its bytes are the frame's (R95 to R97). -/
theorem decodeFrame_ok {b : List Byte} {i : Instr} (h : decodeFrame b = .ok i) : i.wf = true ∧ encode i = .frame b := by
  revert h
  fun_cases decodeFrame b <;> intro h
  case case2 => cases h; simp [Instr.wf, encode, exceptionBytes, crcBytes]
  case case4 => cases h; simp [Instr.wf, encode, requestBytes, requestBody, crcBytes]
  case case7 ht hb hl _ _ =>
    rw [not_not] at hb
    simp only [ht, hb, ne_eq, not_true, if_false, if_neg hl] at h
    cases h
    obtain rfl := eq_of_takeRegs ht
    exact ⟨(wf_rtuRspNormal_iff ..).2 ⟨hb, not_lt.1 hl⟩, rfl⟩
  case case5 ht hb _ _ => simp only [ht, if_pos hb] at h; cases h
  case case6 ht hb hl _ _ => simp only [ht, if_neg hb, if_pos hl] at h; cases h
  case case8 ht _ _ => simp only [ht] at h; cases h
  all_goals cases h

/-- Settles O1: a command by its word, a frame by its kind. -/
theorem decodeEncodeRoundTrip : Obligations.DecodeEncodeRoundTrip := by
  unfold Obligations.DecodeEncodeRoundTrip
  intro i hi
  cases i with
  | badCmd w => exact congrArg Except.ok (decodeCmd_of_illegal hi)
  | rtuReqReadInputRegs slave start count crc => exact decodeFrame_request slave start count crc
  | rtuRspNormal slave byteCount regs crc =>
    obtain ⟨hb, hl⟩ := (wf_rtuRspNormal_iff ..).1 hi
    exact decodeFrame_normal crc hb hl
  | rtuRspException slave code crc => exact decodeFrame_exception slave code crc
  | _ => rfl

/-- Settles O2: a word by the command map, a byte sequence by the formats of the frames. -/
theorem decodedIsWellFormedAndReencodes : Obligations.DecodedIsWellFormedAndReencodes := by
  unfold Obligations.DecodedIsWellFormedAndReencodes
  intro c i h
  cases c with
  | cmd w => cases h; exact ⟨decodeCmd_wf w, encode_decodeCmd w⟩
  | frame b => exact decodeFrame_ok h

/-- Settles O3: each word and frame by the decoder's rules. -/
theorem specWordsDecode : Obligations.SpecWordsDecode := by
  unfold Obligations.SpecWordsDecode
  exact ⟨rfl, rfl, rfl, rfl, rfl, rfl⟩

/-- Settles O4: the decoder is injective on words, so each row's own word is its only one. -/
theorem commandMapSelectsByWholeWord : Obligations.CommandMapSelectsByWholeWord := by
  unfold Obligations.CommandMapSelectsByWholeWord
  intro v
  have only : ∀ {w i}, decodeCmd w = i → (decodeCmd v = i ↔ v = w) := decodeCmd_injective.eq_iff'
  exact ⟨only rfl, only rfl, only rfl, only rfl, only rfl, only rfl, only rfl, only rfl, only rfl, only rfl, only rfl⟩

/-! BADCMD (R93). -/

theorem plainCommand_idle {w : Word} {body : State → Host.Outcome State Fault Refusal} {s : State}
    (hp : s.phase = .idle) : plainCommand w body s = .next (accept w .exec s) := by
  rw [plainCommand, hp]

theorem plainCommand_exec {w : Word} {body : State → Host.Outcome State Fault Refusal} {s : State}
    (hp : s.phase = .exec) : plainCommand w body s = body s := by
  rw [plainCommand, hp]

theorem exec_badCmd (w : Word) (s : State) :
    exec (.badCmd w) s = plainCommand w (fun u => .next (complete (.block .badCmd) u)) s := rfl

/-- Settles O5: an illegal word selects BADCMD, whose body is the completion alone. -/
theorem illegalWordCompletesWithBadCmd : Obligations.IllegalWordCompletesWithBadCmd := by
  unfold Obligations.IllegalWordCompletesWithBadCmd
  intro v s hv
  exact ⟨decodeCmd_of_illegal ((isIllegalWord_iff_toNat v).2 hv),
    fun hp => (exec_badCmd v s).trans (plainCommand_idle hp),
    fun hp => (exec_badCmd v s).trans (plainCommand_exec hp)⟩

end Sys2Proof.Machine
end

section
/-! PROOFS. The wire frames as instructions: a frame run in a decode is the decode step of the command in progress, and
outside a decode it changes nothing, or is laid in TXBUF (R95 to R98). -/

namespace Sys2Proof.Machine

/-! When a frame is judged (R235). -/

theorem decoding_iff (s : State) :
    decoding s = true ↔ (s.phase = .decode ∧ s.latch.op = 0x00000007) ∨
      (s.phase = .exec ∧ s.latch.op = 0x00000006 ∧ s.latch.len.toNat ≤ 256) := by
  have hop : opcodeWord 0x06 = 0x00000006 := rfl
  simp only [decoding, Bool.or_eq_true, Bool.and_eq_true, beq_iff_eq, isRir_iff, Bool.not_eq_true', not_lenTooBig_iff,
    hop, and_assoc]

theorem frameReceived_of_decode {s : State} (hp : s.phase = .decode) (hop : s.latch.op = 0x00000007) (b : List Byte) :
    frameReceived b s = rirDecode (b.map some) s := by
  rw [frameReceived, if_pos ((decoding_iff s).2 (.inl ⟨hp, hop⟩)), if_pos hp]

theorem frameReceived_of_exec {s : State} (hp : s.phase = .exec) (hop : s.latch.op = 0x00000006)
    (hl : s.latch.len.toNat ≤ 256) (b : List Byte) :
    frameReceived b s = decodeAndFinish (b.map some) s.latch.func s := by
  rw [frameReceived, if_pos ((decoding_iff s).2 (.inr ⟨hp, hop, hl⟩)), if_neg (by simp [hp])]

/-- Outside a decode nothing looks at a received frame (R98). -/
theorem frameReceived_of_not_decoding {s : State} (h : decoding s = false) (b : List Byte) :
    frameReceived b s = .next s := by
  rw [frameReceived, if_neg (by simp [h])]

/-- In a decode every frame is given to the decoder (R155). -/
theorem exec_frame {i : Instr} {b : List Byte} {s : State} (hi : encode i = .frame b) (hd : decoding s = true) :
    exec i s = frameReceived b s := by
  cases i with
  | rtuReqReadInputRegs => cases hi; exact if_pos hd
  | rtuRspNormal | rtuRspException => cases hi; rfl
  | _ => cases hi

theorem exec_readInputRegs_decode {s : State} (hp : s.phase = .decode) :
    exec .readInputRegs s = rirDecode (Memory.readCells s.mem (rxAddr 0) s.port.rxN) s := by
  simp only [exec, execReadInputRegs, hp]

/-- In DECODE of READ_INPUT_REGS the frame in RXBUF is fetched (R98). -/
theorem fetchInstr_of_frame {s : State} {b : List Byte} {i : Instr} (hp : s.phase = .decode)
    (hop : s.latch.op = 0x00000007) (hm : Memory.readCells s.mem (rxAddr 0) s.port.rxN = b.map some)
    (hi : decodeFrame b = .ok i) : fetchInstr s = i := by
  rw [fetchInstr, if_pos ⟨hp, (isRir_iff _).2 hop⟩]
  simp only [hm, allWritten_map_some, hi]

/-- Settles O8: in either decode the frame's bytes are the cells that the command decodes. -/
theorem decodePhaseRunsReceivedFrame : Obligations.DecodePhaseRunsReceivedFrame := by
  unfold Obligations.DecodePhaseRunsReceivedFrame
  intro s b i hi
  have hb : encode i = .frame b := (decodeFrame_ok hi).2
  refine ⟨fun hp hop hm => ⟨fetchInstr_of_frame hp hop hm hi, ?_⟩, fun hp hop hl hm => ?_⟩
  · have hcells : Memory.readCells s.mem (rxAddr 0) s.port.rxN = b.map some := hm
    rw [exec_frame hb ((decoding_iff s).2 (.inl ⟨hp, hop⟩)), frameReceived_of_decode hp hop,
      exec_readInputRegs_decode hp, hcells]
  · have hcells : Memory.readCells s.mem (rxAddr 0) s.latch.len.toNat = b.map some := hm
    rw [exec_frame hb ((decoding_iff s).2 (.inr ⟨hp, hop, hl⟩)), frameReceived_of_exec hp hop hl,
      exec_decodeResp hp hl, hcells]

/-! A request outside a decode (R95, R154). -/

/-- The eight bytes of a request, each from its field's value (R95). -/
theorem requestBytes_eq (slave : Byte) (start count crc : Half) :
    requestBytes slave start count crc =
      [slave, 0x04, BitVec.ofNat 8 (start.toNat / 256), BitVec.ofNat 8 start.toNat,
        BitVec.ofNat 8 (count.toNat / 256), BitVec.ofNat 8 count.toNat,
        BitVec.ofNat 8 crc.toNat, BitVec.ofNat 8 (crc.toNat / 256)] := by
  simp only [requestBytes, requestBody, crcBytes, hiByte_eq, loByte_eq, List.cons_append, List.nil_append]

/-- TXBUF[0..7] holds a request that was laid in it. -/
theorem readCells_storeTx (bs : List Byte) (s : State) :
    Memory.readCells (storeTx bs s).mem (txAddr 0) bs.length = bs.map some :=
  Memory.readCells_writeCells bs s.mem (txAddr 0)

theorem exec_request_of_not_decoding {s : State} (h : decoding s = false) (slave : Byte) (start count crc : Half) :
    exec (.rtuReqReadInputRegs slave start count crc) s = .next (storeTx (requestBytes slave start count crc) s) :=
  if_neg (by simp [h])

/-- Settles O38: neither decode is under way, so a response is not looked at and a request is laid. -/
theorem framesOutsideADecode : Obligations.FramesOutsideADecode := by
  unfold Obligations.FramesOutsideADecode
  intro slave x regs start count crc s hrir hresp
  have hd : decoding s = false := by
    rw [← Bool.not_eq_true, decoding_iff]
    exact not_or.2 ⟨hrir, hresp⟩
  refine ⟨frameReceived_of_not_decoding hd _, frameReceived_of_not_decoding hd _, _,
    exec_request_of_not_decoding hd slave start count crc, ?_, fun a ha => ?_, rfl⟩
  · rw [requestBytes_eq]
    exact readCells_storeTx _ s
  · exact Memory.read_writeCells_other _ _ _ _ ha

/-! The decoder on frames with a correct CRC (R155, R159). -/

@[simp] theorem crcBytes_length (crc : Half) : (crcBytes crc).length = 2 := rfl

/-- The CRC that follows a frame's body is the one it carries (R155 D3). -/
theorem recvCrc_append (body : List Byte) (crc : Half) : recvCrc (body ++ crcBytes crc) = crc := by
  simp [recvCrc, crcBytes, Memory.joinBytes_hi_lo]

/-- The CRC is computed over the body (R155 D3). -/
theorem calcCrc_append (body : List Byte) (crc : Half) : calcCrc (body ++ crcBytes crc) = crc16 body := by
  simp [calcCrc]

/-- A frame with a correct CRC is checked against the request (R155 D4 to D8). -/
theorem checkCrc_append (body : List Byte) (eS eF : Byte) (eC : Half) :
    checkCrc (body ++ crcBytes (crc16 body)) eS eF eC =
      { diag := some (crc16 body, crc16 body), res := checkFrame (body ++ crcBytes (crc16 body)) eS eF eC } := by
  simp [checkCrc, recvCrc_append, calcCrc_append]

/-- A decode that neither D1 nor D2 ends checks the CRC (R155). -/
theorem decodeCells_of_long {b : List Byte} {eC : Half} (h5 : 5 ≤ b.length)
    (h : 128 ≤ (b.getD 1 0).toNat ∨ 5 + 2 * eC.toNat ≤ b.length) (eS eF : Byte) :
    decodeCells (b.map some) eS eF eC = some (checkCrc b eS eF eC) := by
  have h1 : (b.map some).getD 1 none = some (b.getD 1 0) := by
    simp [List.getElem?_eq_getElem (show 1 < b.length by omega)]
  simp only [decodeCells, h1, allWritten_map_some, getLsbD_seven, List.length_map]
  rw [if_neg (by omega), if_neg (by omega)]

/-- The bytes of register `i`, high byte first (R77, R96). -/
theorem getD_regBytes (regs : List Half) (tail : List Byte) :
    ∀ {i : Nat} (h : i < regs.length), (regBytes regs ++ tail).getD (2 * i) 0 = hiByte regs[i] ∧
      (regBytes regs ++ tail).getD (2 * i + 1) 0 = loByte regs[i] := by
  induction regs with
  | nil => intro i h; simp at h
  | cons r regs ih =>
    intro i h
    cases i with
    | zero => exact ⟨rfl, rfl⟩
    | succ i => exact ih (by simpa using h)

/-- The registers of a response are taken from behind its byte count (R155 D8). -/
theorem respRegs_regBytes (x y z : Byte) (regs : List Half) (tail : List Byte) :
    respRegs (x :: y :: z :: (regBytes regs ++ tail)) regs.length = regs := by
  apply List.ext_getElem
  · simp
  · intro i h1 h2
    obtain ⟨hhi, hlo⟩ := getD_regBytes regs tail h2
    have e3 : 3 + 2 * i = 2 * i + 3 := by omega
    have e4 : 4 + 2 * i = 2 * i + 1 + 3 := by omega
    simp only [respRegs, List.getElem_map, List.getElem_range, e3, e4, List.getD_cons_succ, hhi, hlo,
      Memory.joinBytes_hi_lo]

/-- Bit 7 marks the function of an exception response (R97). -/
theorem le_toNat_or_exceptionBit (f : Byte) : 128 ≤ (f ||| 0x80).toNat := by
  rw [← not_lt, ← getLsbD_seven]
  simp

/-- A frame that agrees with the request in slave, function, count and length is Ok with its registers (R155 D8). -/
theorem checkFrame_normal {eS eF bc : Byte} {regs : List Half} {eC : Half} {tail : List Byte} (hF : eF.toNat < 128)
    (hc : eC.toNat = regs.length) (hb : bc.toNat = 2 * regs.length) (ht : tail.length = 2) :
    checkFrame (eS :: eF :: bc :: (regBytes regs ++ tail)) eS eF eC = .ok regs := by
  have hlen : (eS :: eF :: bc :: (regBytes regs ++ tail)).length = 5 + 2 * regs.length := by
    simp only [List.length_cons, List.length_append, Laws.EncodedForm.regBytes_length, ht]
    omega
  have hregs := respRegs_regBytes eS eF bc regs tail
  have hne : eF ≠ eF ||| 128#8 := fun h => absurd (h ▸ le_toNat_or_exceptionBit eF) (not_le.2 hF)
  simp [checkFrame, hne, hc, hb, hlen, hregs]

/-- A frame of the expected slave with bit 7 of the function set reports its code (R155 D5). -/
theorem checkFrame_exception (eS eF code : Byte) (eC : Half) (tail : List Byte) :
    checkFrame (eS :: (eF ||| 0x80) :: code :: tail) eS eF eC = .error (.exceptionResponse code) := by
  simp [checkFrame]

/-- The normal response to the request, with a correct CRC, decodes to Ok (R159 (a)). -/
theorem decodeCells_normal {eS eF bc : Byte} {regs : List Half} {eC : Half} (hF : eF.toNat < 128)
    (hc : eC.toNat = regs.length) (hb : bc.toNat = 2 * regs.length) :
    decodeCells (((eS :: eF :: bc :: regBytes regs) ++ crcBytes (crc16 (eS :: eF :: bc :: regBytes regs))).map some)
        eS eF eC =
      some { diag := some (crc16 (eS :: eF :: bc :: regBytes regs), crc16 (eS :: eF :: bc :: regBytes regs))
             res := .ok regs } := by
  have hlen : ∀ crc, ((eS :: eF :: bc :: regBytes regs) ++ crcBytes crc).length = 5 + 2 * eC.toNat := by
    intro crc
    simp only [List.length_append, List.length_cons, Laws.EncodedForm.regBytes_length, crcBytes_length, hc]
    omega
  rw [decodeCells_of_long (by rw [hlen]; omega) (.inr (hlen _).ge), checkCrc_append, List.cons_append, List.cons_append,
    List.cons_append, checkFrame_normal hF hc hb (crcBytes_length _)]

/-- An exception frame of the expected slave and function, with a correct CRC, reports its code (R159 (c)). -/
theorem decodeCells_exception (eS eF code : Byte) (eC : Half) :
    decodeCells (([eS, eF ||| 0x80, code] ++ crcBytes (crc16 [eS, eF ||| 0x80, code])).map some) eS eF eC =
      some { diag := some (crc16 [eS, eF ||| 0x80, code], crc16 [eS, eF ||| 0x80, code])
             res := .error (.exceptionResponse code) } := by
  rw [decodeCells_of_long (by simp) (.inl ?_), checkCrc_append]
  · simp only [List.cons_append, checkFrame_exception]
  · exact le_toNat_or_exceptionBit eF

/-! The DECODE step on a frame (R190 step 4). -/

theorem rirDecode_some {b : List (Option Byte)} {s : State} {out : DecodeOut}
    (h : decodeCells b s.latch.slave 0x04 s.latch.count = some out) :
    rirDecode b s = .next (finishDecode out (writeRxLen s.port.rxN s)) :=
  decodeAndFinish_some h

/-- In DECODE a frame completes READ_INPUT_REGS with the decode of its bytes (R155, R190). -/
theorem exec_frame_decode {i : Instr} {b : List Byte} {s : State} {out : DecodeOut} (hi : encode i = .frame b)
    (hp : s.phase = .decode) (hop : s.latch.op = 0x00000007)
    (h : decodeCells (b.map some) s.latch.slave 0x04 s.latch.count = some out) :
    exec i s = .next (finishDecode out (writeRxLen s.port.rxN s)) := by
  rw [exec_frame hi ((decoding_iff s).2 (.inl ⟨hp, hop⟩)), frameReceived_of_decode hp hop, rirDecode_some h]

/-- A decode leaves alone what a completion leaves alone. -/
theorem finishDecode_keepsRest (out : DecodeOut) (s : State) : keepsRest s (finishDecode out s) := by
  obtain ⟨hu, -, hlatch, -, hseen, hline, hat, -⟩ := finishDecode_keeps out s
  exact ⟨hlatch, hat, hu.now, hu.rst, hu.resets, hu.env, hu.params, hu.draws, hseen, hline, hu.hostRegs⟩

/-- Settles O39: D8 gives the frame's registers, which the completion writes. -/
theorem normalResponseCompletesTheRead : Obligations.NormalResponseCompletesTheRead := by
  unfold Obligations.NormalResponseCompletesTheRead
  intro s byteCount regs hp hop _ hc hb crc
  have hexec := exec_frame_decode (i := .rtuRspNormal s.latch.slave byteCount regs crc) rfl hp hop
    (decodeCells_normal (by decide) hc hb)
  refine ⟨_, hexec, complete_completesAs .ok rfl, rfl, fun i v hv => ?_, fun a ha => ?_, rfl,
    finishDecode_keepsRest _ (writeRxLen s.port.rxN s)⟩
  · obtain ⟨hi, rfl⟩ := List.getElem?_eq_some_iff.1 hv
    exact Memory.readHalf_writeHalves regs s.mem (resAddr 0) i hi
  · refine Memory.read_writeHalves_other regs s.mem (resAddr 0) a fun i hi => ?_
    obtain ⟨hlo, hhi⟩ := ha i hi
    simp only [resAddr]
    omega

/-- Settles O40: D5 gives the frame's code, and no register is decoded. -/
theorem exceptionResponseCompletesTheRead : Obligations.ExceptionResponseCompletesTheRead := by
  unfold Obligations.ExceptionResponseCompletesTheRead
  intro s code hp hop crc
  exact exec_frame_decode (i := .rtuRspException s.latch.slave code crc) rfl hp hop
    (decodeCells_exception s.latch.slave 0x04 code s.latch.count)

end Sys2Proof.Machine
end

section
/-! PROOFS. OPEN, CLOSE, the wire commands that end without the wire, and time: the configuration's fields as numbers, the
instant of the sequencer's next step, and the commands in EXEC (R110 to R113, R120 to R123, R272). -/

namespace Sys2Proof.Machine

/-! Time (R110). -/

/-- An action of the host takes no time. -/
theorem hostStep_now {a : EnvAction} {s t : State} (h : hostStep a s = .next t) : t.now = s.now := by
  rcases hostStep_cases h with ⟨off, v, n, rfl⟩ | rfl | ⟨off, v, rfl⟩
  · rfl
  · rfl
  · obtain ⟨j, q, m, hw⟩ := hostWrite_keeps (regAt off) v s
    rw [hw]

/-- Settles O59: of the turns of a step only the clock's and the assertion of `rst` change `now`. -/
theorem timeNeverGoesBack : Obligations.TimeNeverGoesBack := by
  unfold Obligations.TimeNeverGoesBack
  intro s t h hr
  have same : t.now = s.now → s.now ≤ t.now ∧ (t.now ≠ s.now → nextTurn s = .clock t.now) :=
    fun ht => ⟨ht.ge, fun hne => absurd ht hne⟩
  rcases step_cases h with ⟨-, rfl⟩ | ⟨tm, ht, hn, rfl⟩ | ⟨level, ht, h⟩ | ⟨level, -, rfl⟩ | ⟨v, -, -, -, h⟩ |
    ⟨a, -, h⟩ | ⟨-, -, -, h⟩
  · exact same rfl
  · exact ⟨hn.le, fun _ => ht⟩
  · cases level with
    | true => exact absurd ht hr
    | false => cases h; exact same rfl
  · exact same (by rw [lineStep_now, atLine_eq s])
  · exact same ((exec_untouched _ h).now.trans (by rw [atHost_eq s]))
  · exact same ((hostStep_now h).trans (by rw [atHost_eq s]))
  · exact same ((exec_untouched _ h).now.trans (by rw [atSequencer_eq s]))

/-! CFG_FRAME's fields as numbers (R35). -/

theorem dataBits_toNat (r : Regs) : (dataBits r).toNat = r.cfgFrame.toNat % 16 := by
  rw [dataBits, BitVec.extractLsb'_toNat, Nat.shiftRight_zero]

theorem parity_toNat (r : Regs) : (parity r).toNat = r.cfgFrame.toNat / 16 % 4 := by
  rw [parity, BitVec.extractLsb'_toNat, Nat.shiftRight_eq_div_pow]

theorem stopBits_toNat (r : Regs) : (stopBits r).toNat = r.cfgFrame.toNat / 64 := by
  have := r.cfgFrame.isLt
  rw [stopBits, BitVec.extractLsb'_toNat, Nat.shiftRight_eq_div_pow]
  omega

/-- PARITY as a number (R35, R78). -/
theorem parity_eq_iff {r : Regs} {p : BitVec 2} : parity r = p ↔ r.cfgFrame.toNat / 16 % 4 = p.toNat := by
  rw [← BitVec.toNat_inj, parity_toNat]

/-- The configurations OPEN accepts, by the registers' numbers (R120). -/
theorem configLegal_iff (p : Params) (r : Regs) :
    configLegal p r = true ↔
      r.cfgBaud.toNat ∈ p.supportedBaud ∧ r.cfgFrame.toNat % 16 = 8 ∧ r.cfgFrame.toNat / 16 % 4 ≠ 3 ∧
        (r.cfgFrame.toNat / 64 = 1 ∨ r.cfgFrame.toNat / 64 = 2) ∧ r.cfgRtoMs ≠ 0 ∧ r.cfgWtoMs ≠ 0 := by
  have hd : dataBits r = 8 ↔ r.cfgFrame.toNat % 16 = 8 := by rw [← BitVec.toNat_inj, dataBits_toNat]; rfl
  have hp : parity r = 3 ↔ r.cfgFrame.toNat / 16 % 4 = 3 := parity_eq_iff
  have hs : ∀ n : BitVec 2, stopBits r = n ↔ r.cfgFrame.toNat / 64 = n.toNat := fun n => by
    rw [← BitVec.toNat_inj, stopBits_toNat]
  simp only [configLegal, Bool.and_eq_true, Bool.or_eq_true, List.contains_iff_mem, beq_iff_eq, bne_iff_ne, ne_eq, hd,
    hp, hs, and_assoc]
  exact Iff.rfl

/-- The character time by the fields of CFG_FRAME and CFG_BAUD (R111). -/
theorem charTime_eq (s : State) :
    charTime s =
      ((1 + s.regs.cfgFrame.toNat % 16 + (if s.regs.cfgFrame.toNat / 16 % 4 ≠ 0 then 1 else 0) +
        s.regs.cfgFrame.toNat / 64 : Nat) : Time) / (s.regs.cfgBaud.toNat : Time) := by
  have hp : parity s.regs = 0 ↔ s.regs.cfgFrame.toNat / 16 % 4 = 0 := parity_eq_iff
  simp only [charTime, charLength, dataBits_toNat, stopBits_toNat, hp, ne_eq, ite_not]

theorem charTime_nonneg (s : State) : 0 ≤ charTime s := by unfold charTime; positivity

/-! When the sequencer's next step is due. -/

theorem lineFailed_of_present {s : State} (h : s.line.present = true) : lineFailed s = false := by
  simp [lineFailed, h]

/-- In a wire phase of the timed model a missing line is a failure (R114, R116). -/
theorem lineFailed_of_missing {s : State} (ht : isTimed s = true) (hp : wirePhase s.phase = true)
    (h : s.line.present = false) : lineFailed s = true := by
  simp [lineFailed, ht, hp, h]

/-- A command in progress steps at the end of its phase or character. -/
theorem dueAt_timed {s : State} (hp : s.phase ≠ .idle) (ht : isTimed s = true) (hl : lineFailed s = false) :
    dueAt s = some (max s.now (phaseDue s)) := by
  simp [dueAt, (busy_iff s).2 hp, ht, hl]

/-- In the untimed model a command steps at once (R119). -/
theorem dueAt_untimed {s : State} (hp : s.phase ≠ .idle) (ht : isTimed s = false) : dueAt s = some s.now := by
  simp [dueAt, (busy_iff s).2 hp, ht]

/-- A line failure is due at once (R114, R116). -/
theorem dueAt_lost {s : State} (hl : lineFailed s = true) : dueAt s = some s.now := by
  have hp : s.phase ≠ .idle := fun h => by simp [lineFailed, h, wirePhase] at hl
  simp [dueAt, (busy_iff s).2 hp, hl]

theorem txDue_le_deadline (s : State) : txDue s ≤ s.port.deadline := by
  unfold txDue
  split
  · exact (txInTime_iff s).1 ‹_›
  · exact le_rfl

/-- The end of a phase with a deadline, or of a character in it, comes no later than the deadline (R114, R116). -/
theorem phaseDue_le_deadline {s : State} (hp : s.phase = .tx ∨ s.phase = .rxWait ∨ s.phase = .rxFrame) :
    phaseDue s ≤ s.port.deadline := by
  rcases hp with hp | hp | hp <;> simp only [phaseDue, hp]
  · exact txDue_le_deadline s
  · exact rxRound_time_le ..
  · exact rxRound_time_le ..

/-- Settles O22: a line failure is due at once, and the engine's and the arbiter's next acts by the deadline. -/
theorem wirePhasesEndByTheirDeadline : Obligations.WirePhasesEndByTheirDeadline := by
  unfold Obligations.WirePhasesEndByTheirDeadline
  intro s ht
  refine ⟨fun d hp hd => ?_, fun hp => ?_, fun hp => ?_⟩
  · have hbusy := (busy_iff s).1 (dueAt_busy hd)
    cases hl : lineFailed s with
    | true =>
      rw [dueAt_lost hl] at hd
      cases hd
      exact le_max_left ..
    | false =>
      rw [dueAt_timed hbusy ht hl] at hd
      cases hd
      exact max_le_max le_rfl (phaseDue_le_deadline hp)
  · rw [dueAt_timed (by simp [hp]) ht (by simp [lineFailed, wirePhase, hp]), phaseDue, hp]
  · rw [dueAt_timed (by simp [hp]) ht (by simp [lineFailed, wirePhase, hp]), phaseDue, hp]

/-! OPEN and CLOSE (R120, R121). -/

theorem exec_openCmd {s : State} (hp : s.phase = .exec) :
    exec .openCmd s =
      if s.port.isOpen = false ∧ s.line.present = true ∧ configLegal s.params s.regs = true then
        .next (complete .ok { s with port := { s.port with isOpen := true, tLast := s.now } })
      else .next (complete (.io .openFailed) s) := by
  simp only [exec, execOpen, plainCommand, hp]
  cases s.port.isOpen <;> cases s.line.present <;> cases configLegal s.params s.regs <;> rfl

theorem exec_closeCmd {s : State} (hp : s.phase = .exec) :
    exec .closeCmd s = .next (complete .ok { s with port := { s.port with isOpen := false } }) := by
  simp only [exec, execClose, plainCommand, hp]

/-- Settles O10: OPEN's three checks, and CLOSE's completion, which leaves the block idle. -/
theorem openSucceedsOrFailsAndCloseCloses : Obligations.OpenSucceedsOrFailsAndCloseCloses := by
  unfold Obligations.OpenSucceedsOrFailsAndCloseCloses
  intro s hp supported
  have hopen := exec_openCmd hp
  have hlegal : configLegal s.params s.regs = true ↔ supported := configLegal_iff _ _
  rw [← hlegal]
  refine ⟨fun h => hopen.trans (if_pos h), fun h => hopen.trans (if_neg h), _, exec_closeCmd hp, rfl, rfl, ?_⟩
  simp [txOutput]

/-! The gap (R113). -/

/-- WRITE_BYTES and READ_INPUT_REGS end the gap alike. -/
theorem exec_gap {i : Instr} {s : State} (hi : i = .writeBytes ∨ i = .readInputRegs) (hp : s.phase = .txGap) :
    exec i s = .next (gapStep s) := by
  rcases hi with rfl | rfl
  · simp only [exec, execWriteBytes, hp]
  · simp only [exec, execReadInputRegs, hp]

/-- Settles O12: the fields of CFG_FRAME give the character time, and a gap whose line holds ends in TX. -/
theorem gapHoldsTheFirstStartBit : Obligations.GapHoldsTheFirstStartBit := by
  unfold Obligations.GapHoldsTheFirstStartBit
  intro s
  refine ⟨charTime_eq s, rfl, fun hp hl => ?_⟩
  have hholds : lineFailed s = false := by rcases hl with hl | hl <;> simp [lineFailed, hl]
  refine ⟨?_, fun i hi => ?_⟩
  · cases ht : isTimed s with
    | true => rw [dueAt_timed (by simp [hp]) ht hholds, phaseDue, hp]; rfl
    | false => rw [dueAt_untimed (by simp [hp]) ht]; rfl
  · rw [exec_gap hi hp, gapStep, hholds]; rfl

/-! WRITE_BYTES and READ_BYTES without the wire (R122, R123). -/

theorem exec_writeBytes_atOnce {s : State} {r : Result} (hp : s.phase = .exec) (h : writeAtOnce s = some r) :
    exec .writeBytes s = .next (complete r s) := by
  simp only [exec, execWriteBytes, hp, h]

theorem exec_readBytes_empty {s : State} (hp : s.phase = .exec) (h : readAtOnce s = some .ok) :
    exec .readBytes s = .next (complete .ok (writeRxLen 0 s)) := by
  simp only [exec, execReadBytes, hp, h]

theorem exec_readBytes_atOnce {s : State} {r : Result} (hp : s.phase = .exec) (h : readAtOnce s = some r)
    (hr : r ≠ .ok) : exec .readBytes s = .next (complete r s) := by
  cases r with
  | ok => exact absurd rfl hr
  | _ => simp only [exec, execReadBytes, hp, h]

/-- Settles O16: the checks of both commands in their order. -/
theorem wireCommandsEndAtOnce : Obligations.WireCommandsEndAtOnce := by
  unfold Obligations.WireCommandsEndAtOnce
  intro s hp
  refine ⟨fun hl => ?_, fun hl ho => ?_, fun hl ho => ?_⟩
  · have hbig := (lenTooBig_iff s.latch).2 hl
    exact ⟨exec_writeBytes_atOnce hp (by simp [writeAtOnce, hbig]),
      exec_readBytes_atOnce hp (by simp [readAtOnce, hbig]) (by simp)⟩
  · have hfits := (not_lenTooBig_iff s.latch).2 hl
    exact ⟨exec_writeBytes_atOnce hp (by simp [writeAtOnce, hfits, ho]),
      exec_readBytes_atOnce hp (by simp [readAtOnce, hfits, ho]) (by simp)⟩
  · have hfits : lenTooBig s.latch = false := (not_lenTooBig_iff s.latch).2 (by simp [hl])
    exact ⟨exec_writeBytes_atOnce hp (by simp [writeAtOnce, hfits, ho, hl]),
      exec_readBytes_empty hp (by simp [readAtOnce, hfits, ho, hl])⟩

/-! READ_BYTES begins to receive (R115). -/

theorem exec_readBytes_idle {s : State} (hp : s.phase = .idle)
    (h : readAtOnce (accept (opcodeWord 0x04) .exec s) = none) :
    exec .readBytes s = .next (enterRx (accept (opcodeWord 0x04) .exec s)) := by
  simp only [exec, execReadBytes, hp, if_pos h]

/-- Settles O17: none of the checks ends the command, so its acceptance starts the RX phase. -/
theorem readBytesStartsReceiving : Obligations.ReadBytesStartsReceiving := by
  unfold Obligations.ReadBytesStartsReceiving
  intro s hp ho h1 h256
  have hne : s.regs.argLen ≠ 0 := fun h => by simp [h] at h1
  exact ⟨_, exec_readBytes_idle hp ((readAtOnce_none_iff _).2 ⟨h256, ho, hne⟩), rfl, rfl⟩

end Sys2Proof.Machine
end

section
/-! PROOFS. The transmit engine: what one step of TX sends, and how TX_GAP and TX end (R78, R114, R119, R122). -/

namespace Sys2Proof.Machine

/-! The character on the wire (R78). -/

/-- `onesIn` counts the data bits that are put on the wire. -/
theorem count_dataBits (b : Byte) : ((List.range 8).map fun i => b.getLsbD i).count true = onesIn b := by
  rw [List.count_eq_countP, List.countP_map, List.countP_eq_length_filter, onesIn]
  simp [Function.comp_def]

/-- The parity bit makes the number of 1s odd or even (R78). -/
theorem parityBits_spec (r : Regs) (b : Byte) :
    let data : List Bool := (List.range 8).map fun i => b.getLsbD i
    (r.cfgFrame.toNat / 16 % 4 = 0 → parityBits (parity r) b = []) ∧
    (r.cfgFrame.toNat / 16 % 4 = 1 → ∃ p, parityBits (parity r) b = [p] ∧ (data ++ [p]).count true % 2 = 1) ∧
    (r.cfgFrame.toNat / 16 % 4 = 2 → ∃ p, parityBits (parity r) b = [p] ∧ (data ++ [p]).count true % 2 = 0) := by
  refine ⟨fun h => ?_, fun h => ⟨onesIn b % 2 == 0, ?_, ?_⟩, fun h => ⟨onesIn b % 2 == 1, ?_, ?_⟩⟩
  · rw [(parity_eq_iff (p := 0)).2 h]; rfl
  · rw [(parity_eq_iff (p := 1)).2 h]; rfl
  · rw [List.count_append, count_dataBits]
    rcases Nat.mod_two_eq_zero_or_one (onesIn b) with h2 | h2 <;> simp [h2, Nat.add_mod]
  · rw [(parity_eq_iff (p := 2)).2 h]; rfl
  · rw [List.count_append, count_dataBits]
    rcases Nat.mod_two_eq_zero_or_one (onesIn b) with h2 | h2 <;> simp [h2, Nat.add_mod]

theorem charBits_eq (r : Regs) (b : Byte) :
    charBits r b = [false] ++ ((List.range 8).map fun i => b.getLsbD i) ++ parityBits (parity r) b ++
      List.replicate (r.cfgFrame.toNat / 64) true := by
  rw [charBits, stopBits_toNat]; rfl

/-! What the line has chosen in the untimed model (R119). -/

/-- A phase that the line breaks off sends at most all characters but one. -/
theorem txLimit_of_broken {s : State} {k : Nat}
    (h : s.line.txChoices.head? = some (.timeout k) ∨ ∃ cut, s.line.txChoices.head? = some (.failed k cut)) :
    txLimit s = min k (txTotal s.latch - 1) := by
  rcases h with h | ⟨cut, h⟩ <;> simp [txLimit, h]

theorem txLimit_of_whole {s : State} (h : s.line.txChoices.head? = some .ok ∨ s.line.txChoices.head? = none) :
    txLimit s = txTotal s.latch := by
  rcases h with h | h <;> simp [txLimit, h]

/-! One more character (R114). -/

/-- The next character of TX is sent: in the timed model the line holds and it can end by the deadline, in the untimed
model the line has chosen so. -/
def txGoes (s : State) : Prop :=
  if isTimed s = true then s.line.present = true ∧ txCharEnd s ≤ s.port.deadline else s.port.txK < txLimit s

theorem txGoes_timed {s : State} (ht : isTimed s = true) :
    txGoes s ↔ s.line.present = true ∧ txCharEnd s ≤ s.port.deadline := by
  rw [txGoes, if_pos ht]

theorem txGoes_untimed {s : State} (ht : isTimed s = false) : txGoes s ↔ s.port.txK < txLimit s := by
  rw [txGoes, if_neg (by simp [ht])]

/-- At the end of a TX phase the untimed line's choice is used up. -/
def endTx (s : State) : State := if isTimed s = true then s else popTxChoice s

theorem endTx_timed {s : State} (ht : isTimed s = true) : endTx s = s := if_pos ht

theorem endTx_untimed {s : State} (ht : isTimed s = false) : endTx s = popTxChoice s := if_neg (by simp [ht])

theorem endTx_eq (s : State) :
    endTx s = { s with
      line := { s.line with
        txChoices := if isTimed s = true then s.line.txChoices else s.line.txChoices.tail } } := by
  unfold endTx; split <;> rfl

theorem sendNext_written {s : State} {b : Byte} (hb : Memory.read s.mem (txAddr s.port.txK) = some b) :
    sendNext s = .ok (if txTotal s.latch ≤ s.port.txK + 1 then some .ok else none, sendChar b s) := by
  rw [sendNext, hb]

theorem txStep_timed {s : State} (ht : isTimed s = true) (hg : txGoes s) : txStep s = sendNext s := by
  obtain ⟨hl, hd⟩ := (txGoes_timed ht).1 hg
  simp [txStep, ht, hl, (txInTime_iff s).2 hd]

theorem txStep_untimed {s : State} (ht : isTimed s = false) : txStep s = txChosen s := if_pos ht

/-- A character that is not the last one is sent, and TX goes on. -/
theorem txStep_sends {s : State} {b : Byte} (hg : txGoes s)
    (hb : Memory.read s.mem (txAddr s.port.txK) = some b) (hk : s.port.txK + 1 < txTotal s.latch) :
    txStep s = .ok (none, sendChar b s) := by
  have hnext := sendNext_written hb
  rw [if_neg (by omega)] at hnext
  cases ht : isTimed s with
  | true => rw [txStep_timed ht hg, hnext]
  | false => rw [txStep_untimed ht, txChosen, if_pos ((txGoes_untimed ht).1 hg), hnext]; rfl

/-- The last character is sent, and TX ends. -/
theorem txStep_sendsLast {s : State} {b : Byte} (hg : txGoes s)
    (hb : Memory.read s.mem (txAddr s.port.txK) = some b) (hk : txTotal s.latch ≤ s.port.txK + 1) :
    txStep s = .ok (some .ok, endTx (sendChar b s)) := by
  have hnext := sendNext_written hb
  rw [if_pos hk] at hnext
  cases ht : isTimed s with
  | true => rw [txStep_timed ht hg, hnext, endTx_timed (s := sendChar b s) ht]
  | false =>
    rw [txStep_untimed ht, txChosen, if_pos ((txGoes_untimed ht).1 hg), hnext, endTx_untimed (s := sendChar b s) ht]
    rfl

/-- The step of a character is due at its end (R114), in the untimed model at once. -/
theorem dueAt_of_txGoes {s : State} (hp : s.phase = .tx) (hg : txGoes s) :
    dueAt s = some (if isTimed s = true then max s.now (txCharEnd s) else s.now) := by
  cases ht : isTimed s with
  | true =>
    obtain ⟨hl, hd⟩ := (txGoes_timed ht).1 hg
    rw [dueAt_timed (by simp [hp]) ht (lineFailed_of_present hl), phaseDue, hp]
    simp [txDue, (txInTime_iff s).2 hd]
  | false => rw [dueAt_untimed (by simp [hp]) ht]; rfl

/-! The commands on a step of TX (R122, R190). -/

theorem exec_of_txStep_goesOn {i : Instr} {s t : State} (hi : i = .writeBytes ∨ i = .readInputRegs)
    (hp : s.phase = .tx) (h : txStep s = .ok (none, t)) : exec i s = .next t := by
  rcases hi with rfl | rfl
  · simp only [exec, execWriteBytes, hp, h]
  · simp only [exec, execReadInputRegs, hp, h]

theorem exec_writeBytes_of_txStep_ends {s t : State} {o : TxOutcome} (hp : s.phase = .tx)
    (h : txStep s = .ok (some o, t)) : exec .writeBytes s = .next (complete (txResult o) t) := by
  simp only [exec, execWriteBytes, hp, h]

/-- A failure of the transmission is the failure of either command. -/
theorem exec_of_txStep_fails {i : Instr} {s t : State} {o : TxOutcome} (hi : i = .writeBytes ∨ i = .readInputRegs)
    (hp : s.phase = .tx) (ho : o ≠ .ok) (h : txStep s = .ok (some o, t)) :
    exec i s = .next (complete (txResult o) t) := by
  rcases hi with rfl | rfl
  · exact exec_writeBytes_of_txStep_ends hp h
  · cases o with
    | ok => exact absurd rfl ho
    | writeTimeout | writeFailed => simp only [exec, execReadInputRegs, hp, h, txResult]

/-- Settles O13: a character that goes is recorded with its bits, and the last one ends WRITE_BYTES. -/
theorem transmitSendsCharacters : Obligations.TransmitSendsCharacters := by
  unfold Obligations.TransmitSendsCharacters
  intro s b timed n sk ek pty data goes hp hgoes hb
  have hn : n = txTotal s.latch := (txTotal_eq _).symm
  have hg : txGoes s := by
    cases ht : isTimed s with
    | true =>
      simp only [goes, timed, if_pos ht] at hgoes
      exact (txGoes_timed ht).2 hgoes
    | false =>
      rw [txGoes_untimed ht]
      simp only [goes, timed, ht, Bool.false_eq_true, if_false, hn] at hgoes
      cases hc : s.line.txChoices.head? with
      | none => rw [txLimit_of_whole (.inr hc)]; simpa [hc] using hgoes
      | some c =>
        simp only [hc] at hgoes
        cases c with
        | ok => rw [txLimit_of_whole (.inl hc)]; exact hgoes
        | timeout k => rw [txLimit_of_broken (.inl hc)]; simp only at hgoes; omega
        | failed k cut => rw [txLimit_of_broken (.inr ⟨cut, hc⟩)]; simp only at hgoes; omega
  obtain ⟨h0, h1, h2⟩ := parityBits_spec s.regs b
  refine ⟨parityBits (parity s.regs) b, h0, h1, h2, ?_⟩
  intro sent ended
  have hsent : sent = sendChar b s := by
    simp only [sent, data, ← charBits_eq]
    rfl
  have hended : ended = endTx (sendChar b s) := by
    rw [endTx_eq, ← hsent]; rfl
  rw [hended, hsent, hn]
  refine ⟨dueAt_of_txGoes hp hg, fun _ hk => ?_, fun _ hk => ?_, fun _ hk => ?_⟩
  · exact exec_of_txStep_goesOn (.inl rfl) hp (txStep_sends hg hb hk)
  · exact exec_writeBytes_of_txStep_ends hp (txStep_sendsLast hg hb hk.le)
  · exact exec_of_txStep_goesOn (.inr rfl) hp (txStep_sends hg hb hk)

/-! A transmission that fails (R114, R119). -/

/-- A character that cannot end by the deadline is not started (R114). -/
theorem txStep_late {s : State} (ht : isTimed s = true) (hl : s.line.present = true)
    (hd : s.port.deadline < txCharEnd s) : txStep s = .ok (some .writeTimeout, s) := by
  simp [txStep, ht, hl, (not_txInTime_iff s).2 hd]

theorem dueAt_of_late {s : State} (hp : s.phase = .tx) (ht : isTimed s = true) (hl : s.line.present = true)
    (hd : s.port.deadline < txCharEnd s) : dueAt s = some (max s.now s.port.deadline) := by
  rw [dueAt_timed (by simp [hp]) ht (lineFailed_of_present hl), phaseDue, hp]
  simp [txDue, (not_txInTime_iff s).2 hd]

/-- The line drops in TX of the timed model. -/
theorem txStep_lost {s t : State} (ht : isTimed s = true) (hl : s.line.present = false) (h : cutOff s = .ok t) :
    txStep s = .ok (some .writeFailed, t) := by
  simp [txStep, ht, hl, h, Except.map]

/-- The untimed line breaks the phase off when it has sent what it has chosen (R119). -/
theorem txStep_broken {s t : State} (ht : isTimed s = false) (hk : txLimit s ≤ s.port.txK) (h : cutOff s = .ok t) :
    txStep s = .ok (some (txEnding s), popTxChoice t) := by
  rw [txStep_untimed ht, txChosen, if_neg (not_lt.2 hk), h]; rfl

/-- A phase that the untimed line breaks off after `k` characters, or before the last one, ends its command. -/
theorem exec_of_brokenTx {i : Instr} {s t : State} {k : Nat} {o : TxOutcome} (hi : i = .writeBytes ∨ i = .readInputRegs)
    (hp : s.phase = .tx) (ht : isTimed s = false)
    (hc : s.line.txChoices.head? = some (.timeout k) ∨ ∃ cut, s.line.txChoices.head? = some (.failed k cut))
    (hk : k ≤ s.port.txK ∨ txTotal s.latch ≤ s.port.txK + 1) (ho : txEnding s = o) (hne : o ≠ .ok)
    (hcut : cutOff s = .ok t) : exec i s = .next (complete (txResult o) (popTxChoice t)) := by
  have hlim : txLimit s ≤ s.port.txK := by rw [txLimit_of_broken hc]; omega
  exact exec_of_txStep_fails hi hp hne (ho ▸ txStep_broken ht hlim hcut)

theorem cutOff_between {s : State} (h : charInProgress s = false) : cutOff s = .ok s := by
  rw [cutOff, if_neg (by simp [h])]

theorem cutOff_inside {s : State} {b : Byte} (h : charInProgress s = true)
    (hb : Memory.read s.mem (txAddr s.port.txK) = some b) :
    cutOff s = .ok (putWire (wireChar s b (txCharStart s) s.now false) s) := by
  rw [cutOff, if_pos h, hb]

theorem charInProgress_untimed {s : State} (ht : isTimed s = false) : charInProgress s = txChosenCut s := by
  rw [charInProgress, if_neg (by simp [ht])]

/-- Settles O14: the deadline, a line lost in the gap or in TX, and the failures the untimed line chooses. -/
theorem transmitTimeoutAndLineFailure : Obligations.TransmitTimeoutAndLineFailure := by
  unfold Obligations.TransmitTimeoutAndLineFailure
  intro s i hi n sk ek cut popped
  have hn : n = txTotal s.latch := (txTotal_eq _).symm
  refine ⟨fun ht => ?_, fun ht hp => ?_⟩
  · have hsk : sk = txCharStart s := (txCharStart_timed ht).symm
    have hek : ek = txCharEnd s := (txCharEnd_timed ht).symm
    rw [hsk, hek]
    refine ⟨fun hp hl hd => ⟨dueAt_of_late hp ht hl hd, ?_⟩, fun hp hl => ?_, fun hp hl => ?_⟩
    · exact exec_of_txStep_fails hi hp (by simp) (txStep_late ht hl hd)
    · have hlost := lineFailed_of_missing ht (by rw [hp]; rfl) hl
      exact ⟨dueAt_lost hlost, by rw [exec_gap hi hp, gapStep, if_pos hlost]⟩
    · refine ⟨dueAt_lost (lineFailed_of_missing ht (by rw [hp]; rfl) hl), fun h => ?_, fun hs he b hb => ?_⟩
      · have hin : charInProgress s = false := by
          rw [← Bool.not_eq_true, charInProgress_iff ht]
          rintro ⟨he, hs⟩
          exact h.elim (not_le.2 hs) (not_lt.2 he)
        exact exec_of_txStep_fails hi hp (by simp) (txStep_lost ht hl (cutOff_between hin))
      · have hin : charInProgress s = true := (charInProgress_iff ht).2 ⟨he, hs⟩
        exact exec_of_txStep_fails hi hp (by simp) (txStep_lost ht hl (cutOff_inside hin hb))
  · rw [hn]
    refine ⟨dueAt_untimed (by simp [hp]) ht, fun k hc hk => ?_, fun k hc hk => ?_, fun k b hc hk hb => ?_⟩
    · have hin : charInProgress s = false := by rw [charInProgress_untimed ht, txChosenCut, hc]
      exact exec_of_brokenTx hi hp ht (.inl hc) hk (by rw [txEnding, hc]) (by simp) (cutOff_between hin)
    · have hin : charInProgress s = false := by rw [charInProgress_untimed ht, txChosenCut, hc]
      exact exec_of_brokenTx hi hp ht (.inr ⟨_, hc⟩) hk (by rw [txEnding, hc]) (by simp) (cutOff_between hin)
    · have hin : charInProgress s = true := by rw [charInProgress_untimed ht, txChosenCut, hc]
      have hstart : txCharStart s = s.now := if_neg (by simp [ht])
      have hcut := cutOff_inside hin hb
      rw [hstart] at hcut
      exact exec_of_brokenTx hi hp ht (.inr ⟨_, hc⟩) hk (by rw [txEnding, hc]) (by simp) hcut

end Sys2Proof.Machine
end

section
/-! PROOFS. The receive timeout arbiter: what one step of the RX phase stores, and how READ_BYTES and READ_INPUT_REGS end
it (R116, R117, R119, R190). -/

namespace Sys2Proof.Machine

theorem rxMax_eq (l : Latch) : rxMax l = if l.op = 0x00000007 then 5 + 2 * l.count.toNat else l.len.toNat := by
  simp only [rxMax, isRir_iff]

/-! The errors of a character (R116). -/

theorem charErr_iff (r : Regs) (c : LineChar) :
    charErr r c = true ↔ c.framingErr = true ∨ (c.parityErr = true ∧ r.cfgFrame.toNat / 16 % 4 ≠ 0) := by
  have hp : parity r = 0 ↔ r.cfgFrame.toNat / 16 % 4 = 0 := parity_eq_iff
  simp only [charErr, Bool.or_eq_true, Bool.and_eq_true, bne_iff_ne, ne_eq, hp]

/-! One step of the arbiter, by its plan. -/

theorem not_idle_of_receiving {s : State} (hp : s.phase = .rxWait ∨ s.phase = .rxFrame) : s.phase ≠ .idle := by
  rcases hp with hp | hp <;> simp [hp]

theorem wirePhase_of_receiving {s : State} (hp : s.phase = .rxWait ∨ s.phase = .rxFrame) : wirePhase s.phase = true := by
  rcases hp with hp | hp <;> rw [hp] <;> rfl

/-- The step of the arbiter is due when its act is (R116). -/
theorem dueAt_of_rxPlan {s : State} (hp : s.phase = .rxWait ∨ s.phase = .rxFrame) (ht : isTimed s = true)
    (hl : s.line.present = true) : dueAt s = some (max s.now (rxPlan s).time) := by
  rw [dueAt_timed (not_idle_of_receiving hp) ht (lineFailed_of_present hl)]
  rcases hp with hp | hp <;> rw [phaseDue, hp]

theorem rxStep_finish {s : State} {o : RxOutcome} {t : Time} (ht : isTimed s = true) (hl : s.line.present = true)
    (h : rxPlan s = .finish o t) : rxStep s = (some o, s) := by
  simp [rxStep, ht, hl, h]

theorem rxStep_charFail {s : State} {t : Time} (ht : isTimed s = true) (hl : s.line.present = true)
    (h : rxPlan s = .charFail t) :
    rxStep s = (some .failed, { s with line := { s.line with chars := s.line.chars.tail } }) := by
  simp [rxStep, ht, hl, h]

theorem rxStep_store {s : State} {c : LineChar} {t : Time} (ht : isTimed s = true) (hl : s.line.present = true)
    (h : rxPlan s = .store c t) :
    rxStep s = (if s.port.rxN + 1 = rxMax s.latch then some .complete else none, recvChar c s) := by
  simp [rxStep, ht, hl, h]

/-- The line drops in the RX phase of the timed model (R117 (d)). -/
theorem rxStep_lost {s : State} (ht : isTimed s = true) (hl : s.line.present = false) : rxStep s = (some .failed, s) := by
  simp [rxStep, ht, hl]

/-! The plan, by what the line delivers next (R116, R117). -/

/-- No character comes before the silence is over. -/
theorem rxPlan_of_silence {s : State} (hn : 1 ≤ s.port.rxN)
    (h : ∀ c, s.line.chars.head? = some c → s.port.tLast + eofTime s ≤ c.start) :
    rxPlan s =
      if s.port.tLast + eofTime s ≤ s.port.deadline then .finish .complete (s.port.tLast + eofTime s)
      else .finish .timeout s.port.deadline :=
  rxRound_silent hn h

/-- No character comes at all, and none has come. -/
theorem rxPlan_of_nothing {s : State} (hn : s.port.rxN = 0) (h : s.line.chars = []) :
    rxPlan s = .finish .timeout s.port.deadline := by
  simp [rxPlan, rxRound, hn, h]

section
variable {s : State} {c : LineChar} {cs : List LineChar} (hc : s.line.chars = c :: cs)
  (hs : 1 ≤ s.port.rxN → c.start < s.port.tLast + eofTime s)
include hc hs

theorem rxPlan_of_char :
    rxPlan s =
      if s.port.deadline ≤ c.start then .finish .timeout s.port.deadline
      else if s.port.deadline < c.start + charTime s then .finish .timeout s.port.deadline
      else if charErr s.regs c then .charFail (c.start + charTime s)
      else .store c (c.start + charTime s) := by
  rw [rxPlan, hc]; exact rxRound_char hs

theorem rxPlan_of_lateChar (h : s.port.deadline ≤ c.start ∨ s.port.deadline < c.start + charTime s) :
    rxPlan s = .finish .timeout s.port.deadline := by
  rw [rxPlan_of_char hc hs]
  split
  · rfl
  · rw [if_pos (h.resolve_left ‹_›)]

theorem rxPlan_of_timelyChar (hd : c.start < s.port.deadline) (he : c.start + charTime s ≤ s.port.deadline) :
    rxPlan s = if charErr s.regs c then .charFail (c.start + charTime s) else .store c (c.start + charTime s) := by
  rw [rxPlan_of_char hc hs, if_neg (not_le.2 hd), if_neg (not_lt.2 he)]

end

/-! The untimed arbiter (R119). -/

theorem rxStep_untimed {s : State} (ht : isTimed s = false) : rxStep s = rxChosen s := if_pos ht

/-- At the end of an RX phase the untimed line's choice is used up. -/
theorem rxStep_untimed_stores {s : State} {b : Byte} (ht : isTimed s = false)
    (hb : (rxChosenBytes s)[s.port.rxN]? = some b) :
    rxStep s =
      if s.port.rxN + 1 = rxMax s.latch then (some .complete, popRxChoice (recvByte b s.now s))
      else (none, recvByte b s.now s) := by
  rw [rxStep_untimed ht, rxChosen, hb]

theorem rxStep_untimed_ends {s : State} {o : RxOutcome} (ht : isTimed s = false) (ho : rxEnding s = o)
    (h : (rxChosenBytes s).length ≤ s.port.rxN) : rxStep s = (some o, popRxChoice s) := by
  rw [rxStep_untimed ht, rxChosen, List.getElem?_eq_none h, ho]

/-- The bytes of a COMPLETE are cut to M (R119). -/
theorem rxChosenBytes_of_complete {s : State} {bs : List Byte} (h : s.line.rxChoices.head? = some (.complete bs)) :
    rxChosenBytes s = bs.take (rxMax s.latch) := by
  rw [rxChosenBytes, h]

/-- The bytes of a TIMEOUT or a FAILED are cut to M-1 (R119). -/
theorem rxChosenBytes_of_broken {s : State} {bs : List Byte}
    (h : s.line.rxChoices.head? = some (.timeout bs) ∨ s.line.rxChoices.head? = some (.failed bs)) :
    rxChosenBytes s = bs.take (rxMax s.latch - 1) := by
  rcases h with h | h <;> rw [rxChosenBytes, h]

theorem rxEnding_of_complete {s : State} {bs : List Byte} (h : s.line.rxChoices.head? = some (.complete bs))
    (hne : bs ≠ []) : rxEnding s = .complete := by
  cases bs with
  | nil => exact absurd rfl hne
  | cons => rw [rxEnding, h]

/-- An empty COMPLETE and a script that has run out are a silent line (notes/assumptions/9.md). -/
theorem rxChosen_of_silent {s : State}
    (h : s.line.rxChoices.head? = some (.complete []) ∨ s.line.rxChoices.head? = none) :
    rxEnding s = .timeout ∧ rxChosenBytes s = [] := by
  rcases h with h | h <;> simp [rxEnding, rxChosenBytes, h]

/-! The commands on a step of RX (R123, R190). -/

theorem exec_readInputRegs_receiving {s : State} (hp : s.phase = .rxWait ∨ s.phase = .rxFrame) :
    exec .readInputRegs s = .next (rirReceived s) := by
  rcases hp with hp | hp <;> simp only [exec, execReadInputRegs, hp]

theorem exec_of_rxStep_goesOn {i : Instr} {s t : State} (hi : i = .readBytes ∨ i = .readInputRegs)
    (hp : s.phase = .rxWait ∨ s.phase = .rxFrame) (h : rxStep s = (none, t)) : exec i s = .next t := by
  rcases hi with rfl | rfl
  · rcases hp with hp | hp <;> simp only [exec, execReadBytes, hp, h]
  · rw [exec_readInputRegs_receiving hp, rirReceived, h]

theorem exec_readBytes_of_rxStep_ends {s t : State} {o : RxOutcome} (hp : s.phase = .rxWait ∨ s.phase = .rxFrame)
    (h : rxStep s = (some o, t)) :
    exec .readBytes s = .next (complete (rxResult o) (writeRxLen t.port.rxN t)) := by
  rcases hp with hp | hp <;> simp only [exec, execReadBytes, hp, h]

/-- A complete frame goes to DECODE (R190). -/
theorem exec_readInputRegs_of_rxStep_completes {s t : State} (hp : s.phase = .rxWait ∨ s.phase = .rxFrame)
    (h : rxStep s = (some .complete, t)) : exec .readInputRegs s = .next (enterPhase .decode t) := by
  rw [exec_readInputRegs_receiving hp, rirReceived, h]

/-- A failure of the reception is the failure of either command. -/
theorem exec_of_rxStep_fails {i : Instr} {s t : State} {o : RxOutcome} (hi : i = .readBytes ∨ i = .readInputRegs)
    (hp : s.phase = .rxWait ∨ s.phase = .rxFrame) (ho : o ≠ .complete) (h : rxStep s = (some o, t)) :
    exec i s = .next (complete (rxResult o) (writeRxLen t.port.rxN t)) := by
  rcases hi with rfl | rfl
  · exact exec_readBytes_of_rxStep_ends hp h
  · cases o with
    | complete => exact absurd rfl ho
    | timeout | failed => rw [exec_readInputRegs_receiving hp, rirReceived, h]; rfl

/-- Settles O18: the character of a storing plan, or the next byte of the untimed line's choice, is written to its cell. -/
theorem receiveStoresAndEndsByCount : Obligations.ReceiveStoresAndEndsByCount := by
  unfold Obligations.ReceiveStoresAndEndsByCount
  intro s i m hi hp _ stores
  have hm : m = rxMax s.latch := by
    rw [rxMax_eq]
    rcases hi with ⟨-, hop, rfl⟩ | ⟨-, hop, rfl⟩ <;> simp [hop]
  have hi' : i = .readBytes ∨ i = .readInputRegs := hi.imp And.left And.left
  have store : ∀ {b stop goOn last}, rxStep s =
      (if s.port.rxN + 1 = rxMax s.latch then (some .complete, recvByte b stop { s with line := last })
        else (none, recvByte b stop { s with line := goOn })) → stores b stop goOn last := by
    intro b stop goOn last h
    rw [← hm] at h
    refine ⟨Memory.write s.mem (rxAddr s.port.rxN) b, Memory.read_write_same _ _ _,
      fun a ha => Memory.read_write_other _ _ ha, fun hk => ?_, fun hk hr => ?_, fun hk hr => ?_⟩
    · rw [if_neg hk] at h
      exact exec_of_rxStep_goesOn hi' hp h
    · rw [if_pos hk] at h
      exact hr ▸ exec_readBytes_of_rxStep_ends hp h
    · rw [if_pos hk] at h
      exact hr ▸ exec_readInputRegs_of_rxStep_completes hp h
  refine ⟨fun ht hl c cs hc hfr hpar hs hd he => ?_, fun ht bs b hch hb => ⟨?_, store ?_⟩⟩
  · have herr : charErr s.regs c = false := by
      rw [← Bool.not_eq_true, charErr_iff]
      rintro (h | ⟨h, hne⟩)
      · simp [hfr] at h
      · exact hne (hpar h)
    have hplan : rxPlan s = .store c (c.start + charTime s) := by rw [rxPlan_of_timelyChar hc hs hd he, herr]; rfl
    refine ⟨by rw [dueAt_of_rxPlan hp ht hl, hplan]; rfl, store ?_⟩
    rw [rxStep_store ht hl hplan, recvChar, hc]
    split <;> rfl
  · exact dueAt_untimed (not_idle_of_receiving hp) ht
  · have hb' : (rxChosenBytes s)[s.port.rxN]? = some b := by
      rw [← hb]
      rcases hch with ⟨hch, hk⟩ | ⟨hch, hk⟩
      · rw [rxChosenBytes_of_complete hch]; exact List.getElem?_take_of_lt (by omega)
      · rw [rxChosenBytes_of_broken hch]; exact List.getElem?_take_of_lt (by omega)
    rw [rxStep_untimed_stores ht hb']
    rfl

/-- Settles O19: a plan that finishes by silence or at the deadline, or the end of the untimed line's choice. -/
theorem readBytesEndsBySilenceOrTimeout : Obligations.ReadBytesEndsBySilenceOrTimeout := by
  unfold Obligations.ReadBytesEndsBySilenceOrTimeout
  intro s i hi m tEof lenWritten completes timesOut timesOutAtDeadline popped hp
  have hm : m = rxMax s.latch := (rxMax_eq _).symm
  have complete_of : ∀ {line}, rxStep s = (some .complete, { s with line := line }) → completes line := fun h =>
    ⟨fun hr => hr ▸ exec_readBytes_of_rxStep_ends hp h, fun hr => hr ▸ exec_readInputRegs_of_rxStep_completes hp h⟩
  have timeout_of : ∀ {line}, rxStep s = (some .timeout, { s with line := line }) → timesOut line := fun h =>
    exec_of_rxStep_fails hi hp (by simp) h
  refine ⟨fun ht hl => ?_, fun ht => ⟨dueAt_untimed (not_idle_of_receiving hp) ht, ?_⟩⟩
  · have deadline_of : rxPlan s = .finish .timeout s.port.deadline → timesOutAtDeadline := fun h =>
      ⟨by rw [dueAt_of_rxPlan hp ht hl, h]; rfl, timeout_of (rxStep_finish ht hl h)⟩
    refine ⟨fun hn hsil => ?_, fun hn hc => deadline_of (rxPlan_of_nothing hn hc), fun c cs hc hs hd =>
      deadline_of (rxPlan_of_lateChar hc hs hd)⟩
    have hplan := rxPlan_of_silence hn hsil
    refine ⟨fun hd => ?_, fun hd => deadline_of (hplan.trans (if_neg (not_le.2 hd)))⟩
    replace hplan := hplan.trans (if_pos hd)
    exact ⟨by rw [dueAt_of_rxPlan hp ht hl, hplan]; rfl, complete_of (rxStep_finish ht hl hplan)⟩
  · refine ⟨fun bs hc hne hk => complete_of (rxStep_untimed_ends ht (rxEnding_of_complete hc hne) ?_),
      fun bs hc hk => timeout_of (rxStep_untimed_ends ht (by rw [rxEnding, hc]) ?_), fun hc => timeout_of ?_⟩
    · rw [rxChosenBytes_of_complete hc, List.length_take]; omega
    · rw [rxChosenBytes_of_broken (.inl hc), List.length_take]; omega
    · obtain ⟨ho, hb⟩ := rxChosen_of_silent (hc.imp id fun h => by rw [h]; rfl)
      exact rxStep_untimed_ends ht ho (by simp [hb])

/-- Settles O20: a lost line, a failing plan, or the end of the bytes that the untimed line's failure stores. -/
theorem readBytesFailsOnErrorOrLineDrop : Obligations.ReadBytesFailsOnErrorOrLineDrop := by
  unfold Obligations.ReadBytesFailsOnErrorOrLineDrop
  intro s i hi hp m fails
  have hm : m = rxMax s.latch := (rxMax_eq _).symm
  have fail_of : ∀ {line}, rxStep s = (some .failed, { s with line := line }) → fails line := fun h =>
    exec_of_rxStep_fails hi hp (by simp) h
  refine ⟨fun ht hl => ?_, fun ht hl c cs hc herr hs hd he => ?_, fun ht bs hc hk => ⟨?_, fail_of ?_⟩⟩
  · exact ⟨dueAt_lost (lineFailed_of_missing ht (wirePhase_of_receiving hp) hl), fail_of (rxStep_lost ht hl)⟩
  · have hplan := (rxPlan_of_timelyChar hc hs hd he).trans (if_pos ((charErr_iff _ _).2 herr))
    have hstep := rxStep_charFail ht hl hplan
    rw [hc] at hstep
    exact ⟨by rw [dueAt_of_rxPlan hp ht hl, hplan]; rfl, fail_of hstep⟩
  · exact dueAt_untimed (not_idle_of_receiving hp) ht
  · refine rxStep_untimed_ends ht (by rw [rxEnding, hc]) ?_
    rw [rxChosenBytes_of_broken (.inr hc), List.length_take]; omega

end Sys2Proof.Machine
end

section
/-! PROOFS. The runs of a whole wire phase: with the environment quiet, the machine's steps through TX do what the transmit
engine of R114 does, and its steps through RX what the arbiter of R116 does. -/

namespace Sys2Proof.Machine

/-! Runs. -/

/-- A run of the machine leads from `s` to `t`. -/
def Reaches (s t : State) : Prop := ∃ n, Host.Core.run core n s = .next t

theorem Reaches.refl (s : State) : Reaches s s := ⟨0, rfl⟩

theorem run_of_step {s u : State} (h : step s = .next u) (n : Nat) :
    Host.Core.run core (n + 1) s = Host.Core.run core n u := by
  have hcore : core.step s = .next u := h
  simp only [Host.Core.run, hcore]

theorem Reaches.head {s u t : State} (h : step s = .next u) (ht : Reaches u t) : Reaches s t := by
  obtain ⟨n, hn⟩ := ht
  exact ⟨n + 1, (run_of_step h n).trans hn⟩

/-! A quiet environment: the sequencer has every turn, and the clock goes to it. -/

/-- The host and the inputs do nothing more. -/
structure Quiet (s : State) : Prop where
  env : s.env = []
  changes : s.line.changes = []
  resets : s.resets = []

section
variable {s : State} (h : Quiet s)
include h

theorem Quiet.hostDue : hostDue s = none := by simp [Machine.hostDue, nextHost, h.env]

theorem Quiet.nextLine : nextLine s = none := by simp [Machine.nextLine, h.changes]

theorem Quiet.lineDue : lineDue s = none := by simp [Machine.lineDue, h.nextLine]

theorem Quiet.resetDue : resetDue s = none := by simp [Machine.resetDue, nextReset, h.resets]

/-- The clock goes to the instant the sequencer is due. -/
theorem Quiet.step_clock {d : Time} (hd : dueAt s = some d) (hn : s.now < d) : step s = .next (advance d s) := by
  have hseq : sequencerTurn s = none := by simp [sequencerTurn, sequencerDue, hd, hn]
  have hnow : turnNow s = none := by rw [turnNow_of_inputs h.resetDue h.lineDue, hostOrSequencer, h.hostDue, hseq]
  have hnext : nextInstant s = some d := by
    simp [nextInstant, nextReset, nextHost, h.resets, h.nextLine, h.env, hd, earlier]
  have hturn : nextTurn s = .clock d := by rw [nextTurn, hnow, hnext]
  rw [step, hturn]

end

theorem now_le_dueAt {s : State} {d : Time} (hd : dueAt s = some d) : s.now ≤ d := by
  unfold dueAt at hd
  split at hd
  · cases hd
  · split at hd <;> cases hd
    · exact le_rfl
    · exact le_max_left ..

/-- In the timed model the end of a character does not move with the clock. -/
theorem txCharEnd_advance {s : State} (t : Time) (ht : isTimed s = true) : txCharEnd (advance t s) = txCharEnd s := by
  rw [txCharEnd_timed ht, txCharEnd_timed (s := advance t s) ht]; rfl

/-- Nor does the end of a phase. -/
theorem phaseDue_advance {s : State} (t : Time) (ht : isTimed s = true) (hp : s.phase ≠ .idle) :
    phaseDue (advance t s) = phaseDue s := by
  have he := txCharEnd_advance t ht
  cases hph : s.phase with
  | idle => exact absurd hph hp
  | tx => simp [phaseDue, hph, txDue, txInTime, he]
  | _ => simp only [phaseDue, advance_phase, hph]; rfl

/-- At the instant it is due, the sequencer is still due. -/
theorem dueAt_advance {s : State} {d : Time} (hd : dueAt s = some d) : dueAt (advance d s) = some d := by
  have hp := (busy_iff s).1 (dueAt_busy hd)
  by_cases hnow : isTimed s = false ∨ lineFailed s = true
  · have hs : dueAt s = some s.now := hnow.elim (dueAt_untimed hp) dueAt_lost
    cases hs.symm.trans hd
    exact hd
  · obtain ⟨ht, hl⟩ := not_or.1 hnow
    rw [Bool.not_eq_false] at ht
    rw [Bool.not_eq_true] at hl
    rw [dueAt_timed hp ht hl] at hd
    rw [dueAt_timed (s := advance d s) hp ht hl, phaseDue_advance d ht hp, advance_now,
      max_eq_left ((le_max_right _ _).trans (Option.some.inj hd).le)]

/-- The command's next step, at the instant it is due. -/
theorem Quiet.reaches_of_exec {s u t : State} {d : Time} (h : Quiet s) (hd : dueAt s = some d)
    (he : exec (fetchInstr s) (advance d s) = .next u) (ht : Reaches u t) : Reaches s t := by
  have hq : Quiet (advance d s) := ⟨h.env, h.changes, h.resets⟩
  have hstep : step (advance d s) = .next u :=
    (step_of_sequencer_alone (dueAt_advance hd) le_rfl hq.hostDue hq.lineDue hq.resetDue).trans he
  rcases (now_le_dueAt hd).eq_or_lt with hn | hn
  · subst hn
    exact .head hstep ht
  · exact .head (h.step_clock hd hn) (.head hstep ht)

theorem fetchInstr_of_command {s : State} (hp : s.phase ≠ .decode) : fetchInstr s = decodeCmd s.latch.op := by
  simp [fetchInstr, hp]

/-! The transmit engine (R114). -/

/-- WRITE_BYTES in TX of the timed model, at the start of a character, with the bytes still to send in TXBUF and a quiet
environment. -/
structure Transmitting (s : State) (bs : List Byte) : Prop where
  phase : s.phase = .tx
  op : s.latch.op = 0x00000003
  timed : isTimed s = true
  present : s.line.present = true
  quiet : Quiet s
  now : s.now = s.phaseAt + (s.port.txK : Time) * charTime s
  inTime : s.now ≤ s.port.deadline
  count : s.port.txK + bs.length = s.latch.len.toNat
  cells : Memory.readCells s.mem (txAddr s.port.txK) bs.length = bs.map some

/-- The transmission from `s` on has ended in `t` with the outcome at the time, `k` bytes having been sent in all, and
nothing else has changed. -/
structure Transmitted (s t : State) (bs : List Byte) (o : TxOutcome) (k : Nat) (tm : Time) : Prop where
  completes : completesAs (txResult o) s t
  now : t.now = tm
  count : s.port.txK ≤ k
  wire : t.seen.wire.map (fun c => (c.byte, c.whole)) =
    s.seen.wire.map (fun c => (c.byte, c.whole)) ++ (bs.take (k - s.port.txK)).map (fun b => (b, true))
  tLast : t.port.tLast = if k = s.port.txK then s.port.tLast else s.phaseAt + (k : Time) * charTime s
  mem : t.mem = s.mem
  regs : t.regs = s.regs
  isOpen : t.port.isOpen = s.port.isOpen

/-- A completion sends nothing more. -/
theorem transmitted_of_complete (s : State) (bs : List Byte) (o : TxOutcome) (tm : Time) :
    Transmitted s (complete (txResult o) (advance tm s)) bs o s.port.txK tm where
  completes := complete_completesAs _ rfl
  now := rfl
  count := le_rfl
  wire := by simp
  tLast := by simp
  mem := rfl
  regs := rfl
  isOpen := rfl

/-- A character ends where the next one starts (R114). -/
theorem txCharEnd_eq_succ {s : State} (ht : isTimed s = true) :
    txCharEnd s = s.phaseAt + ((s.port.txK + 1 : Nat) : Time) * charTime s := by
  rw [txCharEnd_timed ht]
  push_cast
  ring

/-- The state after the next character. -/
def charSent (b : Byte) (s : State) : State := sendChar b (advance (txCharEnd s) s)

/-- A character sent before the rest of the transmission. -/
theorem Transmitted.cons {s t : State} {b : Byte} {bs : List Byte} {o : TxOutcome} {k : Nat} {tm : Time}
    (ht : isTimed s = true) (h : Transmitted (charSent b s) t bs o k tm) : Transmitted s t (b :: bs) o k tm := by
  have hk : s.port.txK + 1 ≤ k := h.count
  have hend : (charSent b s).port.tLast = s.phaseAt + ((s.port.txK + 1 : Nat) : Time) * charTime s :=
    (txCharEnd_advance _ ht).trans (txCharEnd_eq_succ ht)
  refine ⟨h.completes, h.now, by omega, ?_, ?_, h.mem, h.regs, h.isOpen⟩
  · obtain ⟨j, rfl⟩ := Nat.exists_eq_add_of_le hk
    have htake : s.port.txK + 1 + j - s.port.txK = j + 1 := by omega
    have hrest : s.port.txK + 1 + j - (charSent b s).port.txK = j := Nat.add_sub_cancel_left ..
    rw [h.wire, hrest, htake]
    simp [charSent, sendChar, wireChar]
  · rw [h.tLast, if_neg (by omega : k ≠ s.port.txK)]
    split
    · rename_i hk1
      rw [hk1]
      exact hend
    · rfl

theorem Transmitting.next {s : State} {b : Byte} {bs : List Byte} (h : Transmitting s (b :: bs))
    (he : txCharEnd s ≤ s.port.deadline) : Transmitting (charSent b s) bs := by
  have hcells := h.cells
  rw [List.length_cons, Memory.readCells, List.map_cons, List.cons.injEq] at hcells
  refine ⟨h.phase, h.op, h.timed, h.present, ⟨h.quiet.env, h.quiet.changes, h.quiet.resets⟩,
    txCharEnd_eq_succ h.timed, he, ?_, hcells.2⟩
  · have hcount := h.count
    rw [List.length_cons, Nat.add_comm bs.length, ← Nat.add_assoc] at hcount
    exact hcount

/-- The byte of the next character stands in its cell. -/
theorem Transmitting.cell {s : State} {b : Byte} {bs : List Byte} (h : Transmitting s (b :: bs)) :
    Memory.read s.mem (txAddr s.port.txK) = some b := by
  have hcells := h.cells
  rw [List.length_cons, Memory.readCells, List.map_cons, List.cons.injEq] at hcells
  exact hcells.1

/-- The next step of the transmission is WRITE_BYTES at the end of the character, or at the deadline. -/
theorem Transmitting.reaches_of_exec {s u t : State} {bs : List Byte} (h : Transmitting s bs)
    (he : exec .writeBytes (advance (txDue s) s) = .next u) (ht : Reaches u t) : Reaches s t := by
  have hle : s.now ≤ txDue s := by
    unfold txDue
    split
    · rw [txCharEnd_timed h.timed, ← h.now]
      exact le_add_of_nonneg_right (charTime_nonneg s)
    · exact h.inTime
  have hdue := dueAt_timed (by simp [h.phase]) h.timed (lineFailed_of_present h.present)
  rw [phaseDue, h.phase, max_eq_right hle] at hdue
  refine h.quiet.reaches_of_exec hdue ?_ ht
  rw [fetchInstr_of_command (by simp [h.phase]), h.op]
  exact he

theorem txEngine_late {tStart tc deadline : Time} {n fuel k : Nat} (hk : k < n)
    (hd : deadline < tStart + (k : Time) * tc + tc) :
    txEngine tStart tc deadline n (fuel + 1) k = (.writeTimeout, k, deadline) := by
  rw [txEngine, if_neg (not_le.2 hk), if_pos hd]

theorem txEngine_sends {tStart tc deadline : Time} {n fuel k : Nat} (hk : k < n)
    (hd : tStart + (k : Time) * tc + tc ≤ deadline) :
    txEngine tStart tc deadline n (fuel + 1) k = txEngine tStart tc deadline n fuel (k + 1) := by
  rw [txEngine, if_neg (not_le.2 hk), if_neg (not_lt.2 hd)]

theorem Transmitting.total {s : State} {bs : List Byte} (h : Transmitting s bs) :
    txTotal s.latch = s.port.txK + bs.length := by
  rw [txTotal_eq, h.op, h.count]; rfl

/-- The deadline comes before the end of the next character. -/
theorem Transmitting.exec_late {s : State} {bs : List Byte} (h : Transmitting s bs) (hd : s.port.deadline < txCharEnd s) :
    exec .writeBytes (advance (txDue s) s) = .next (complete (.io .writeTimeout) (advance s.port.deadline s)) := by
  have hdue : txDue s = s.port.deadline := if_neg (by simp [(not_txInTime_iff s).2 hd])
  rw [hdue]
  refine exec_writeBytes_of_txStep_ends (s := advance s.port.deadline s) h.phase
    (txStep_late (s := advance s.port.deadline s) h.timed h.present ?_)
  rw [txCharEnd_advance _ h.timed]
  exact hd

section
variable {s : State} {b : Byte} {bs : List Byte} (h : Transmitting s (b :: bs)) (hd : txCharEnd s ≤ s.port.deadline)
include h hd

/-- The next character goes. -/
theorem Transmitting.goes : txDue s = txCharEnd s ∧ txGoes (advance (txCharEnd s) s) := by
  refine ⟨if_pos ((txInTime_iff s).2 hd), (txGoes_timed (s := advance (txCharEnd s) s) h.timed).2 ⟨h.present, ?_⟩⟩
  rw [txCharEnd_advance _ h.timed]
  exact hd

/-- More characters follow. -/
theorem Transmitting.exec_sends (hbs : bs ≠ []) :
    exec .writeBytes (advance (txDue s) s) = .next (charSent b s) := by
  obtain ⟨hdue, hg⟩ := h.goes hd
  rw [hdue]
  have hk : s.port.txK + 1 < txTotal s.latch := by
    have := List.length_pos_of_ne_nil hbs
    rw [h.total, List.length_cons]
    omega
  exact exec_of_txStep_goesOn (.inl rfl) h.phase (txStep_sends hg h.cell hk)

/-- It is the last one. -/
theorem Transmitting.exec_sendsLast (hbs : bs = []) :
    exec .writeBytes (advance (txDue s) s) = .next (complete .ok (charSent b s)) := by
  obtain ⟨hdue, hg⟩ := h.goes hd
  have hk : txTotal s.latch ≤ s.port.txK + 1 := by rw [h.total, hbs]; rfl
  have hstep := txStep_sendsLast hg h.cell hk
  rw [endTx_timed (s := sendChar b (advance (txCharEnd s) s)) h.timed] at hstep
  rw [hdue]
  exact exec_writeBytes_of_txStep_ends (s := advance (txCharEnd s) s) h.phase hstep

end

/-- The machine's steps from the start of a character on do what the engine does from there (R114). -/
theorem Transmitting.run {bs : List Byte} (hne : bs ≠ []) :
    ∀ {s : State} {o : TxOutcome} {k : Nat} {tm : Time}, Transmitting s bs →
      txEngine s.phaseAt (charTime s) s.port.deadline s.latch.len.toNat bs.length s.port.txK = (o, k, tm) →
      ∃ t, Reaches s t ∧ Transmitted s t bs o k tm := by
  induction bs with
  | nil => exact absurd rfl hne
  | cons b bs ih =>
    intro s o k tm h he
    have hk : s.port.txK < s.latch.len.toNat := by rw [← h.count, List.length_cons]; omega
    by_cases hd : txCharEnd s ≤ s.port.deadline
    · rw [List.length_cons, txEngine_sends hk (txCharEnd_timed h.timed ▸ hd)] at he
      by_cases hbs : bs = []
      · have hlast : Transmitted (charSent b s) (complete .ok (charSent b s)) bs .ok (s.port.txK + 1) (txCharEnd s) :=
          transmitted_of_complete (charSent b s) bs .ok (txCharEnd s)
        rw [hbs, List.length_nil, txEngine, ← txCharEnd_eq_succ h.timed] at he
        cases he
        exact ⟨_, h.reaches_of_exec (h.exec_sendsLast hd hbs) (.refl _), hlast.cons h.timed⟩
      · obtain ⟨t, hr, r⟩ := ih hbs (h.next hd) he
        exact ⟨t, h.reaches_of_exec (h.exec_sends hd hbs) hr, r.cons h.timed⟩
    · rw [not_le] at hd
      rw [List.length_cons, txEngine_late hk (txCharEnd_timed h.timed ▸ hd)] at he
      cases he
      exact ⟨_, h.reaches_of_exec (h.exec_late hd) (.refl _), transmitted_of_complete s _ .writeTimeout _⟩

/-- Settles O15: a transmission from the start of TX on. -/
theorem txPhaseRefinesTransmitEngine : Obligations.TxPhaseRefinesTransmitEngine := by
  unfold Obligations.TxPhaseRefinesTransmitEngine
  intro s bs o k tm hp hop ht hl henv hch hres hk hnow hd _ h1 _ hcells he
  have hlen : s.latch.len.toNat = bs.length := by simpa using congrArg List.length hcells
  have hne : bs ≠ [] := List.ne_nil_of_length_pos (by omega)
  have h : Transmitting s bs :=
    ⟨hp, hop, ht, hl, ⟨henv, hch, hres⟩, by simp [hk, hnow], hnow ▸ hd, by rw [hk, hlen, Nat.zero_add],
      by rw [hk, ← hlen]; exact hcells⟩
  have hengine : txEngine s.phaseAt (charTime s) s.port.deadline s.latch.len.toNat bs.length s.port.txK = (o, k, tm) := by
    rw [hk, ← hlen]; exact he
  obtain ⟨t, ⟨n, hn⟩, r⟩ := h.run hne hengine
  have hwire := r.wire
  have htLast := r.tLast
  rw [hk] at hwire htLast
  exact ⟨n, t, hn, r.completes, r.now, hwire, htLast, fun a => by rw [r.mem], r.regs, r.isOpen⟩

end Sys2Proof.Machine
end

section
/-! PROOFS. The run of a whole RX phase: with the environment quiet, the machine's steps do what the arbiter of R116 does. -/

namespace Sys2Proof.Machine

/-! The arbiter of R116, round by round. -/

section
variable {r : Regs} {tc tEof deadline tLast t : Time} {m n : Nat} {cs : List LineChar}

/-- A round that finishes is the last one, and stores nothing. -/
theorem arbiter_of_finish {o : RxOutcome} (h : rxRound r tc tEof deadline n tLast cs.head? = .finish o t) :
    arbiter r tc tEof deadline m cs n tLast = (o, [], t) := by
  cases cs with
  | nil =>
    simp only [rxRound, List.head?_nil, and_true] at h
    unfold arbiter
    split_ifs at h ⊢ <;> cases h <;> rfl
  | cons c cs =>
    simp only [rxRound, List.head?_cons, decide_eq_true_eq] at h
    unfold arbiter
    split_ifs at h ⊢ <;> cases h <;> rfl

/-- So is a round whose character has an error. -/
theorem arbiter_of_charFail (h : rxRound r tc tEof deadline n tLast cs.head? = .charFail t) :
    arbiter r tc tEof deadline m cs n tLast = (.failed, [], t) := by
  cases cs with
  | nil =>
    simp only [rxRound, List.head?_nil, and_true] at h
    split_ifs at h
  | cons c cs =>
    simp only [rxRound, List.head?_cons, decide_eq_true_eq] at h
    unfold arbiter
    split_ifs at h ⊢
    cases h
    rfl

/-- A round that stores a character is the last one by count, or the arbiter goes on behind it. -/
theorem arbiter_of_store {c : LineChar} {o : RxOutcome} {bs : List Byte} {tm : Time}
    (h : rxRound r tc tEof deadline n tLast cs.head? = .store c t)
    (ha : arbiter r tc tEof deadline m cs n tLast = (o, bs, tm)) :
    (n + 1 = m ∧ o = .complete ∧ bs = [c.byte] ∧ tm = t) ∨
      (n + 1 ≠ m ∧ ∃ bs', bs = c.byte :: bs' ∧ arbiter r tc tEof deadline m cs.tail (n + 1) t = (o, bs', tm)) := by
  obtain ⟨hc, rfl, -⟩ := rxRound_store h
  cases cs with
  | nil => cases hc
  | cons d cs =>
    cases hc
    simp only [rxRound, List.head?_cons, decide_eq_true_eq] at h
    unfold arbiter at ha
    split_ifs at h ha
    · cases ha; exact .inl ⟨‹_›, rfl, rfl, rfl⟩
    · cases ha; exact .inr ⟨‹_›, _, rfl, rfl⟩

/-- An act of the arbiter is the deadline, the end of the silence, or the end of the next character. -/
theorem le_rxRound_time {now : Time} {oc : Option LineChar} (hd : now ≤ deadline) (hs : 1 ≤ n → now ≤ tLast + tEof)
    (hc : ∀ c, oc = some c → now ≤ c.start + tc) : now ≤ (rxRound r tc tEof deadline n tLast oc).time := by
  unfold rxRound
  cases oc with
  | none =>
    simp only
    split
    · split
      · exact hs (And.left ‹_›)
      · exact hd
    · exact hd
  | some c =>
    simp only
    split
    · split
      · exact hs (And.left ‹_›)
      · exact hd
    · split
      · exact hd
      · split
        · exact hd
        · split <;> exact hc c rfl

end

/-- READ_BYTES in an RX phase of the timed model, `rxN` characters received, the next one yet to come, and a quiet
environment. -/
structure Receiving (s : State) : Prop where
  phase : s.phase = .rxWait ∨ s.phase = .rxFrame
  op : s.latch.op = 0x00000004
  timed : isTimed s = true
  present : s.line.present = true
  quiet : Quiet s
  legal : s.params.legal = true
  inTime : s.now ≤ s.port.deadline
  tLast : 1 ≤ s.port.rxN → s.now = s.port.tLast
  next : ∀ c, s.line.chars.head? = some c → s.now ≤ c.start
  allowed : lineAllowed (charTime s) s.line.chars

/-- The reception from `s` on has ended in `t` with the outcome at the time, with the bytes stored, and nothing else has
changed. -/
structure Received (s t : State) (o : RxOutcome) (bs : List Byte) (tm : Time) : Prop where
  completes : completesAs (rxResult o) s t
  now : t.now = tm
  regs : t.regs = { s.regs with rxLen := BitVec.ofNat 9 (s.port.rxN + bs.length) }
  mem : t.mem = Memory.writeCells s.mem (rxAddr s.port.rxN) bs
  isOpen : t.port.isOpen = s.port.isOpen

/-- A completion stores nothing more. -/
theorem received_of_complete (s : State) (o : RxOutcome) (line : Line) (tm : Time) :
    Received s (complete (rxResult o) (writeRxLen s.port.rxN { advance tm s with line := line })) o [] tm :=
  ⟨complete_completesAs _ rfl, rfl, rfl, rfl, rfl⟩

/-- The state after the next character is stored. -/
def charStored (c : LineChar) (s : State) : State := recvChar c (advance (c.start + charTime s) s)

/-- A character stored before the rest of the reception. -/
theorem Received.cons {s t : State} {c : LineChar} {o : RxOutcome} {bs : List Byte} {tm : Time}
    (h : Received (charStored c s) t o bs tm) : Received s t o (c.byte :: bs) tm := by
  have hregs := h.regs
  have hn : (charStored c s).port.rxN + bs.length = s.port.rxN + (c.byte :: bs).length := by
    rw [List.length_cons, Nat.add_comm bs.length, ← Nat.add_assoc]; rfl
  rw [hn] at hregs
  exact ⟨h.completes, h.now, hregs, h.mem, h.isOpen⟩

/-- The end-of-frame silence of legal parameters (R9, R112). -/
theorem eofTime_nonneg {s : State} (h : s.params.legal = true) : 0 ≤ eofTime s := by
  simp only [Params.legal, Bool.and_eq_true, decide_eq_true_eq] at h
  exact mul_nonneg h.1.2.le (charTime_nonneg s)

/-- The arbiter's next act is not in the past. -/
theorem Receiving.now_le_rxPlan {s : State} (h : Receiving s) : s.now ≤ (rxPlan s).time := by
  refine le_rxRound_time h.inTime (fun hn => ?_) fun c hc => ?_
  · rw [h.tLast hn]
    exact le_add_of_nonneg_right (eofTime_nonneg h.legal)
  · exact (h.next c hc).trans (le_add_of_nonneg_right (charTime_nonneg s))

/-- The next step of the reception is READ_BYTES at the arbiter's next act. -/
theorem Receiving.reaches_of_exec {s u t : State} (h : Receiving s)
    (he : exec .readBytes (advance (rxPlan s).time s) = .next u) (ht : Reaches u t) : Reaches s t := by
  have hdue := dueAt_of_rxPlan h.phase h.timed h.present
  rw [max_eq_right h.now_le_rxPlan] at hdue
  refine h.quiet.reaches_of_exec hdue ?_ ht
  rw [fetchInstr_of_command (by rcases h.phase with hp | hp <;> simp [hp]), h.op]
  exact he

/-- Behind a character of an allowed line the line is allowed, and starts no earlier than its end (R116). -/
theorem lineAllowed_tail {tc : Time} {c : LineChar} {cs : List LineChar} (h : lineAllowed tc (c :: cs)) :
    (∀ d, cs.head? = some d → c.start + tc ≤ d.start) ∧ lineAllowed tc cs := by
  cases cs with
  | nil => exact ⟨by simp, trivial⟩
  | cons d cs => exact ⟨by rintro _ ⟨⟩; exact h.1, h.2⟩

/-- A stored character leaves the reception at the next one. -/
theorem Receiving.stored {s : State} {c : LineChar} {t : Time} (h : Receiving s) (hplan : rxPlan s = .store c t) :
    t = c.start + charTime s ∧ s.line.chars = c :: s.line.chars.tail ∧ Receiving (charStored c s) := by
  obtain ⟨hc, rfl, hd, -⟩ := rxRound_store hplan
  have hcs : s.line.chars = c :: s.line.chars.tail := (List.cons_head?_tail hc).symm
  have hall := h.allowed
  rw [hcs] at hall
  obtain ⟨hnext, hall⟩ := lineAllowed_tail hall
  exact ⟨rfl, hcs, .inr rfl, h.op, h.timed, h.present, ⟨h.quiet.env, h.quiet.changes, h.quiet.resets⟩, h.legal, hd,
    fun _ => rfl, hnext, hall⟩

/-- The machine's steps from one act of the arbiter on do what the arbiter does from there (R116). -/
theorem Receiving.run {s : State} {o : RxOutcome} {bs : List Byte} {tm : Time} (h : Receiving s)
    (ha : arbiter s.regs (charTime s) (eofTime s) s.port.deadline s.latch.len.toNat s.line.chars s.port.rxN s.port.tLast =
      (o, bs, tm)) : ∃ t, Reaches s t ∧ Received s t o bs tm := by
  cases hplan : rxPlan s with
  | finish o' e =>
    cases (arbiter_of_finish hplan).symm.trans ha
    have hstep := rxStep_finish (s := advance tm s) h.timed h.present hplan
    have hexec := exec_readBytes_of_rxStep_ends (s := advance tm s) h.phase hstep
    exact ⟨_, h.reaches_of_exec (by rw [hplan]; exact hexec) (.refl _), received_of_complete s o s.line tm⟩
  | charFail e =>
    cases (arbiter_of_charFail hplan).symm.trans ha
    have hstep := rxStep_charFail (s := advance tm s) h.timed h.present hplan
    have hexec := exec_readBytes_of_rxStep_ends (s := advance tm s) h.phase hstep
    exact ⟨_, h.reaches_of_exec (by rw [hplan]; exact hexec) (.refl _), received_of_complete s .failed _ tm⟩
  | store c e =>
    have hmax : rxMax s.latch = s.latch.len.toNat := by rw [rxMax_eq, h.op]; rfl
    obtain ⟨rfl, hcs, hnext⟩ := h.stored hplan
    have hstep : rxStep (advance (c.start + charTime s) s) =
        (if s.port.rxN + 1 = rxMax s.latch then some .complete else none, charStored c s) :=
      rxStep_store (s := advance (c.start + charTime s) s) h.timed h.present hplan
    rcases arbiter_of_store hplan ha with ⟨hm, rfl, rfl, rfl⟩ | ⟨hm, bs', rfl, ha'⟩
    · rw [if_pos (hm.trans hmax.symm)] at hstep
      have hexec := exec_readBytes_of_rxStep_ends (s := advance (c.start + charTime s) s) h.phase hstep
      have hlast := received_of_complete (charStored c s) .complete (charStored c s).line (c.start + charTime s)
      exact ⟨_, h.reaches_of_exec (by rw [hplan]; exact hexec) (.refl _), hlast.cons⟩
    · rw [if_neg (fun hk => hm (hk.trans hmax))] at hstep
      have hexec := exec_of_rxStep_goesOn (s := advance (c.start + charTime s) s) (.inl rfl) h.phase hstep
      obtain ⟨t, hr, hrec⟩ := hnext.run ha'
      exact ⟨t, h.reaches_of_exec (by rw [hplan]; exact hexec) hr, hrec.cons⟩
termination_by s.line.chars.length
decreasing_by
  change s.line.chars.tail.length < s.line.chars.length
  rw [hcs]
  exact Nat.lt_succ_self _

/-- Settles O21: a reception from the start of the RX phase on. -/
theorem rxPhaseRefinesArbiter : Obligations.RxPhaseRefinesArbiter := by
  unfold Obligations.RxPhaseRefinesArbiter
  intro s o bs tm hp hop ht hl henv hch hres hn hd _ hleg _ _ hstart hall ha
  have h : Receiving s :=
    ⟨.inl hp, hop, ht, hl, ⟨henv, hch, hres⟩, hleg, hd, by simp [hn], fun c hc => hstart c (List.mem_of_head? hc), hall⟩
  have harb : arbiter s.regs (charTime s) (eofTime s) s.port.deadline s.latch.len.toNat s.line.chars s.port.rxN
      s.port.tLast = (o, bs, tm) := by rw [hn]; exact ha
  obtain ⟨t, ⟨n, hrun⟩, r⟩ := h.run harb
  have hregs := r.regs
  have hmem := r.mem
  rw [hn, Nat.zero_add] at hregs
  rw [hn] at hmem
  refine ⟨n, t, hrun, r.completes, r.now, hregs, ?_, fun a hne => ?_, r.isOpen⟩
  · rw [hmem]; exact Memory.readCells_writeCells bs s.mem (rxAddr 0)
  · rw [hmem]; exact Memory.read_writeCells_other bs s.mem (rxAddr 0) a hne

end Sys2Proof.Machine
end

section
/-! PROOFS. The CRC generator: crcStep as R151's eight rounds, injective in the value and in the byte, so that it ends a
frame at 0 exactly when the frame's last two bytes carry its CRC (R150, R151, R158). -/

namespace Sys2Proof.Machine

/-! One round (R151). -/

theorem getLsbD_zero_iff (c : Half) : c.getLsbD 0 = true ↔ c % 2 = 1 := by
  rw [← BitVec.toNat_inj, BitVec.toNat_umod, BitVec.getLsbD, Nat.testBit_zero, decide_eq_true_iff]
  rfl

theorem crcBit_eq (c : Half) : crcBit c = if c % 2 = 1 then (c >>> 1) ^^^ 0xA001 else c >>> 1 := by
  simp only [crcBit, getLsbD_zero_iff]

/-- Bit 15 of 0xA001 is 1, so that a round moves the bit it shifts out to the top. -/
theorem getLsbD_crcBit (c : Half) : (crcBit c).getLsbD 15 = c.getLsbD 0 := by
  unfold crcBit
  split <;> simp_all

/-- Halves that agree in bit 0 and in the bits above it are equal. -/
theorem eq_of_shiftRight_one {c d : Half} (h0 : c.getLsbD 0 = d.getLsbD 0) (hs : c >>> 1 = d >>> 1) : c = d := by
  apply BitVec.eq_of_getLsbD_eq
  intro i hi
  cases i with
  | zero => exact h0
  | succ i => simpa [Nat.add_comm] using congrArg (·.getLsbD i) hs

/-- The bit shifted out is told by bit 15, and the rest by the shift. -/
theorem crcBit_injective : Function.Injective crcBit := by
  intro c d h
  have h0 : c.getLsbD 0 = d.getLsbD 0 := by rw [← getLsbD_crcBit, h, getLsbD_crcBit]
  refine eq_of_shiftRight_one h0 ?_
  simp only [crcBit, h0] at h
  split at h
  · exact (BitVec.xor_left_inj _).1 h
  · exact h

theorem crcRounds_injective (n : Nat) : Function.Injective (crcRounds n) := by
  induction n with
  | zero => exact Function.injective_id
  | succ n ih => exact ih.comp crcBit_injective

/-- With zeros in the bits that are shifted out, the rounds only shift. -/
theorem crcRounds_of_low_zero (n : Nat) : ∀ c : Half, (∀ i < n, c.getLsbD i = false) → crcRounds n c = c >>> n := by
  induction n with
  | zero => intro c _; simp [crcRounds]
  | succ n ih =>
    intro c h
    have hb : crcBit c = c >>> 1 := by simp only [crcBit, h 0 (by omega)]; rfl
    rw [crcRounds, hb, ih _ fun i hi => ?_, ← BitVec.shiftRight_add, Nat.add_comm]
    rw [BitVec.getLsbD_ushiftRight, Nat.add_comm]
    exact h _ (by omega)

/-! One byte (R151). -/

theorem crcStep_left_inj {c d : Half} {b : Byte} : crcStep c b = crcStep d b ↔ c = d :=
  (crcRounds_injective 8).eq_iff.trans (BitVec.xor_left_inj _)

theorem crcStep_right_inj {c : Half} {x y : Byte} : crcStep c x = crcStep c y ↔ x = y := by
  rw [crcStep, crcStep, (crcRounds_injective 8).eq_iff, BitVec.xor_right_inj]
  refine ⟨fun h => ?_, congrArg _⟩
  simpa using congrArg (BitVec.setWidth 8) h

/-- A CRC's low byte shifts it out and leaves its high byte. -/
theorem crcStep_loByte (c : Half) : crcStep c (loByte c) = (hiByte c).setWidth 16 := by
  rw [crcStep, crcRounds_of_low_zero 8 _ fun i hi => ?_]
  · ext i hi
    have hlt : c.getLsbD (8 + i) = true → i < 8 := fun h => by
      have := BitVec.lt_of_getLsbD h
      omega
    simpa [loByte, hiByte] using hlt
  · have hlt : c.getLsbD i = true → i < 16 := BitVec.lt_of_getLsbD
    simpa [loByte, hi] using hlt

/-- The remaining byte cancels. -/
theorem crcStep_self (b : Byte) : crcStep (b.setWidth 16) b = 0 := by
  rw [crcStep, BitVec.xor_self]
  rfl

/-! Byte sequences. -/

@[simp] theorem crcFrom_cons (c : Half) (b : Byte) (bs : List Byte) : crcFrom c (b :: bs) = crcFrom (crcStep c b) bs := rfl

theorem crcFrom_append (c : Half) (d e : List Byte) : crcFrom c (d ++ e) = crcFrom (crcFrom c d) e := List.foldl_append

theorem crc16_append (d e : List Byte) : crc16 (d ++ e) = crcFrom (crc16 d) e := crcFrom_append _ d e

theorem crcFrom_left_inj {c d : Half} (bs : List Byte) : crcFrom c bs = crcFrom d bs ↔ c = d := by
  induction bs generalizing c d with
  | nil => exact Iff.rfl
  | cons b bs ih => rw [crcFrom_cons, crcFrom_cons, ih, crcStep_left_inj]

/-- Fed with its own value, low byte first, the generator ends at 0 (R158). -/
theorem crcFrom_crcBytes_self (c : Half) : crcFrom c (crcBytes c) = 0 := by
  change crcStep (crcStep c (loByte c)) (hiByte c) = 0
  rw [crcStep_loByte, crcStep_self]

/-- A sequence with a CRC behind it leaves 0 exactly when the CRC is its own (R158). -/
theorem crc16_append_crcBytes_eq_zero_iff (d : List Byte) (crc : Half) : crc16 (d ++ crcBytes crc) = 0 ↔ crc16 d = crc := by
  rw [crc16_append, ← crcFrom_crcBytes_self crc, crcFrom_left_inj]

/-- Changing one byte, in whatever bits, changes the CRC. -/
theorem crcFrom_set_ne {bs : List Byte} {x y : Byte} (hne : y ≠ x) :
    ∀ {c : Half} {i : Nat}, bs[i]? = some x → crcFrom c (bs.set i y) ≠ crcFrom c bs := by
  induction bs with
  | nil => intro c i hx; simp at hx
  | cons b bs ih =>
    intro c i hx
    cases i with
    | zero =>
      obtain rfl : b = x := by simpa using hx
      rw [List.set_cons_zero, crcFrom_cons, crcFrom_cons, Ne, crcFrom_left_inj, crcStep_right_inj]
      exact hne
    | succ i => exact ih (by simpa using hx)

/-- Settles O23: the model's rounds are R151's, and the fold is the model's. -/
theorem crcStepIsEightRounds : Obligations.CrcStepIsEightRounds := by
  unfold Obligations.CrcStepIsEightRounds
  refine ⟨fun c b => ?_, rfl, fun bs b => crc16_append bs [b], fun c => ?_, by decide +kernel⟩
  · intro round
    have hround : ∀ x, crcBit x = round x := crcBit_eq
    simp only [crcStep, crcRounds, hround]
  · rw [crcBytes, loByte_eq, hiByte_eq]

/-- Settles O26: the bytes behind the frame are its CRC's. -/
theorem frameWithItsCrcLeavesZero : Obligations.FrameWithItsCrcLeavesZero := by
  unfold Obligations.FrameWithItsCrcLeavesZero
  intro d
  rw [← loByte_eq, ← hiByte_eq]
  exact (crc16_append_crcBytes_eq_zero_iff d (crc16 d)).2 rfl

end Sys2Proof.Machine
end

section
/-! PROOFS. The decoder: its checks in their order, and a frame with a correct CRC, as it was sent and with one bit flipped (R155,
R156, R159). -/

namespace Sys2Proof.Machine

/-! The checks as R155 writes them. -/

theorem joinBytes_eq (hi lo : Byte) : joinBytes hi lo = BitVec.ofNat 16 (256 * hi.toNat + lo.toNat) := by
  have h : (joinBytes hi lo).toNat = 256 * hi.toNat + lo.toNat := toNat_append_add hi lo
  rw [← h, BitVec.ofNat_toNat, BitVec.setWidth_eq]

/-- D3: what DIAG_CRC holds, and the first check (R155, R156). -/
theorem checkCrc_of_ne {b : List Byte} (h : calcCrc b ≠ recvCrc b) (eS eF : Byte) (eC : Half) :
    checkCrc b eS eF eC = { diag := some (recvCrc b, calcCrc b), res := .error .crcMismatch } := by
  rw [checkCrc, if_pos h]

theorem checkCrc_of_eq {b : List Byte} (h : calcCrc b = recvCrc b) (eS eF : Byte) (eC : Half) :
    checkCrc b eS eF eC = { diag := some (recvCrc b, calcCrc b), res := checkFrame b eS eF eC } := by
  rw [checkCrc, if_neg (not_not_intro h)]

/-- Settles O27: D1 and D2 end the decode, D3 compares the CRCs, and the later checks follow one another. -/
theorem decoderChecksInOrder : Obligations.DecoderChecksInOrder := by
  unfold Obligations.DecoderChecksInOrder
  intro b eS eF eC n comp recv b1 answers
  refine ⟨fun h => decodeCells_short (by simpa using h) eS eF eC, fun h5 h1 hn => ?_, fun h5 h => ?_⟩
  · have hb1 : (b.map some).getD 1 none = some (b.getD 1 0) := by
      simp [List.getElem?_eq_getElem (show 1 < b.length by omega)]
    exact decodeCells_truncated (by simpa using h5) hb1 h1 (by simpa using hn) eS eF
  · have hlong : decodeCells (b.map some) eS eF eC = some (checkCrc b eS eF eC) := decodeCells_of_long h5 h eS eF
    have hrecv : recvCrc b = recv := joinBytes_eq _ _
    have checked (hc : comp = recv) {res} (hr : checkFrame b eS eF eC = res) : answers res := by
      change decodeCells (b.map some) eS eF eC = _
      rw [hlong, checkCrc_of_eq (hc.trans hrecv.symm), hrecv, hr]
      rfl
    refine ⟨fun hc => ?_, fun hc hs => checked hc ?_, fun hc hs hx => checked hc ?_, fun hc hs hx hf => checked hc ?_,
      fun hc hs hx hf hl => checked hc ?_, fun hc hs hx hf hb hl => checked hc ?_⟩
    · change decodeCells (b.map some) eS eF eC = _
      rw [hlong, checkCrc_of_ne (fun he => hc (he.trans hrecv)), hrecv]
      rfl
    · rw [checkFrame, if_pos hs]
    · rw [checkFrame, if_neg (not_not_intro hs), if_pos hx]
    · rw [checkFrame, if_neg (not_not_intro hs), if_neg hx, if_pos hf]
    · rw [checkFrame, if_neg (not_not_intro hs), if_neg hx, if_neg (not_not_intro hf), if_pos hl]
    · rw [checkFrame, if_neg (not_not_intro hs), if_neg hx, if_neg (not_not_intro hf),
        if_neg (not_or.2 ⟨not_not_intro hb, not_not_intro hl⟩)]
      simp only [respRegs, joinBytes_eq]

/-! A frame's CRC is right when the generator ends the whole frame at 0. -/

theorem take_append_recvCrc {b : List Byte} (h : 2 ≤ b.length) : b.take (b.length - 2) ++ crcBytes (recvCrc b) = b := by
  have hcrc : b.drop (b.length - 2) = crcBytes (recvCrc b) := by
    rw [List.drop_eq_getElem_cons (by omega), List.drop_eq_getElem_cons (by omega), List.drop_of_length_le (by omega)]
    have e : b.length - 2 + 1 = b.length - 1 := by omega
    simp [crcBytes, recvCrc, e, List.getElem?_eq_getElem (show b.length - 1 < b.length by omega),
      List.getElem?_eq_getElem (show b.length - 2 < b.length by omega)]
  rw [← hcrc, List.take_append_drop]

theorem calcCrc_eq_recvCrc_iff {b : List Byte} (h : 2 ≤ b.length) : calcCrc b = recvCrc b ↔ crc16 b = 0 := by
  conv_rhs => rw [← take_append_recvCrc h]
  exact (crc16_append_crcBytes_eq_zero_iff _ _).symm

/-- Changing one byte of a frame with a correct CRC gives CrcMismatch, where neither D1 nor D2 ends the decode before D3. -/
theorem decodeCells_set {b : List Byte} {i : Nat} {x y : Byte} {eC : Half} (h5 : 5 ≤ b.length) (h0 : crc16 b = 0)
    (hx : b[i]? = some x) (hne : y ≠ x) (h2 : 128 ≤ ((b.set i y).getD 1 0).toNat ∨ 5 + 2 * eC.toNat ≤ b.length)
    (eS eF : Byte) :
    ∃ diag, decodeCells ((b.set i y).map some) eS eF eC = some { diag := some diag, res := .error .crcMismatch } := by
  have hlen : (b.set i y).length = b.length := List.length_set
  have hcrc : crc16 (b.set i y) ≠ 0 := h0 ▸ crcFrom_set_ne hne hx
  have hcalc : calcCrc (b.set i y) ≠ recvCrc (b.set i y) := mt (calcCrc_eq_recvCrc_iff (by omega)).1 hcrc
  rw [← hlen] at h5 h2
  exact ⟨_, (decodeCells_of_long h5 h2 eS eF).trans (congrArg some (checkCrc_of_ne hcalc eS eF eC))⟩

theorem crc16_append_crc (body : List Byte) : crc16 (body ++ crcBytes (crc16 body)) = 0 :=
  (crc16_append_crcBytes_eq_zero_iff body _).2 rfl

/-! One flipped bit. -/

theorem getLsbD_bit {j k : Nat} (hk : k < 8) : (BitVec.ofNat 8 (2 ^ j)).getLsbD k = decide (j = k) := by
  rw [BitVec.getLsbD_ofNat, Nat.testBit_two_pow, decide_eq_true hk, Bool.true_and]

theorem xor_bit_ne (x : Byte) {j : Nat} (hj : j < 8) : x ^^^ BitVec.ofNat 8 (2 ^ j) ≠ x := by
  intro h
  have hbit := congrArg (·.getLsbD j) h
  simp only [BitVec.getLsbD_xor, getLsbD_bit hj, decide_true, Bool.xor_true] at hbit
  exact Bool.not_ne_self _ hbit

theorem le_toNat_iff (b : Byte) : 128 ≤ b.toNat ↔ b.getLsbD 7 = true := by
  rw [← not_lt, ← getLsbD_seven, Bool.not_eq_false]

/-- A flip of another bit keeps the mark of an exception response (R97). -/
theorem le_toNat_xor_bit {f : Byte} {j : Nat} (hj : j ≠ 7) : 128 ≤ ((f ||| 0x80) ^^^ BitVec.ofNat 8 (2 ^ j)).toNat := by
  rw [le_toNat_iff, BitVec.getLsbD_xor, getLsbD_bit (by omega), decide_eq_false hj]
  simp

/-- A flip of bit 7 takes the mark away. -/
theorem toNat_xor_exceptionBit_lt (f : Byte) : ((f ||| 0x80) ^^^ 0x80).toNat < 128 := by
  rw [← getLsbD_seven]
  simp

/-- Settles O30: the checks D3 to D8 in turn. -/
theorem normalResponseRoundTrip : Obligations.NormalResponseRoundTrip := by
  unfold Obligations.NormalResponseRoundTrip
  intro eS eF bc regs eC hF _ hc hb
  exact decodeCells_normal hF hc hb

/-- Settles O31: the frame is as long as D2 asks whatever its byte 1, and the flip changes its CRC. -/
theorem singleBitFlipIsCrcMismatch : Obligations.SingleBitFlipIsCrcMismatch := by
  unfold Obligations.SingleBitFlipIsCrcMismatch
  intro eS eF bc regs eC i j x dS dF _ _ hc _ frame hx hj
  have hlen : frame.length = 5 + 2 * eC.toNat := by
    simp only [frame, List.length_append, List.length_cons, Laws.EncodedForm.regBytes_length, crcBytes_length, hc]
    omega
  exact decodeCells_set (by rw [hlen]; omega) (crc16_append_crc _) hx (xor_bit_ne x hj) (.inr hlen.ge) dS dF

/-- Settles O32: D2 looks at bit 7 of byte 1, and without it the frame is too short for a register. -/
theorem exceptionFrameIsReported : Obligations.ExceptionFrameIsReported := by
  unfold Obligations.ExceptionFrameIsReported
  intro eS eF code eC body frame
  refine ⟨decodeCells_exception eS eF code eC, fun hC => ?_, fun i j x hx hj hij => ?_⟩
  · have hlen : ((frame.set 1 ((eF ||| 0x80) ^^^ 0x80)).map some).length = 5 := rfl
    exact decodeCells_truncated hlen.ge rfl (toNat_xor_exceptionBit_lt eF) (by omega) eS eF
  · refine decodeCells_set (b := frame) (Nat.le_refl 5) (crc16_append_crc body) hx (xor_bit_ne x hj) (.inl ?_) eS eF
    by_cases hi : i = 1
    · subst hi
      obtain rfl : eF ||| 0x80 = x := Option.some.inj hx
      exact le_toNat_xor_bit fun h7 => hij ⟨rfl, h7⟩
    · rw [List.getD_eq_getElem?_getD, List.getElem?_set_ne hi]
      exact le_toNat_or_exceptionBit eF

end Sys2Proof.Machine
end

section
/-! PROOFS. The codec's commands: CRC_INIT, CRC_UPDATE, ENCODE_RIR and DECODE_RESP (R152 to R157). -/

namespace Sys2Proof.Machine

/-- Settles O24: the bodies, with RAW's low byte by its value. -/
theorem crcCommandsWriteTheAccumulator : Obligations.CrcCommandsWriteTheAccumulator := by
  unfold Obligations.CrcCommandsWriteTheAccumulator
  intro s hp
  rw [← loByte_eq]
  refine ⟨rfl, rfl, ?_, ?_⟩
  · rw [exec, execCrcInit, plainCommand_exec hp]
  · rw [exec, execCrcUpdate, plainCommand_exec hp, crcOperand]

/-! ENCODE_RIR (R154). -/

theorem exec_encodeRir {s : State} (hp : s.phase = .exec) :
    exec .encodeRir s = .next (complete .ok (storeTx (requestFrame s.latch) s)) := by
  rw [exec, execEncodeRir, plainCommand_exec hp]

/-- Laying bytes in TXBUF and completing changes buffers and STATUS only. -/
theorem complete_storeTx_keepsRest (r : Result) (bs : List Byte) (s : State) :
    keepsRest s (complete r (storeTx bs s)) :=
  ⟨rfl, rfl, rfl, rfl, rfl, rfl, rfl, rfl, rfl, rfl, (storeTx_untouched bs s).hostRegs⟩

/-- Settles O25: the request's bytes by their values, in TXBUF. -/
theorem encodeRirWritesTheRequest : Obligations.EncodeRirWritesTheRequest := by
  unfold Obligations.EncodeRirWritesTheRequest
  intro s hp body
  have hframe : requestFrame s.latch =
      body ++ [BitVec.ofNat 8 (crc16 body).toNat, BitVec.ofNat 8 ((crc16 body).toNat / 256)] := by
    simp only [requestFrame, requestBytes_eq, requestBody, hiByte_eq, loByte_eq]
    rfl
  refine ⟨rfl, _, exec_encodeRir hp, complete_completesAs .ok rfl, ?_, fun a ha => ?_, rfl, rfl,
    complete_storeTx_keepsRest .ok _ s⟩
  · rw [← hframe]
    exact readCells_storeTx _ s
  · exact Memory.read_writeCells_other _ _ _ _ ha

/-! DECODE_RESP (R155 to R157). -/

theorem exec_decodeResp_tooBig {s : State} (hp : s.phase = .exec) (hl : 256 < s.latch.len.toNat) :
    exec .decodeResp s = .next (complete (.block .badArg) s) := by
  rw [exec, execDecodeResp, plainCommand_exec hp, if_pos ((lenTooBig_iff _).2 hl)]

theorem finishDecode_of_ok {out : DecodeOut} {vs : List Half} (h : out.res = .ok vs) (s : State) :
    finishDecode out s = complete .ok (writeResultCount vs.length (storeResult vs (writeDiag out.diag s))) := by
  rw [finishDecode, h]

theorem finishDecode_of_error {out : DecodeOut} {e : FrameError} (h : out.res = .error e) (s : State) :
    finishDecode out s = complete (.protocol e) (writeResultCount 0 (writeDiag out.diag s)) := by
  rw [finishDecode, h]

/-- DIAG_CRC is the decode's, whatever its result (R156). -/
theorem finishDecode_diag (out : DecodeOut) (s : State) :
    (finishDecode out s).regs.diagRecv = (writeDiag out.diag s).regs.diagRecv ∧
      (finishDecode out s).regs.diagCalc = (writeDiag out.diag s).regs.diagCalc := by
  unfold finishDecode
  split <;> exact ⟨rfl, rfl⟩

/-- What a decode that is Ok writes (R157). -/
theorem finishDecode_ok_writes {out : DecodeOut} {vs : List Half} (h : out.res = .ok vs) (s : State) :
    completesAs .ok s (finishDecode out s) ∧ (finishDecode out s).regs.resultCount = BitVec.ofNat 8 vs.length ∧
      (finishDecode out s).mem = Memory.writeHalves s.mem (resAddr 0) vs := by
  rw [finishDecode_of_ok h, ← writeDiag_mem out.diag s]
  exact ⟨complete_completesAs .ok (writeDiag_status out.diag s), rfl, rfl⟩

/-- What a decode that finds an error writes (R157). -/
theorem finishDecode_error_writes {out : DecodeOut} {e : FrameError} (h : out.res = .error e) (s : State) :
    completesAs (.protocol e) s (finishDecode out s) ∧ (finishDecode out s).regs.resultCount = 0 ∧
      (finishDecode out s).mem = s.mem := by
  rw [finishDecode_of_error h, ← writeDiag_mem out.diag s]
  exact ⟨complete_completesAs _ (writeDiag_status out.diag s), rfl, rfl⟩

/-- RESULT[0..] written, every byte outside those cells reads as before (R43, R157). -/
theorem read_writeHalves_outside {vs : List Half} {m : Memory} {a : Nat}
    (ha : ∀ i, i < vs.length → a ≠ 0x900 + 4 * i ∧ a ≠ 0x901 + 4 * i) :
    Memory.read (Memory.writeHalves m (resAddr 0) vs) a = Memory.read m a := by
  refine Memory.read_writeHalves_other vs m (resAddr 0) a fun i hi => ?_
  obtain ⟨hlo, hhi⟩ := ha i hi
  simp only [resAddr]
  omega

/-- A decode that is Ok has the expected number of values, which is also what its length leaves room for (R155 D7, D8). -/
theorem decodeCells_ok_length {b : List (Option Byte)} {eS eF : Byte} {eC : Half} {out : DecodeOut} {vs : List Half}
    (h : decodeCells b eS eF eC = some out) (hv : out.res = .ok vs) :
    vs.length = eC.toNat ∧ b.length = 5 + 2 * vs.length := by
  obtain ⟨bs, rfl, -, -, hf⟩ := decodeCells_ok h hv
  obtain ⟨-, -, -, -, hl, rfl⟩ := checkFrame_ok hf
  simp [hl]

/-- Settles O28: the decode's result as `finishDecode` writes it. -/
theorem decodeRespWritesItsResults : Obligations.DecodeRespWritesItsResults := by
  unfold Obligations.DecodeRespWritesItsResults
  intro s hp
  refine ⟨exec_decodeResp_tooBig hp, fun hl out hout => ?_⟩
  obtain ⟨-, -, -, hport, -, -, -, hcrc, hrx, hscale, -⟩ := finishDecode_keeps out s
  obtain ⟨hrecv, hcalc⟩ := finishDecode_diag out s
  refine ⟨_, (exec_decodeResp hp hl).trans (decodeAndFinish_some hout), hport, finishDecode_keepsRest out s, hcrc, hrx,
    hscale, fun recv comp hd => ?_, fun hd => ?_, fun vs hv => ?_, fun e he => ?_⟩
  · simp [hrecv, hcalc, hd]
  · simp [hrecv, hcalc, hd]
  · obtain ⟨hdone, hcount, hmem⟩ := finishDecode_ok_writes hv s
    obtain ⟨hn, hlen⟩ := decodeCells_ok_length hout hv
    rw [Memory.readCells_length] at hlen
    refine ⟨hdone, hn, by omega, ?_, fun i v hiv => ?_, fun a ha => ?_⟩
    · rw [hcount, BitVec.toNat_ofNat]
      omega
    · obtain ⟨hi, rfl⟩ := List.getElem?_eq_some_iff.1 hiv
      rw [hmem]
      exact Memory.readHalf_writeHalves vs s.mem (resAddr 0) i hi
    · rw [hmem, read_writeHalves_outside ha]
  · obtain ⟨hdone, hcount, hmem⟩ := finishDecode_error_writes he s
    exact ⟨hdone, hcount, fun a => by rw [hmem]⟩

end Sys2Proof.Machine
end

section
/-! PROOFS. READ_INPUT_REGS: its checks and its request, the turn from sending to receiving, and the decode that completes
it (R190 to R193). -/

namespace Sys2Proof.Machine

/-! The checks and the request (R190 step 1, R191). -/

theorem exec_readInputRegs_idle {s : State} (hp : s.phase = .idle) : exec .readInputRegs s = .next (rirAccept s) := by
  simp only [exec, execReadInputRegs, hp]

theorem exec_readInputRegs_atOnce {s : State} {r : Result} (hp : s.phase = .exec) (h : rirAtOnce s = some r) :
    exec .readInputRegs s = .next (complete r s) := by
  simp only [exec, execReadInputRegs, hp, h]

/-- The arguments that acceptance latches and the checks refuse (R191). -/
theorem rirAccept_of_badArg {s : State} (h : rirBadArg (latchArgs (opcodeWord 0x07) s) = true) :
    rirAccept s = accept (opcodeWord 0x07) .exec s := if_pos h

/-- With legal arguments the request is laid, and an open transport goes to the gap (R190). -/
theorem rirAccept_of_legal {s : State} (h : rirBadArg (latchArgs (opcodeWord 0x07) s) = false) :
    rirAccept s = storeTx (requestFrame (latchArgs (opcodeWord 0x07) s))
      (accept (opcodeWord 0x07) (if s.port.isOpen = true then .txGap else .exec) s) := by
  refine (if_neg (Bool.eq_false_iff.1 h)).trans ?_
  cases ho : s.port.isOpen with
  | false => exact if_pos ho
  | true => exact if_neg (by simp [ho])

/-- The arguments R191 refuses, by their numbers. -/
theorem rirBadArg_iff (l : Latch) :
    rirBadArg l = true ↔ ¬ (1 ≤ l.slave.toNat ∧ l.slave.toNat ≤ 247 ∧ 1 ≤ l.count.toNat ∧ l.count.toNat ≤ 125) := by
  rw [← not_rirBadArg_iff, Bool.not_eq_false]

/-- Settles O33: the acceptance and the step in EXEC, each by the checks of the arguments and of the transport. -/
theorem readInputRegsChecksThenEncodes : Obligations.ReadInputRegsChecksThenEncodes := by
  unfold Obligations.ReadInputRegsChecksThenEncodes
  intro s legal
  refine ⟨fun hp hbad => ?_, fun hp hbad => ?_, fun hp hlegal => ?_, fun hp hlegal ho => ?_⟩
  · rw [exec_readInputRegs_idle hp, rirAccept_of_badArg ((rirBadArg_iff _).2 hbad)]
    rfl
  · exact exec_readInputRegs_atOnce hp (by simp [rirAtOnce, (rirBadArg_iff s.latch).2 hbad])
  · have hexec := exec_readInputRegs_idle hp
    rw [rirAccept_of_legal ((not_rirBadArg_iff _).2 hlegal)] at hexec
    exact ⟨_, hexec, readCells_storeTx _ _, fun a ha =>
      Memory.read_writeCells_other _ _ (txAddr 0) a ha, rfl⟩
  · exact exec_readInputRegs_atOnce hp (by simp [rirAtOnce, (not_rirBadArg_iff s.latch).2 hlegal, ho])

/-! From sending to receiving (R190 steps 2 and 3). -/

/-- The request has been sent, and the RX phase starts (R115). -/
theorem exec_readInputRegs_of_txStep_ok {s t : State} (hp : s.phase = .tx) (h : txStep s = .ok (some .ok, t)) :
    exec .readInputRegs s = .next (enterRx t) := by
  simp only [exec, execReadInputRegs, hp, h]

/-- Settles O34: the eighth character is the request's last one, and it goes. -/
theorem readInputRegsReceivesAfterSending : Obligations.ReadInputRegsReceivesAfterSending := by
  unfold Obligations.ReadInputRegsReceivesAfterSending
  intro s b timed sk ek hp hop hk htimed huntimed hb
  have hn : txTotal s.latch = 8 := by rw [txTotal_eq, if_pos hop]
  have hsk : sk = txCharStart s := by
    simp only [sk, timed, txCharStart, hk]
    rfl
  have hek : ek = txCharEnd s := by
    simp only [ek, timed, txCharEnd, hsk]
  have hg : txGoes s := by
    cases ht : isTimed s with
    | true => rw [txGoes_timed ht, ← hek]; exact htimed ht
    | false =>
      have hc := huntimed (by simp [timed, ht])
      rw [txGoes_untimed ht, txLimit_of_whole (hc.symm.imp id fun h => by rw [h]; rfl), hn, hk]
      decide
  have hcell : Memory.read s.mem (txAddr s.port.txK) = some b := by rw [hk]; exact hb
  refine ⟨?_, ?_⟩
  · rw [dueAt_of_txGoes hp hg, ← hek]
    split
    · rfl
    · rename_i ht
      simp [ek, timed, ht]
  · rw [exec_readInputRegs_of_txStep_ok hp (txStep_sendsLast hg hcell (by omega)), endTx_eq, hsk, hek]
    simp only [enterRx, enterPhase, sendChar, putWire, wireChar, hk]
    rfl

/-! Receiving and decoding (R190 steps 3 to 5). -/

/-- Settles O35: the four results of a step of the arbiter. -/
theorem readInputRegsMapsRxOutcomes : Obligations.ReadInputRegsMapsRxOutcomes := by
  unfold Obligations.ReadInputRegsMapsRxOutcomes
  intro s t hp lenWritten
  exact ⟨exec_of_rxStep_goesOn (.inr rfl) hp, exec_readInputRegs_of_rxStep_completes hp,
    exec_of_rxStep_fails (.inr rfl) hp (by simp), exec_of_rxStep_fails (.inr rfl) hp (by simp)⟩

/-- Settles O36: the decode of the received bytes, written by `finishDecode` after RXLEN. -/
theorem readInputRegsDecodesAndCompletes : Obligations.ReadInputRegsDecodesAndCompletes := by
  unfold Obligations.ReadInputRegsDecodesAndCompletes
  intro s b hp hn hlen hcells
  obtain ⟨out, hout⟩ := Option.isSome_iff_exists.1 (decodeCells_written b s.latch.slave 0x04 s.latch.count)
  have hexec : exec .readInputRegs s = .next (finishDecode out (writeRxLen b.length s)) := by
    rw [exec_readInputRegs_decode hp, hn]
    exact (congrArg (rirDecode · s) hcells).trans (hn ▸ rirDecode_some hout)
  obtain ⟨-, -, -, hport, -, -, -, hcrc, hrx, hscale, -⟩ := finishDecode_keeps out (writeRxLen b.length s)
  obtain ⟨hrecv, hcalc⟩ := finishDecode_diag out (writeRxLen b.length s)
  refine ⟨out, _, hout, hexec, hport, finishDecode_keepsRest out (writeRxLen b.length s), hcrc, hscale, ?_,
    fun recv comp hd => ?_, fun hd => ?_, fun vs hv => ?_, fun e he => ?_⟩
  · rw [hrx, writeRxLen_regs, BitVec.toNat_ofNat]
    omega
  · simp [hrecv, hcalc, hd]
  · simp [hrecv, hcalc, hd]
  · obtain ⟨hdone, hcount, hmem⟩ := finishDecode_ok_writes hv (writeRxLen b.length s)
    obtain ⟨hvs, hframe⟩ := decodeCells_ok_length hout hv
    rw [List.length_map] at hframe
    refine ⟨hdone, ?_, fun i v hiv => ?_, fun a ha => ?_⟩
    · rw [hcount, BitVec.toNat_ofNat]
      omega
    · obtain ⟨hi, rfl⟩ := List.getElem?_eq_some_iff.1 hiv
      rw [hmem]
      exact Memory.readHalf_writeHalves vs s.mem (resAddr 0) i hi
    · rw [hmem, read_writeHalves_outside ha, writeRxLen_mem]
  · obtain ⟨hdone, hcount, hmem⟩ := finishDecode_error_writes he (writeRxLen b.length s)
    exact ⟨hdone, hcount, fun a => by rw [hmem, writeRxLen_mem]⟩

end Sys2Proof.Machine
end

section
/-! PROOFS. Every command ends: each step of a sound sequencer ends the command, or leaves fewer steps to do (R195). -/

namespace Sys2Proof.Machine

/-! How many steps are left. -/

/-- The sequencer's steps that the command in progress takes at most from here on: one a character still to be sent or
received, and one for the end of each phase. -/
def stepsLeft (s : State) : Nat :=
  match s.phase with
  | .idle => 0
  | .exec => 1
  | .txGap => txTotal s.latch + rxMax s.latch + 2
  | .tx => txTotal s.latch - s.port.txK + rxMax s.latch + 1
  | .rxWait => rxMax s.latch - s.port.rxN + 1
  | .rxFrame => rxMax s.latch - s.port.rxN + 1
  | .decode => 1

theorem stepsLeft_pos {s : State} (h : s.phase ≠ .idle) : 0 < stepsLeft s := by
  unfold stepsLeft
  cases hp : s.phase with
  | idle => exact absurd hp h
  | _ => exact Nat.succ_pos _

theorem stepsLeft_txGap {s : State} (h : s.phase = .txGap) :
    stepsLeft s = txTotal s.latch + rxMax s.latch + 2 := by
  rw [stepsLeft, h]

theorem stepsLeft_tx {s : State} (h : s.phase = .tx) :
    stepsLeft s = txTotal s.latch - s.port.txK + rxMax s.latch + 1 := by
  rw [stepsLeft, h]

theorem stepsLeft_receiving {s : State} (h : s.phase = .rxWait ∨ s.phase = .rxFrame) :
    stepsLeft s = rxMax s.latch - s.port.rxN + 1 := by
  rcases h with h | h <;> rw [stepsLeft, h]

theorem rxMax_le_of_sends {l : Latch} (h : sends l) : rxMax l ≤ 256 := by
  rcases h with h | ⟨hop, -, hl⟩
  · exact (receives_max (.inl h)).2
  · have hne : l.op ≠ 0x00000007 := by rw [hop]; decide
    rw [rxMax_eq, if_neg hne]
    exact hl

/-- A frame of 256 bytes each way, and the ends of the phases. -/
theorem stepsLeft_le {s : State} (h : phaseSound s) : stepsLeft s ≤ 514 := by
  have sent : sends s.latch → txTotal s.latch ≤ 256 ∧ rxMax s.latch ≤ 256 := fun hs =>
    ⟨(sends_total hs).2, rxMax_le_of_sends hs⟩
  have received : s.phase = .rxWait ∨ s.phase = .rxFrame → rxMax s.latch ≤ 256 := fun hp =>
    (receives_max (phaseSound_receiving h hp).1).2
  unfold phaseSound at h
  unfold stepsLeft
  cases hp : s.phase with
  | idle | exec | decode => simp only; omega
  | txGap | tx =>
    simp only [hp] at h ⊢
    have := sent h.1
    omega
  | rxWait | rxFrame =>
    have := received (by simp [hp])
    simp only
    omega

theorem Sound.phase_sound {s : State} (h : Sound s) : phaseSound s := by
  obtain ⟨-, ⟨hq, -⟩, -⟩ := h
  exact hq

/-! What a step of a sound sequencer comes to. -/

/-- The command is over: it has completed, or it has stopped at the use of an unwritten cell (R50). -/
def Ends (o : Host.Outcome State Fault Refusal) : Prop :=
  (∃ t, o = .next t ∧ t.phase = .idle ∧ t.status.done = true) ∨ ∃ a, o = .fault (.unwrittenCell a)

/-- The step from `s` ends the command, or leaves it in progress with fewer steps to do. -/
def Advances (s : State) (o : Host.Outcome State Fault Refusal) : Prop :=
  Ends o ∨ ∃ t, o = .next t ∧ t.phase ≠ .idle ∧ stepsLeft t < stepsLeft s

theorem ends_complete (r : Result) (s : State) : Ends (.next (complete r s)) := .inl ⟨_, rfl, rfl, rfl⟩

theorem ends_unwritten (a : Nat) : Ends (.fault (.unwrittenCell a)) := .inr ⟨a, rfl⟩

/-- A decode ends its command (R155, R157). -/
theorem decodeAndFinish_ends (b : List (Option Byte)) (eF : Byte) (s : State) : Ends (decodeAndFinish b eF s) := by
  unfold decodeAndFinish
  split
  · rename_i out _
    obtain ⟨r, hp, hd, -⟩ := finishDecode_completes out s
    exact .inl ⟨_, rfl, hp, hd⟩
  · exact ends_unwritten _

/-! EXEC. -/

theorem execWriteBytes_ends {s : State} (hp : s.phase = .exec) (h : writeAtOnce s ≠ none) :
    Ends (exec .writeBytes s) := by
  obtain ⟨r, hr⟩ := Option.ne_none_iff_exists'.1 h
  rw [exec_writeBytes_atOnce hp hr]
  exact ends_complete r s

theorem execReadBytes_ends {s : State} (hp : s.phase = .exec) (h : readAtOnce s ≠ none) : Ends (exec .readBytes s) := by
  obtain ⟨r, hr⟩ := Option.ne_none_iff_exists'.1 h
  by_cases hok : r = .ok
  · rw [exec_readBytes_empty hp (hok ▸ hr)]
    exact ends_complete .ok _
  · rw [exec_readBytes_atOnce hp hr hok]
    exact ends_complete r s

theorem execReadInputRegs_ends {s : State} (hp : s.phase = .exec) (h : rirAtOnce s ≠ none) :
    Ends (exec .readInputRegs s) := by
  obtain ⟨r, hr⟩ := Option.ne_none_iff_exists'.1 h
  rw [exec_readInputRegs_atOnce hp hr]
  exact ends_complete r s

theorem execOpen_ends {s : State} (hp : s.phase = .exec) : Ends (exec .openCmd s) := by
  rw [exec_openCmd hp]
  split
  · exact ends_complete _ _
  · exact ends_complete _ _

theorem execDecodeResp_ends {s : State} (hp : s.phase = .exec) : Ends (exec .decodeResp s) := by
  by_cases hl : s.latch.len.toNat ≤ 256
  · rw [exec_decodeResp hp hl]
    exact decodeAndFinish_ends _ _ s
  · rw [exec_decodeResp_tooBig hp (not_le.1 hl)]
    exact ends_complete _ s

/-- A command without a wire whose body is one completion. -/
theorem plainBody_ends {w : Word} {r : Result} {s : State} (f : State → State) (hp : s.phase = .exec) :
    Ends (plainCommand w (fun u => .next (complete r (f u))) s) := by
  rw [plainCommand_exec hp]
  exact ends_complete r (f s)

/-- In EXEC the command in progress ends: a wire command is there only when its checks end it at once. -/
theorem exec_ends_of_exec {s : State} (hq : phaseSound s) (hp : s.phase = .exec) : Ends (exec (fetchInstr s) s) := by
  simp only [phaseSound, hp] at hq
  obtain ⟨hw, hr, hrir⟩ := hq
  have hi := encode_decodeCmd s.latch.op
  rw [fetchInstr_of_command (by simp [hp])]
  generalize decodeCmd s.latch.op = i at hi
  cases i with
  | openCmd => exact execOpen_ends hp
  | closeCmd => exact plainBody_ends (fun u => { u with port := { u.port with isOpen := false } }) hp
  | writeBytes => exact execWriteBytes_ends hp (hw (Code.cmd.inj hi).symm)
  | readBytes => exact execReadBytes_ends hp (hr (Code.cmd.inj hi).symm)
  | encodeRir => exact plainBody_ends (fun u => storeTx (requestFrame u.latch) u) hp
  | decodeResp => exact execDecodeResp_ends hp
  | readInputRegs => exact execReadInputRegs_ends hp (hrir (beq_iff_eq.2 (Code.cmd.inj hi).symm))
  | decodeTemp => exact plainBody_ends (fun u => writeScale (scaleRegs (asI16 u.latch.raw) false) u) hp
  | decodeHum => exact plainBody_ends (fun u => writeScale (scaleRegs (u.latch.raw.toNat : Int) true) u) hp
  | crcInit => exact plainBody_ends (fun u => { u with regs := { u.regs with crcAcc := 0xFFFF } }) hp
  | crcUpdate =>
    exact plainBody_ends
      (fun u => { u with regs := { u.regs with crcAcc := crcStep u.regs.crcAcc (crcOperand u.latch) } }) hp
  | badCmd w => exact plainBody_ends id hp
  | rtuReqReadInputRegs | rtuRspNormal | rtuRspException => cases hi

/-! DECODE. -/

/-- In DECODE every fetched instruction decodes the received cells: the command itself, or the frame they hold (R98). -/
theorem exec_fetched_of_decode {s : State} (hp : s.phase = .decode) (hop : s.latch.op = 0x00000007) :
    exec (fetchInstr s) s = rirDecode (Memory.readCells s.mem (rxAddr 0) s.port.rxN) s := by
  have command : exec (decodeCmd s.latch.op) s = rirDecode (Memory.readCells s.mem (rxAddr 0) s.port.rxN) s := by
    rw [hop]
    exact exec_readInputRegs_decode hp
  rw [fetchInstr, if_pos ⟨hp, (isRir_iff _).2 hop⟩]
  split
  · rename_i b hb
    split
    · rename_i i hi
      rw [exec_frame (decodeFrame_ok hi).2 ((decoding_iff s).2 (.inl ⟨hp, hop⟩)), frameReceived_of_decode hp hop,
        allWritten_eq_some hb]
    · exact command
  · exact command

theorem exec_ends_of_decode {s : State} (hq : phaseSound s) (hp : s.phase = .decode) : Ends (exec (fetchInstr s) s) := by
  rw [exec_fetched_of_decode hp ((isRir_iff _).1 (phaseSound_decode hq hp).1)]
  exact decodeAndFinish_ends _ _ _

/-! Sending. -/

/-- A command that sends is WRITE_BYTES or READ_INPUT_REGS. -/
theorem fetchInstr_of_sends {s : State} (h : sends s.latch) (hp : s.phase ≠ .decode) :
    fetchInstr s = .writeBytes ∨ fetchInstr s = .readInputRegs := by
  rw [fetchInstr_of_command hp]
  rcases h with ⟨hq, -⟩ | ⟨hop, -⟩
  · rw [(isRir_iff _).1 hq]; exact .inr rfl
  · rw [hop]; exact .inl rfl

/-- The gap ends in TX, with every character still to be sent, or with a line failure. -/
theorem gapStep_advances {s : State} (hp : s.phase = .txGap) : Advances s (.next (gapStep s)) := by
  unfold gapStep
  split
  · exact .inl (ends_complete _ s)
  · refine .inr ⟨_, rfl, by simp, ?_⟩
    rw [stepsLeft_txGap hp, stepsLeft_tx (enterTx_phase s), enterTx_latch]
    omega

theorem except_map_error {ε α β : Type} {x : Except ε α} {f : α → β} {e : ε} (h : x.map f = .error e) :
    x = .error e := by
  cases x with
  | error => simpa [Except.map] using h
  | ok => cases h

theorem sendNext_error {s : State} {f : Fault} (h : sendNext s = .error f) : f = .unwrittenCell (txAddr s.port.txK) := by
  unfold sendNext at h
  split at h <;> cases h
  rfl

theorem cutOff_error {s : State} {f : Fault} (h : cutOff s = .error f) : f = .unwrittenCell (txAddr s.port.txK) := by
  unfold cutOff at h
  split at h
  · split at h <;> cases h
    rfl
  · cases h

/-- The transmit engine stops at an unwritten cell only (R50). -/
theorem txStep_error {s : State} {f : Fault} (h : txStep s = .error f) : f = .unwrittenCell (txAddr s.port.txK) := by
  unfold txStep at h
  split at h
  · unfold txChosen at h
    replace h := except_map_error h
    split at h
    · exact sendNext_error h
    · exact cutOff_error (except_map_error h)
  · split at h
    · exact cutOff_error (except_map_error h)
    · split at h
      · cases h
      · exact sendNext_error h

/-- A TX phase that goes on has sent one more character. -/
theorem txStep_goesOn_count {s t : State} (h : txStep s = .ok (none, t)) : t.port.txK = s.port.txK + 1 := by
  obtain ⟨-, ⟨-, -, hk⟩ | ⟨-, -, ho, -⟩ | ⟨-, -, -, ho, -⟩ | ⟨-, -, -, b, -, rfl, -⟩⟩ := txStep_cases h
  · exact (hk rfl).1
  · cases ho
  · cases ho
  · rfl

/-- A step of TX ends the phase or sends one more character. -/
theorem exec_advances_of_tx {i : Instr} {s : State} (hi : i = .writeBytes ∨ i = .readInputRegs) (hp : s.phase = .tx)
    (hk : s.port.txK < txTotal s.latch) : Advances s (exec i s) := by
  cases hx : txStep s with
  | error f =>
    rw [exec_of_txStep_error hi hp hx, txStep_error hx]
    exact .inl (ends_unwritten _)
  | ok q =>
    obtain ⟨o, t⟩ := q
    have k := (txStep_cases hx).1
    match o, hi with
    | none, hi =>
      refine .inr ⟨t, exec_of_txStep_goesOn hi hp hx, by simp [k.phase, hp], ?_⟩
      rw [stepsLeft_tx hp, stepsLeft_tx (k.phase.trans hp), k.latch, txStep_goesOn_count hx]
      omega
    | some .ok, .inl hw =>
      rw [hw, exec_writeBytes_of_txStep_ends hp hx]
      exact .inl (ends_complete _ t)
    | some .ok, .inr hr =>
      refine .inr ⟨enterRx t, hr ▸ exec_readInputRegs_of_txStep_ok hp hx, by simp, ?_⟩
      rw [stepsLeft_tx hp, stepsLeft_receiving (.inl (enterRx_phase t)), enterRx_latch, k.latch]
      omega
    | some .writeTimeout, hi | some .writeFailed, hi =>
      rw [exec_of_txStep_fails hi hp (by simp) hx]
      exact .inl (ends_complete _ t)

/-! Receiving. -/

/-- A command that receives is READ_BYTES or READ_INPUT_REGS. -/
theorem fetchInstr_of_receives {s : State} (h : receives s.latch) (hp : s.phase ≠ .decode) :
    fetchInstr s = .readBytes ∨ fetchInstr s = .readInputRegs := by
  rw [fetchInstr_of_command hp]
  rcases h with ⟨hq, -⟩ | ⟨hop, -⟩
  · rw [(isRir_iff _).1 hq]; exact .inr rfl
  · rw [hop]; exact .inl rfl

/-- An RX phase that goes on has stored one more byte. -/
theorem rxStep_goesOn {s t : State} (h : rxStep s = (none, t)) :
    t.phase = .rxFrame ∧ t.port.rxN = s.port.rxN + 1 := by
  rcases rxStep_stored h with ⟨-, -, -, ho, -⟩ | ⟨b, e, hport, -, hp, -⟩
  · exact absurd rfl ho
  · exact ⟨hp, by rw [hport]⟩

/-- A step of the arbiter ends the phase or stores one more byte. -/
theorem exec_advances_of_receiving {i : Instr} {s : State} (hi : i = .readBytes ∨ i = .readInputRegs)
    (hp : s.phase = .rxWait ∨ s.phase = .rxFrame) (hn : s.port.rxN < rxMax s.latch) : Advances s (exec i s) := by
  rcases hx : rxStep s with ⟨o, t⟩
  have k := (rxStep_cases hx).1
  match o, hi with
  | none, hi =>
    obtain ⟨ht, hcount⟩ := rxStep_goesOn hx
    refine .inr ⟨t, exec_of_rxStep_goesOn hi hp hx, by simp [ht], ?_⟩
    rw [stepsLeft_receiving hp, stepsLeft_receiving (.inr ht), k.latch, hcount]
    omega
  | some .complete, .inl hb =>
    rw [hb, exec_readBytes_of_rxStep_ends hp hx]
    exact .inl (ends_complete _ _)
  | some .complete, .inr hr =>
    refine .inr ⟨enterPhase .decode t, hr ▸ exec_readInputRegs_of_rxStep_completes hp hx, by simp, ?_⟩
    rw [stepsLeft_receiving hp]
    change 1 < _
    omega
  | some .timeout, hi | some .failed, hi =>
    rw [exec_of_rxStep_fails hi hp (by simp) hx]
    exact .inl (ends_complete _ _)

/-- Every step of a sound sequencer ends the command in progress or leaves fewer steps to do. -/
theorem exec_advances {s : State} (hq : phaseSound s) (hp : s.phase ≠ .idle) : Advances s (exec (fetchInstr s) s) := by
  have receiving : s.phase = .rxWait ∨ s.phase = .rxFrame → Advances s (exec (fetchInstr s) s) := fun hrx => by
    obtain ⟨hr, -, hn, -⟩ := phaseSound_receiving hq hrx
    exact exec_advances_of_receiving (fetchInstr_of_receives hr (by rcases hrx with h | h <;> simp [h])) hrx hn
  cases hph : s.phase with
  | idle => exact absurd hph hp
  | exec => exact .inl (exec_ends_of_exec hq hph)
  | txGap =>
    simp only [phaseSound, hph] at hq
    rw [exec_gap (fetchInstr_of_sends hq.1 (by simp [hph])) hph]
    exact gapStep_advances hph
  | tx =>
    simp only [phaseSound, hph] at hq
    exact exec_advances_of_tx (fetchInstr_of_sends hq.1 (by simp [hph])) hph hq.2.2
  | rxWait => exact receiving (.inl hph)
  | rxFrame => exact receiving (.inr hph)
  | decode => exact .inl (exec_ends_of_decode hq hph)

/-! The run to the end. -/

/-- The command in progress is over within `n` steps of the machine. -/
def EndsWithin (n : Nat) (s : State) : Prop := ∃ m, m ≤ n ∧ Ends (Host.Core.run core m s)

theorem EndsWithin.mono {m n : Nat} {s : State} (h : EndsWithin m s) (hmn : m ≤ n) : EndsWithin n s := by
  obtain ⟨j, hj, he⟩ := h
  exact ⟨j, hj.trans hmn, he⟩

theorem run_one (s : State) : Host.Core.run core 1 s = step s := by
  have hcore : core.step s = step s := rfl
  simp only [Host.Core.run, hcore]
  cases step s <;> rfl

theorem endsWithin_one {s : State} (h : Ends (step s)) : EndsWithin 1 s := ⟨1, le_rfl, by rw [run_one]; exact h⟩

theorem EndsWithin.head {n : Nat} {s u : State} (h : step s = .next u) (hu : EndsWithin n u) : EndsWithin (n + 1) s := by
  obtain ⟨m, hm, he⟩ := hu
  exact ⟨m + 1, Nat.succ_le_succ hm, by rw [run_of_step h]; exact he⟩

/-- A command in progress has a next step. -/
theorem exists_dueAt {s : State} (h : s.phase ≠ .idle) : ∃ d, dueAt s = some d := by
  unfold dueAt
  rw [if_neg (by simp [(busy_iff s).2 h])]
  split <;> exact ⟨_, rfl⟩

/-- An instruction leaves a quiet environment quiet. -/
theorem Quiet.exec {i : Instr} {s t : State} (h : Quiet s) (he : exec i s = .next t) : Quiet t := by
  have hu := exec_untouched i he
  exact ⟨hu.env.trans h.env, hu.changes.trans h.changes, hu.resets.trans h.resets⟩

/-- Each of the steps left takes at most two steps of the machine: the clock's, and the sequencer's. -/
theorem endsWithin_stepsLeft (k : Nat) :
    ∀ {s : State}, Sound s → Quiet s → s.phase ≠ .idle → stepsLeft s ≤ k → EndsWithin (2 * k) s := by
  induction k with
  | zero => intro s _ _ hp hk; exact absurd (stepsLeft_pos hp) (not_lt.2 hk)
  | succ k ih =>
    intro s hs hquiet hp hk
    have due : ∀ {u d}, Sound u → Quiet u → u.phase ≠ .idle → stepsLeft u ≤ k + 1 → dueAt u = some d → d ≤ u.now →
        EndsWithin (2 * k + 1) u := by
      intro u d hu hq hpu hku hd hn
      have hstep := step_of_sequencer_alone hd hn hq.hostDue hq.lineDue hq.resetDue
      rcases exec_advances hu.phase_sound hpu with he | ⟨t, he, ht, hlt⟩
      · exact (endsWithin_one (hstep ▸ he)).mono (by omega)
      · rw [he] at hstep
        exact .head hstep (ih (everyStepKeepsSound u t hu hstep) (hq.exec he) ht (by omega))
    obtain ⟨d, hd⟩ := exists_dueAt hp
    rcases le_or_gt d s.now with hn | hn
    · exact (due hs hquiet hp hk hd hn).mono (by omega)
    · have hclock := hquiet.step_clock hd hn
      exact .head hclock (due (everyStepKeepsSound s _ hs hclock) ⟨hquiet.env, hquiet.changes, hquiet.resets⟩ hp hk
        (dueAt_advance hd) le_rfl)

/-- Settles O60: from a sound state at most 514 steps of the sequencer are left, by `stepsLeft`. -/
theorem everyCommandEnds : Obligations.EveryCommandEnds := by
  unfold Obligations.EveryCommandEnds
  intro s hs henv hch hres hb
  obtain ⟨n, hn, he⟩ := endsWithin_stepsLeft 514 hs ⟨henv, hch, hres⟩ ((busy_iff s).1 hb) (stepsLeft_le hs.phase_sound)
  refine ⟨n, by omega, he.imp ?_ id⟩
  rintro ⟨t, ht, hp, hd⟩
  exact ⟨t, ht, (not_busy_iff t).2 hp, hd⟩

end Sys2Proof.Machine
end

section
/-! PROOFS. The fixed-point scaler: what its integer outputs give, and which binary64 number its encoding is (R210 to R213). -/

namespace Sys2Proof.Machine

/-! What the two commands write (R212, R213). -/

/-- `as_i16` by the value of the word (R11). -/
theorem asI16_eq (u : Half) :
    asI16 u = if u.toNat < 0x8000 then (u.toNat : Int) else (u.toNat : Int) - 0x10000 := by
  rw [asI16, BitVec.toInt_eq_toNat_cond]
  split <;> split <;> omega

/-- The scaler's outputs with the halves of the encoding by its value. -/
theorem scaleRegs_eq (x : Int) (kind : Bool) :
    scaleRegs x kind =
      { x100 := BitVec.ofInt 32 x, int := BitVec.ofInt 32 (x.tdiv 100), frac := BitVec.ofNat 7 (x.natAbs % 100),
        neg := decide (x < 0), kind := kind,
        f64Lo := BitVec.ofNat 32 (binary64Hundredths x).toNat,
        f64Hi := BitVec.ofNat 32 ((binary64Hundredths x).toNat / 2 ^ 32) } := by
  rw [scaleRegs, BitVec.extractLsb', BitVec.extractLsb', Nat.shiftRight_zero, Nat.shiftRight_eq_div_pow]

theorem exec_decodeTemp {s : State} (hp : s.phase = .exec) :
    exec .decodeTemp s = .next (complete .ok (writeScale (scaleRegs (asI16 s.latch.raw) false) s)) := by
  rw [exec, execDecodeTemp, plainCommand_exec hp]

theorem exec_decodeHum {s : State} (hp : s.phase = .exec) :
    exec .decodeHum s = .next (complete .ok (writeScale (scaleRegs (s.latch.raw.toNat : Int) true) s)) := by
  rw [exec, execDecodeHum, plainCommand_exec hp]

/-- Settles O41: each body writes `scaleRegs` of its reading of RAW. -/
theorem scalerWritesItsOutputs : Obligations.ScalerWritesItsOutputs := by
  unfold Obligations.ScalerWritesItsOutputs
  intro s hp
  refine ⟨rfl, rfl, ?_, ?_⟩
  · rw [exec_decodeTemp hp, scaleRegs_eq, asI16_eq, writeScale]
  · rw [exec_decodeHum hp, scaleRegs_eq, writeScale]

/-! The integer outputs (R210). -/

/-- Settles O43: division toward zero acts on the magnitude alone, and no output wraps. -/
theorem scaleOutputsAreExact : Obligations.ScaleOutputsAreExact := by
  unfold Obligations.ScaleOutputsAreExact
  intro x kind hlo hhi
  have habs : (x.tdiv 100).natAbs = x.natAbs / 100 := Int.natAbs_tdiv x 100
  have hpos : 0 ≤ x → 0 ≤ x.tdiv 100 := fun h => Int.tdiv_nonneg h (by decide)
  have hneg : x < 0 → x.tdiv 100 ≤ 0 := fun h =>
    Int.neg_nonneg.1 (Int.neg_tdiv x 100 ▸ Int.tdiv_nonneg (Int.neg_nonneg.2 h.le) (by decide))
  have hint : (BitVec.ofInt 32 (x.tdiv 100)).toInt = x.tdiv 100 :=
    BitVec.toInt_ofInt_eq_self (by decide) (by omega) (by omega)
  have hfrac : (BitVec.ofNat 7 (x.natAbs % 100)).toNat = x.natAbs % 100 := by
    rw [BitVec.toNat_ofNat]; omega
  simp only [scaleRegs, hint, hfrac]
  exact ⟨BitVec.toInt_ofInt_eq_self (by decide) (by omega) (by omega), by omega, by omega, decide_eq_true_iff,
    fun h => decide_eq_false (by omega), fun h => decide_eq_true (by omega), trivial⟩

/-! The significand's shift and rounding (R211). -/

/-- The shift is the least one from `k` on that brings m/100 to 2^52 or more, where the fuel reaches one. -/
theorem sigShift_least {m fuel k : Nat} (h : 100 * 2 ^ 52 ≤ m * 2 ^ (k + fuel)) :
    k ≤ sigShift m fuel k ∧ 100 * 2 ^ 52 ≤ m * 2 ^ sigShift m fuel k ∧
      ∀ j, k ≤ j → j < sigShift m fuel k → m * 2 ^ j < 100 * 2 ^ 52 := by
  induction fuel generalizing k with
  | zero => exact ⟨le_rfl, h, fun j hkj hj => absurd hj (Nat.not_lt.2 hkj)⟩
  | succ fuel ih =>
    rw [sigShift]
    split
    · exact ⟨le_rfl, ‹_›, fun j hkj hj => absurd hj (Nat.not_lt.2 hkj)⟩
    · rename_i hk
      obtain ⟨hle, hge, hleast⟩ := ih (k := k + 1) (by rwa [Nat.add_right_comm])
      refine ⟨Nat.le_of_succ_le hle, hge, fun j hkj hj => ?_⟩
      rcases hkj.eq_or_lt with rfl | hlt
      · exact Nat.lt_of_not_le hk
      · exact hleast j hlt hj

/-- Rounding goes down or up by the remainder, and at a tie to the even quotient. -/
theorem roundNearest_cases (n d : Nat) :
    (roundNearest n d = n / d ∧ (2 * (n % d) < d ∨ (2 * (n % d) = d ∧ n / d % 2 = 0))) ∨
      (roundNearest n d = n / d + 1 ∧ (d < 2 * (n % d) ∨ (2 * (n % d) = d ∧ (n / d + 1) % 2 = 0))) := by
  simp only [roundNearest]
  split_ifs <;> omega

/-- A rounded quotient is within half a unit of the exact one, and even when it is half a unit away. -/
theorem roundNearest_nearest (n : Nat) {d : Nat} (hd : 0 < d) :
    2 * (d * roundNearest n d) ≤ 2 * n + d ∧ 2 * n ≤ 2 * (d * roundNearest n d) + d ∧
      (2 * (d * roundNearest n d) = 2 * n + d ∨ 2 * n = 2 * (d * roundNearest n d) + d →
        roundNearest n d % 2 = 0) := by
  have hn := Nat.div_add_mod n d
  have hr := Nat.mod_lt n hd
  rcases roundNearest_cases n d with ⟨hq, hr⟩ | ⟨hq, hr⟩
  · rw [hq]; omega
  · rw [hq, Nat.mul_add_one]; omega

/-- A raw word's magnitude has a shift in 43..59. The shifted m and 100 * 2^53 are both multiples of 2^43, so that m/100 lies
too far below 2^53 to be rounded up to it. -/
theorem sigShift_bounds {m : Nat} (hpos : 0 < m) (hm : m ≤ 65535) :
    43 ≤ sigShift m 64 43 ∧ sigShift m 64 43 ≤ 59 ∧ 100 * 2 ^ 52 ≤ m * 2 ^ sigShift m 64 43 ∧
      m * 2 ^ sigShift m 64 43 + 2 ^ 43 ≤ 100 * 2 ^ 53 := by
  obtain ⟨hk, hge, hleast⟩ := sigShift_least (m := m) (fuel := 64) (k := 43) (by omega)
  generalize sigShift m 64 43 = k at *
  have h59 : k ≤ 59 := by
    by_contra h
    have := hleast 59 (by decide) (by omega)
    omega
  refine ⟨hk, h59, hge, ?_⟩
  rcases Nat.eq_or_lt_of_le hk with rfl | hk
  · omega
  · obtain ⟨j, rfl⟩ := Nat.exists_eq_add_of_lt hk
    have hlt := hleast (43 + j) (by omega) (by omega)
    have hdouble : m * 2 ^ (43 + j + 1) = 2 * (m * 2 ^ (43 + j)) := by ring
    have hmult : m * 2 ^ (43 + j) = 2 ^ 43 * (m * 2 ^ j) := by ring
    omega

/-- The encoding of m/100 for a raw word's magnitude m: a 53-bit significand nearest to m/100 by a shift, ties to even, with no
carry into the exponent (R211). -/
theorem binary64Magnitude_nearest {m : Nat} (hpos : 0 < m) (hm : m ≤ 65535) :
    ∃ k sig : Nat, 43 ≤ k ∧ k ≤ 59 ∧ 2 ^ 52 ≤ sig ∧ sig < 2 ^ 53 ∧
      binary64Magnitude m = (1075 - k) * 2 ^ 52 + (sig - 2 ^ 52) ∧
      2 * (100 * sig) ≤ 2 * (m * 2 ^ k) + 100 ∧ 2 * (m * 2 ^ k) ≤ 2 * (100 * sig) + 100 ∧
      (2 * (100 * sig) = 2 * (m * 2 ^ k) + 100 ∨ 2 * (m * 2 ^ k) = 2 * (100 * sig) + 100 → sig % 2 = 0) := by
  obtain ⟨hk, hk', hge, hlt⟩ := sigShift_bounds hpos hm
  obtain ⟨hup, hdown, heven⟩ := roundNearest_nearest (m * 2 ^ sigShift m 64 43) (d := 100) (by decide)
  exact ⟨sigShift m 64 43, roundNearest (m * 2 ^ sigShift m 64 43) 100, hk, hk', by omega, by omega, rfl, hup, hdown, heven⟩

/-- The encoding's value: the sign bit above the magnitude's encoding, where that leaves bit 63 free. -/
theorem toNat_binary64Hundredths {x : Int} (h0 : x ≠ 0) (h : binary64Magnitude x.natAbs < 2 ^ 63) :
    (binary64Hundredths x).toNat = (if x < 0 then 2 ^ 63 else 0) + binary64Magnitude x.natAbs := by
  rw [binary64Hundredths, if_neg h0, BitVec.toNat_ofNat, Nat.mod_eq_of_lt]
  split <;> omega

/-- Settles O42: the sign bit above the magnitude's nearest encoding. -/
theorem binary64IsNearestToHundredths : Obligations.Binary64IsNearestToHundredths := by
  unfold Obligations.Binary64IsNearestToHundredths
  intro x hlo hhi
  refine ⟨fun h0 => by rw [h0]; rfl, fun h0 => ?_⟩
  obtain ⟨k, sig, hk, hk', hsig, hsig', hmag, hup, hdown, heven⟩ :=
    binary64Magnitude_nearest (Int.natAbs_pos.2 h0) (show x.natAbs ≤ 65535 by omega)
  refine ⟨k, sig, hk, hk', hsig, hsig', ?_, by omega, by omega, fun htie => heven (by omega)⟩
  rw [toNat_binary64Hundredths h0 (by omega), hmag, Nat.add_assoc]

end Sys2Proof.Machine
end

section
/-! PROOFS. Reset: the values of R261, and what asserting `rst` does in a state, by whether it cuts a character off (R260 to
R262). -/

namespace Sys2Proof.Machine

/-! The values after reset (R261). -/

theorem lineValue_eq (s : State) : regValue .line s = some (if s.line.present = true then 1 else 0) := by
  cases h : s.line.present <;> simp [regValue, h, flagBit]

theorem receiverEnabled_of_idle {s : State} (h : s.phase = .idle) : receiverEnabled s = false := by
  simp [receiverEnabled, h]

theorem txOutput_of_idle {s : State} (h : s.phase = .idle) : txOutput s = some true := by simp [txOutput, h]

/-- A state whose stored fields have their values of R261 shows them all. -/
theorem resetValues_of_fields {s : State} (hst : s.status = Status.reset) (hr : s.regs = Regs.reset) (hm : s.mem = [])
    (hp : s.phase = .idle) (ho : s.port.isOpen = false) (hn : s.now = 0) : resetValues s := by
  have hword : statusWord s = 0x00000000 := by
    simp only [statusWord, hst, ho, (not_busy_iff s).2 hp]
    decide
  unfold resetValues
  rw [hr, hm]
  exact ⟨hword, rfl, rfl, rfl, rfl, rfl, rfl, rfl, rfl, rfl, rfl, rfl, rfl, rfl, rfl, rfl, rfl, Memory.read_nil, hp,
    ho, hn, txOutput_of_idle hp, receiverEnabled_of_idle hp, lineValue_eq s⟩

/-- Settles O50: each stored field of the state after reset is the table's. -/
theorem resetHasTheSpecsValues : Obligations.ResetHasTheSpecsValues := by
  unfold Obligations.ResetHasTheSpecsValues
  exact resetValues_of_fields rfl rfl rfl rfl rfl rfl

theorem resetState_values (s : State) : resetValues (resetState s) := resetValues_of_fields rfl rfl rfl rfl rfl rfl

/-- Settles O52: the state after reset is, out of the `rst` input, the sound state that a reset of it gives. -/
theorem resetStateIsSound : Obligations.ResetStateIsSound := by
  unfold Obligations.ResetStateIsSound
  obtain ⟨hstatus, ⟨hphase, -⟩, hconfig, hbuffers, hframes, htime, hcounts⟩ := resetState_sound State.reset
  exact ⟨hstatus, ⟨hphase, fun _ => rfl⟩, hconfig, hbuffers, hframes, htime, hcounts⟩

/-! The character that a reset cuts off (R262). -/

theorem txChosenCut_iff (s : State) :
    txChosenCut s = true ↔ ∃ k, s.line.txChoices.head? = some (.failed k true) := by
  unfold txChosenCut
  split <;> rename_i h <;> simp [h]

/-- A character is in progress: by its times in the timed model, by the line's choice in the untimed one. -/
theorem charInProgress_cases (s : State) :
    charInProgress s = true ↔
      (isTimed s = true ∧ txCharStart s < s.now ∧ txCharEnd s ≤ s.port.deadline) ∨
        (isTimed s = false ∧ ∃ k, s.line.txChoices.head? = some (.failed k true)) := by
  cases ht : isTimed s with
  | true => simp [charInProgress_iff ht, and_comm]
  | false => simp [charInProgress_untimed ht, txChosenCut_iff]

/-- A reset cuts a character off: it comes in TX, with a character in progress (R262). -/
def resetCuts (s : State) : Prop := s.phase = .tx ∧ charInProgress s = true

/-- In the terms of R114's schedule. -/
theorem resetCuts_iff (s : State) :
    resetCuts s ↔ s.phase = .tx ∧
      ((isTimed s = true ∧ s.phaseAt + (s.port.txK : Time) * charTime s < s.now ∧
          s.phaseAt + (s.port.txK : Time) * charTime s + charTime s ≤ s.port.deadline) ∨
        (isTimed s = false ∧ ∃ k, s.line.txChoices.head? = some (.failed k true))) := by
  rw [resetCuts, charInProgress_cases]
  cases ht : isTimed s with
  | true => rw [txCharStart_timed ht, txCharEnd_timed ht]
  | false => simp

theorem cutAtReset_between {s : State} (h : ¬ resetCuts s) : cutAtReset s = .ok s := by
  unfold cutAtReset
  split
  · rename_i hp
    exact cutOff_between (Bool.eq_false_iff.2 fun hc => h ⟨hp, hc⟩)
  · rfl

theorem cutAtReset_inside {s : State} {b : Byte} (h : resetCuts s) (hb : Memory.read s.mem (txAddr s.port.txK) = some b) :
    cutAtReset s = .ok (putWire (wireChar s b (txCharStart s) s.now false) s) := by
  rw [cutAtReset, if_pos h.1, cutOff_inside h.2 hb]

theorem cutAtReset_unwritten {s : State} (h : resetCuts s) (hb : Memory.read s.mem (txAddr s.port.txK) = none) :
    cutAtReset s = .error (.unwrittenCell (txAddr s.port.txK)) := by
  rw [cutAtReset, if_pos h.1, cutOff_unwritten hb h.2]

/-! The state after the assertion (R260, R261). -/

/-- The line's choice for the phase broken off is used up, and nothing else changes. -/
theorem abandonChoice_eq (s : State) :
    abandonChoice s = { s with line := { s.line with
      txChoices := (abandonChoice s).line.txChoices
      rxChoices := (abandonChoice s).line.rxChoices } } := by
  unfold abandonChoice
  split
  · rfl
  · split <;> rfl

/-- The state in which `rst` has just been asserted, a character in progress having been cut off in `s`. -/
def asserted (s : State) : State := resetState (abandonChoice s)

theorem assertReset_of_cut {s t : State} (h : cutAtReset s = .ok t) : assertReset s = .next (asserted t) := by
  rw [assertReset, h]; rfl

theorem assertReset_of_fault {s : State} {f : Fault} (h : cutAtReset s = .error f) : assertReset s = .fault f := by
  rw [assertReset, h]

@[simp] theorem asserted_rst (s : State) : (asserted s).rst = true := rfl

@[simp] theorem asserted_params (s : State) : (asserted s).params = s.params := by
  rw [asserted, abandonChoice_eq]; rfl

@[simp] theorem asserted_present (s : State) : (asserted s).line.present = s.line.present := by
  rw [asserted, abandonChoice_eq]; rfl

/-- The wire's record is kept, its instants moved with the clock (R110). -/
theorem asserted_wire (s : State) :
    (asserted s).seen.wire = s.seen.wire.map fun c => { c with start := c.start - s.now, stop := c.stop - s.now } := by
  rw [asserted, abandonChoice_eq]; rfl

theorem asserted_wire_length (s : State) : (asserted s).seen.wire.length = s.seen.wire.length := by
  rw [asserted_wire, List.length_map]

/-- The character put on the wire last is still the last one of the record. -/
theorem asserted_putWire_getLast (c : TxChar) (s : State) :
    (asserted (putWire c s)).seen.wire.getLast? = some { c with start := c.start - s.now, stop := c.stop - s.now } := by
  simp [asserted_wire]

/-- While `rst` is asserted an admitted write does nothing (R260). -/
theorem hostStep_write_ignored {off : BitVec 12} {s : State} (ha : off.toNat % 4 = 0) (hr : s.rst = true) (v : Word) :
    hostStep (.write off .b4 v) s = .next s := by
  simp [hostStep, admitted_b4 ha, hr]

/-- Settles O51: the reset in the middle of a character, where its cell was written or not, and any other reset. -/
theorem assertingRstResetsEverything : Obligations.AssertingRstResetsEverything := by
  unfold Obligations.AssertingRstResetsEverything
  intro s hturn sk cutting cell
  have hstep : step s = assertReset (atReset s) := by simp only [step, hturn]; rfl
  have hcut : resetCuts (atReset s) ↔ cutting := resetCuts_iff (atReset s)
  have ignored : ∀ (u : State) (v : Word) (off : BitVec 12), off.toNat % 4 = 0 →
      hostStep (.write off .b4 v) (asserted u) = .next (asserted u) :=
    fun u v _ ha => hostStep_write_ignored ha (asserted_rst u) v
  refine ⟨fun hnot => ?_, fun hc hnone => ?_⟩
  · by_cases hc : cutting
    · obtain ⟨b, hb⟩ := Option.ne_none_iff_exists'.1 fun hnone => hnot ⟨hc, hnone⟩
      rw [hstep, assertReset_of_cut (cutAtReset_inside (hcut.2 hc) hb)]
      refine ⟨_, rfl, resetState_values _, asserted_rst _, asserted_params _, asserted_present _,
        fun b' _ hb' => ?_, fun h => absurd hc h, ignored _⟩
      refine ⟨_, asserted_putWire_getLast _ _, Option.some.inj (hb.symm.trans hb'), rfl, ?_⟩
      rw [asserted_wire_length, putWire_seen, List.length_append]
      rfl
    · rw [hstep, assertReset_of_cut (cutAtReset_between (mt hcut.1 hc))]
      exact ⟨_, rfl, resetState_values _, asserted_rst _, asserted_params _, asserted_present _,
        fun _ h => absurd h hc, fun _ => asserted_wire_length _, ignored _⟩
  · rw [hstep]
    exact assertReset_of_fault (cutAtReset_unwritten (hcut.2 hc) hnone)

end Sys2Proof.Machine
end

section
/-! PROOFS. READ_INPUT_REGS uses no cell that was never written: its request is in TXBUF while it sends, and every cell it
decodes has been received (R190, R264 item 4). -/

namespace Sys2Proof.Machine

/-! Sending on a written cell. -/

theorem cutOff_written {s : State} {b : Byte} (hb : Memory.read s.mem (txAddr s.port.txK) = some b) :
    ∃ t, cutOff s = .ok t := by
  cases hc : charInProgress s with
  | true => exact ⟨_, cutOff_inside hc hb⟩
  | false => exact ⟨_, cutOff_between hc⟩

/-- The transmit engine answers: the character goes, is the last one to go, or the phase is broken off. -/
theorem txStep_written {s : State} {b : Byte} (hb : Memory.read s.mem (txAddr s.port.txK) = some b) :
    ∃ o t, txStep s = .ok (o, t) := by
  by_cases hg : txGoes s
  · rcases Nat.lt_or_ge (s.port.txK + 1) (txTotal s.latch) with hk | hk
    · exact ⟨_, _, txStep_sends hg hb hk⟩
    · exact ⟨_, _, txStep_sendsLast hg hb hk⟩
  · obtain ⟨t, hcut⟩ := cutOff_written hb
    cases ht : isTimed s with
    | false =>
      rw [txGoes_untimed ht, not_lt] at hg
      exact ⟨_, _, txStep_broken ht hg hcut⟩
    | true =>
      rw [txGoes_timed ht, not_and, not_le] at hg
      cases hl : s.line.present with
      | false => exact ⟨_, _, txStep_lost ht hl hcut⟩
      | true => exact ⟨_, _, txStep_late ht hl (hg hl)⟩

theorem exec_readInputRegs_of_txStep {s t : State} {o : Option TxOutcome} (hp : s.phase = .tx)
    (h : txStep s = .ok (o, t)) : ∃ t', exec .readInputRegs s = .next t' :=
  match o with
  | none => ⟨_, exec_of_txStep_goesOn (.inr rfl) hp h⟩
  | some .ok => ⟨_, exec_readInputRegs_of_txStep_ok hp h⟩
  | some .writeTimeout => ⟨_, exec_of_txStep_fails (.inr rfl) hp (by simp) h⟩
  | some .writeFailed => ⟨_, exec_of_txStep_fails (.inr rfl) hp (by simp) h⟩

/-! The cells of a sound READ_INPUT_REGS. -/

/-- The character it sends is one of its request. -/
theorem request_cell_written {s : State} (hq : phaseSound s) (hf : framesSound s) (hop : s.latch.op = 0x00000007)
    (hp : s.phase = .tx) : ∃ b, Memory.read s.mem (txAddr s.port.txK) = some b := by
  have hk : s.port.txK < 8 := by
    simp only [phaseSound, hp, txTotal_eq, hop, if_true] at hq
    obtain ⟨-, -, hk⟩ := hq
    exact hk
  have hcells := hf.1 (.inr hp) ((isRir_iff _).2 hop)
  have hmem : Memory.read s.mem (txAddr s.port.txK) ∈ Memory.readCells s.mem (txAddr 0) 8 :=
    mem_readCells.2 ⟨s.port.txK, hk, rfl⟩
  rw [hcells] at hmem
  obtain ⟨b, -, hb⟩ := List.mem_map.1 hmem
  exact ⟨b, hb.symm⟩

/-- The cells it decodes hold the bytes received. -/
theorem received_cells_written {s : State} (hf : framesSound s) (hp : s.phase = .decode) :
    ∃ bs : List Byte, Memory.readCells s.mem (rxAddr 0) s.port.rxN = bs.map some := by
  refine eq_map_some fun hnone => ?_
  obtain ⟨i, hi, hr⟩ := mem_readCells.1 hnone
  have hsome := hf.2 (.inr hp) i hi
  have haddr : rxAddr i = rxAddr 0 + 4 * i := rfl
  rw [haddr, hr] at hsome
  cases hsome

/-! Every phase answers. -/

/-- In a sound state READ_INPUT_REGS answers: only TX and DECODE use cells. -/
theorem exec_readInputRegs_answers {s : State} (hq : phaseSound s) (hf : framesSound s)
    (hop : s.latch.op = 0x00000007) : ∃ t, exec .readInputRegs s = .next t := by
  cases hp : s.phase with
  | idle => exact ⟨_, exec_readInputRegs_idle hp⟩
  | exec =>
    simp only [phaseSound, hp] at hq
    obtain ⟨-, -, hchecks⟩ := hq
    obtain ⟨r, hr⟩ := Option.ne_none_iff_exists'.1 (hchecks ((isRir_iff _).2 hop))
    exact ⟨_, exec_readInputRegs_atOnce hp hr⟩
  | txGap => exact ⟨_, exec_gap (.inr rfl) hp⟩
  | tx =>
    obtain ⟨b, hb⟩ := request_cell_written hq hf hop hp
    obtain ⟨o, t, hx⟩ := txStep_written hb
    exact exec_readInputRegs_of_txStep hp hx
  | rxWait => exact ⟨_, exec_readInputRegs_receiving (.inl hp)⟩
  | rxFrame => exact ⟨_, exec_readInputRegs_receiving (.inr hp)⟩
  | decode =>
    obtain ⟨bs, hbs⟩ := received_cells_written hf hp
    obtain ⟨out, hout⟩ := Option.isSome_iff_exists.1 (decodeCells_written bs s.latch.slave 0x04 s.latch.count)
    rw [exec_readInputRegs_decode hp, hbs]
    exact ⟨_, rirDecode_some hout⟩

/-- Whatever is fetched for READ_INPUT_REGS does its step: the command, or the frame it decodes (R98). -/
theorem exec_fetched_of_readInputRegs {s : State} (hop : s.latch.op = 0x00000007) :
    exec (fetchInstr s) s = exec .readInputRegs s := by
  by_cases hp : s.phase = .decode
  · rw [exec_fetched_of_decode hp hop, exec_readInputRegs_decode hp]
  · rw [fetchInstr_of_command hp, hop]; rfl

/-- The sequencer's turn changes no part of what makes a phase and its frames sound. -/
theorem atSequencer_sound {s : State} (h : phaseSound s ∧ framesSound s) :
    phaseSound (atSequencer s) ∧ framesSound (atSequencer s) := by
  rw [atSequencer_eq s]; exact h

/-- Settles O37: what is fetched does READ_INPUT_REGS's step, which answers. -/
theorem readInputRegsNeverFaults : Obligations.ReadInputRegsNeverFaults := by
  unfold Obligations.ReadInputRegsNeverFaults
  intro s hs hop hturn
  obtain ⟨-, ⟨hphase, -⟩, -, -, hframes, -⟩ := hs
  obtain ⟨hq, hf⟩ := atSequencer_sound ⟨hphase, hframes⟩
  have hop' : (atSequencer s).latch.op = 0x00000007 := by rw [atSequencer_latch, hop]
  have hstep : step s = exec .readInputRegs (atSequencer s) := by
    simp only [step, hturn]
    rw [← fetchInstr_atSequencer, exec_fetched_of_readInputRegs hop']
  rw [hstep]
  exact exec_readInputRegs_answers hq hf hop'

end Sys2Proof.Machine
end
